-- ==== Sys2Proof/Word.lean ====
section
/-! DEFINITION. The words of the machine: the 32-bit command word (30_encoding.md R91) and the word that holds one
`num` (00_scope.md R11, 20_memory.md R69). -/

namespace Sys2Proof

/-- One 32-bit word of a command stream (R70, R91). -/
abbrev Word := BitVec 32

/-- One `num` as the machine holds it (R11, R69): under `NUM_F32` its binary32 bit pattern, under any other format its
representation there, of whatever width, given by a number (log entry 1). -/
inductive NumWord where
  | f32 (bits : Word)
  | code (n : Nat)
  deriving DecidableEq, Repr, Inhabited

end Sys2Proof
end

