-- ==== Sys2Proof/Config.lean ====
section
/-! DEFINITION. What an implementation fixes (00_scope.md R8: the parameters, held as plain data in State and
written by no step) and the free values (opaque constants without a body: nothing can evaluate one). -/

namespace Sys2Proof

/-- The parameter record `NUM` (R11), over any carrier. `lit m d` is the number nearest the decimal `m / 10^d`; `decode`
is `numword`, none where the format leaves it undefined; `midi` is the table `MIDI_FREQ`, whose entries are rounded to
the format (R222). -/
structure NumFmt (α : Type) where
  ofInt : Int → α
  lit : Nat → Nat → α
  add : α → α → α
  sub : α → α → α
  mul : α → α → α
  div : α → α → α
  neg : α → α
  abs : α → α
  lt : α → α → Bool
  le : α → α → Bool
  gt : α → α → Bool
  ge : α → α → Bool
  eq : α → α → Bool
  floor : α → Int
  sin : α → α
  pi : α
  decode : Word → Option α
  encode : α → Option Word
  isFinite : α → Bool
  midi : BitVec 7 → α

/-- What R11 says of every `NUM`, with R222 for `MIDI_FREQ` and entry U3 for `sin`; `val x` is the real number that a
finite `x` holds, and nothing is said of the others. A literal is nearest for every decimal of 0 to 440, which covers
those the rules write. DEDUCED, for R11 says it in fewer words: the conversion of an integer the format holds is that
integer; one operation with one rounding is one rounding function of the exact result; the two entries nearest 440,
`MIDI_FREQ[69]` and the literal, are one number; `floor`, which R11 applies to values not below zero only, is the greatest
integer below zero as well, as the test `idx < 0` of R181 needs (log entry 5). DESIGN CHOICE: R222's entry nearest the
exact value and its entry an octave above exactly twice it cannot both hold in every format (a fixed-point one), so the
nearest is the law, and the doubling is one wherever the double is a nearest number too. Log entry 1. -/
structure LawfulNum {α : Type} (F : NumFmt α) (val : α → ℝ) : Prop where
  ofInt_exact : ∀ (k : Int) (x : α), F.isFinite x = true → val x = k →
    F.isFinite (F.ofInt k) = true ∧ val (F.ofInt k) = k
  lit_nearest : ∀ m d : Nat, m ≤ 440 * 10 ^ d → F.isFinite (F.lit m d) = true ∧
    ∀ x, F.isFinite x = true → |val (F.lit m d) - m / 10 ^ d| ≤ |val x - m / 10 ^ d|
  one_rounding : ∃ rnd : ℝ → ℝ, ∀ a b, F.isFinite a = true → F.isFinite b = true →
    (F.isFinite (F.add a b) = true → val (F.add a b) = rnd (val a + val b)) ∧
    (F.isFinite (F.sub a b) = true → val (F.sub a b) = rnd (val a - val b)) ∧
    (F.isFinite (F.mul a b) = true → val (F.mul a b) = rnd (val a * val b)) ∧
    (F.isFinite (F.div a b) = true → val b ≠ 0 → val (F.div a b) = rnd (val a / val b))
  neg_exact : ∀ a, F.isFinite a = true → F.isFinite (F.neg a) = true ∧ val (F.neg a) = -val a
  abs_exact : ∀ a, F.isFinite a = true → F.isFinite (F.abs a) = true ∧ val (F.abs a) = |val a|
  compares : ∀ a b, F.isFinite a = true → F.isFinite b = true →
    (F.lt a b = true ↔ val a < val b) ∧ (F.le a b = true ↔ val a ≤ val b) ∧ (F.gt a b = true ↔ val a > val b) ∧
    (F.ge a b = true ↔ val a ≥ val b) ∧ (F.eq a b = true ↔ val a = val b)
  floor_exact : ∀ a, F.isFinite a = true → F.floor a = ⌊val a⌋
  sin_zero : F.sin (F.ofInt 0) = F.ofInt 0
  sin_unit : ∀ a, F.isFinite a = true → F.isFinite (F.sin a) = true ∧ |val (F.sin a)| ≤ 1
  midi_nearest : ∀ note : BitVec 7, F.isFinite (F.midi note) = true ∧ ∀ x, F.isFinite x = true →
    |val (F.midi note) - 440 * (2 : ℝ) ^ (((note.toNat : ℝ) - 69) / 12)|
      ≤ |val x - 440 * (2 : ℝ) ^ (((note.toNat : ℝ) - 69) / 12)|
  midi_octave : ∀ note : BitVec 7, note.toNat + 12 < 128 → ∀ x, F.isFinite x = true → val x = 2 * val (F.midi note) →
    (∀ y, F.isFinite y = true →
      |val x - 440 * (2 : ℝ) ^ ((((note + 12#7).toNat : ℝ) - 69) / 12)|
        ≤ |val y - 440 * (2 : ℝ) ^ ((((note + 12#7).toNat : ℝ) - 69) / 12)|) →
    val (F.midi (note + 12#7)) = val x
  midi_a4 : F.midi 69#7 = F.lit 440 0

/-- The format whose every number is 0: it shows that R11's laws have an instance, and is not used otherwise. -/
def NumFmt.zeroOnly : NumFmt NumWord :=
  { ofInt := fun _ => .code 0, lit := fun _ _ => .code 0, add := fun _ _ => .code 0, sub := fun _ _ => .code 0
    mul := fun _ _ => .code 0, div := fun _ _ => .code 0, neg := fun _ => .code 0, abs := fun _ => .code 0
    lt := fun _ _ => false, le := fun _ _ => true, gt := fun _ _ => false, ge := fun _ _ => true
    eq := fun _ _ => true, floor := fun _ => 0, sin := fun _ => .code 0, pi := .code 0
    decode := fun _ => none, encode := fun _ => none, isFinite := fun _ => true, midi := fun _ => .code 0 }

theorem NumFmt.zeroOnly_lawful : ∃ val, LawfulNum NumFmt.zeroOnly val :=
  ⟨fun _ => 0,
    { ofInt_exact := fun _ _ _ h => ⟨rfl, h⟩
      lit_nearest := fun _ _ _ => ⟨rfl, fun _ _ => le_rfl⟩
      one_rounding := ⟨fun _ => 0, fun _ _ _ _ => ⟨fun _ => rfl, fun _ => rfl, fun _ => rfl, fun _ _ => rfl⟩⟩
      neg_exact := fun _ _ => ⟨rfl, by simp⟩
      abs_exact := fun _ _ => ⟨rfl, by simp⟩
      compares := fun _ _ _ _ => by simp [NumFmt.zeroOnly]
      floor_exact := fun _ _ => by simp [NumFmt.zeroOnly]
      sin_zero := rfl
      sin_unit := fun _ _ => ⟨rfl, by simp⟩
      midi_nearest := fun _ => ⟨rfl, fun _ _ => le_rfl⟩
      midi_octave := fun _ _ _ _ _ _ => rfl
      midi_a4 := rfl }⟩

/-- A format the machine can run: operations on number words that meet R11's laws. -/
structure Format where
  ops : NumFmt NumWord := NumFmt.zeroOnly
  lawful : ∃ val, LawfulNum ops val := by exact NumFmt.zeroOnly_lawful
  deriving Inhabited

/-- The parameter `NUM` of a configuration (R8), as plain data: the default `NUM_F32`, or any other format that meets
R11's laws, `NUM_REAL` among them, given by a number that stands for it. Log entry 1. -/
inductive NumChoice where
  | f32
  | other (n : Nat)
  deriving DecidableEq, Repr

/-- The parameters of R8 that are not constants, each a field, so that a statement about every state is one about every
configuration. `MIDI_FREQ` comes with the format (R222). -/
structure Params where
  /-- `NUM`, the number format and its operations. -/
  num : NumChoice
  /-- `N`, the table length without the guard. -/
  tableSize : Nat
  /-- `P`, the number of voices. -/
  poolSize : Nat
  /-- `NCH`, the output channels of `sample_buf`. -/
  channels : Nat
  /-- `BUFLEN`, the frames of each channel. -/
  bufLen : Nat
  /-- `F_BUILD`, the fundamental the engine passes to the builder. -/
  fBuild : NumWord
  deriving DecidableEq, Repr

/-- The defaults of R8: `NUM_F32`, `N` 2048, `P` 16, `NCH` 2, `BUFLEN` 4096, `F_BUILD` 440.0. -/
def Params.default : Params :=
  { num := .f32, tableSize := 2048, poolSize := 16, channels := 2, bufLen := 4096, fBuild := .f32 0x43DC0000#32 }

/-- A format other than `NUM_F32`: R8 leaves `NUM` open, and nothing is known of it but R11's laws. Log entry 1. -/
opaque Config.otherNum : Nat → Format

/-- The number an operand word carries where the format leaves `numword` undefined (R11). Log entry 1. -/
opaque Config.undecoded : NumChoice → Word → NumWord

/-- The format's sine before the properties of entry U3 are imposed: any function of the operand word.
Log entry 3. -/
opaque Config.sinRaw : Word → Word

/-- Sign and payload bits of the NaN an operation answers: IEEE 754 fixes that it is a quiet NaN and no more.
The first argument numbers the operation. Log entry 4. -/
opaque Config.nanRest : Nat → Word → Word → BitVec 23

/-- What `rnd_data` carries at the n-th draw when the environment has offered no value; see `Rnd.draw`.
Log entry 6. -/
opaque Config.drawRaw : Nat → NumWord

/-- What a `TBL` word that nothing has written reads as: era, kind number, index. Log entry 7. -/
opaque Config.unwrittenTbl : Nat → Nat → Nat → NumWord

/-- What a `BUF` word that nothing has written reads as: era, channel, frame. Log entry 7. -/
opaque Config.unwrittenBuf : Nat → Nat → Nat → NumWord

/-- What `RELEASE` leaves in the number registers R271 calls unspecified: era, register. Log entry 8. -/
opaque Config.releasedNum : Nat → Nat → NumWord

/-- What `RELEASE` leaves in `CFG.MAXBLK` (R271). Log entry 8. -/
opaque Config.releasedMaxblk : Nat → BitVec 16

/-- What `RELEASE` leaves in `TBL_ATTR[k].H` (R271): era, kind number. Log entry 8. -/
opaque Config.releasedHarm : Nat → Nat → BitVec 5

/-- What the host reads from `BUF` while `core_busy = 1` (entry U8): slot number, channel, frame. Log entry 9. -/
opaque Config.busyBufRead : Nat → Nat → Nat → NumWord

/-- What the host's read port carries for a channel or frame that does not exist: slot number, channel, frame.
Log entry 23. -/
opaque Config.outsideBufRead : Nat → Nat → Nat → NumWord

/-- The output `prepared` while `core_busy = 1` (entry U14). Log entry 9. -/
opaque Config.busyPrepared : Nat → Bool

/-- The output `voice_busy[v]` while `core_busy = 1` (entry U14): slot number, voice. Log entry 9. -/
opaque Config.busyVoice : Nat → Nat → Bool

end Sys2Proof
end

