-- ==== Sys2Proof/Syntax.lean ====
section
/-! DEFINITION. Syntax: the nine host commands (30_encoding.md R90, R100) and the twenty internal operations
(R106), one constructor per row of spec/opcode_table.json. -/

namespace Sys2Proof

/-- A waveform kind (R94): 0 sine, 1 saw, 2 square, 3 triangle. -/
inductive Kind where
  | sine
  | saw
  | square
  | triangle
  deriving DecidableEq, Repr

/-- Which oscillator of a voice an operation names: `MAIN` or `SUB[i]`, `i` in 0 to 7 (10_state.md R25, R26). -/
inductive OscSel where
  | main
  | sub (i : BitVec 3)
  deriving DecidableEq, Repr

/-- An instruction. Number operands of commands are the operand WORDS (R99); the meaning applies `numword`.
The operands of an internal operation are the arguments its rule names (log entry 2). -/
inductive Instr where
  /-- `PREPARE sampleRate, maxBlockSize` (R270). -/
  | prepare (maxblk : BitVec 16) (rate : Word)
  /-- `RELEASE` (R271). -/
  | release
  /-- `SET_WAVE kind` (R272). -/
  | setWave (kind : Kind)
  /-- `SET_HARM n`, `n = sext_16(imm16)` (R273). -/
  | setHarm (imm16 : BitVec 16)
  /-- `SET_SUB n`, `n = sext_16(imm16)` (R274). -/
  | setSub (imm16 : BitVec 16)
  /-- `SET_ADSR attack, decay, sustain, release` (R275). -/
  | setAdsr (attack decay sustain rel : Word)
  /-- `NOTE_ON note, velocity` (R276). -/
  | noteOn (note : BitVec 7) (velocity : Word)
  /-- `NOTE_OFF note, velocity[, T]` (R277). -/
  | noteOff (t : Bool) (note : BitVec 7) (velocity : Word)
  /-- `RENDER start, num` (R252). -/
  | render (start num : BitVec 16)
  /-- `build(k, H, f0, fs)` (R131). -/
  | build (kind : Kind) (harm : BitVec 5) (f0 fs : Word)
  /-- `rebuild_all()` (R140). -/
  | rebuildAll
  /-- `osc_set_freq(o, freq, fs)` (R161). -/
  | oscSetFreq (v : Nat) (o : OscSel) (freq fs : Word)
  /-- `osc_set_random_phase(o)` (R162). -/
  | oscSetRandomPhase (v : Nat) (o : OscSel)
  /-- `osc_advance(o)` (R163). -/
  | oscAdvance (v : Nat) (o : OscSel)
  /-- `osc_stop(o)` (R165). -/
  | oscStop (v : Nat) (o : OscSel)
  /-- `osc_reset(o)` (R166). -/
  | oscReset (v : Nat) (o : OscSel)
  /-- `osc_next_sample(o, k)` (R167). -/
  | oscNextSample (v : Nat) (o : OscSel) (kind : Kind)
  /-- `tbl_interp(k, phase)` (R181). -/
  | tblInterp (kind : Kind) (phase : Word)
  /-- `env_rates()` (R191). -/
  | envRates
  /-- `env_trigger(v)` (R192). -/
  | envTrigger (v : Nat)
  /-- `env_release(v)` (R193). -/
  | envRelease (v : Nat)
  /-- `env_next(v)` (R194). -/
  | envNext (v : Nat)
  /-- `env_reset(v)` (R196). -/
  | envReset (v : Nat)
  /-- `voice_note_on(v, note, vel, k, sc)` (R223); `sc` is read as a signed count. -/
  | voiceNoteOn (v : Nat) (note : BitVec 7) (vel : Word) (kind : Kind) (sc : BitVec 16)
  /-- `voice_note_off(v, vel, t)` (R224). -/
  | voiceNoteOff (v : Nat) (vel : Word) (t : Bool)
  /-- `voice_render(v, start, num)` (R225). -/
  | voiceRender (v : Nat) (start num : BitVec 16)
  /-- `voice_reset(v)` (R227). -/
  | voiceReset (v : Nat)
  /-- `buf_clear(start, num)` (R251). -/
  | bufClear (start num : BitVec 16)
  /-- `mix_acc(a, y)` (R253). -/
  | mixAcc (a : Nat) (y : Word)
  deriving DecidableEq, Repr

/-- Whether an instruction is one of the twenty internal operations, which no host command word selects (R106). -/
def Instr.isInternal : Instr → Bool
  | .prepare .. | .release | .setWave .. | .setHarm .. | .setSub .. | .setAdsr .. | .noteOn .. | .noteOff ..
  | .render .. => false
  | .build .. | .rebuildAll | .oscSetFreq .. | .oscSetRandomPhase .. | .oscAdvance .. | .oscStop .. | .oscReset ..
  | .oscNextSample .. | .tblInterp .. | .envRates | .envTrigger .. | .envRelease .. | .envNext .. | .envReset ..
  | .voiceNoteOn .. | .voiceNoteOff .. | .voiceRender .. | .voiceReset .. | .bufClear .. | .mixAcc .. => true

end Sys2Proof
end

