-- ==== Sys2Proof/WellFormed.lean ====
section
/-! DEFINITION. Well-formedness of an instruction under a configuration: the operand preconditions the rules state
(R12 for a voice number, R131 for `H`, R68 and R251 to R253 for frames). Host commands are well-formed by their
fields' widths (R94, R97). -/

namespace Sys2Proof

/-- R131: `0 <= H <= 16`. -/
def harmInRange (h : BitVec 5) : Bool := h.toNat ≤ 16

/-- R12: `0 <= v < P`. -/
def voiceInRange (p : Params) (v : Nat) : Bool := v < p.poolSize

/-- R225, R251: `start + num <= BUFLEN`. -/
def framesInRange (p : Params) (start num : BitVec 16) : Bool := start.toNat + num.toNat ≤ p.bufLen

/-- R253: `0 <= a < BUFLEN`. -/
def frameInRange (p : Params) (a : Nat) : Bool := a < p.bufLen

/-- The operands of an instruction lie where its rule says they do. -/
def Instr.wellFormed (p : Params) : Instr → Bool
  | .prepare .. | .release | .setWave .. | .setHarm .. | .setSub .. | .setAdsr .. | .noteOn .. | .noteOff ..
  | .render .. => true
  | .build _ h _ _ => harmInRange h
  | .rebuildAll | .envRates | .tblInterp .. => true
  | .oscSetFreq v .. | .oscSetRandomPhase v _ | .oscAdvance v _ | .oscStop v _ | .oscReset v _ | .oscNextSample v _ _
  | .envTrigger v | .envRelease v | .envNext v | .envReset v | .voiceNoteOn v .. | .voiceNoteOff v ..
  | .voiceReset v => voiceInRange p v
  | .voiceRender v start num => voiceInRange p v && framesInRange p start num
  | .bufClear start num => framesInRange p start num
  | .mixAcc a _ => frameInRange p a

/-- The part of well-formedness that does not depend on the configuration, which is all the decoder can check. -/
def Instr.encodable : Instr → Bool
  | .build _ h _ _ => harmInRange h
  | .prepare .. | .release | .setWave .. | .setHarm .. | .setSub .. | .setAdsr .. | .noteOn .. | .noteOff ..
  | .render .. | .rebuildAll | .oscSetFreq .. | .oscSetRandomPhase .. | .oscAdvance .. | .oscStop .. | .oscReset ..
  | .oscNextSample .. | .tblInterp .. | .envRates | .envTrigger .. | .envRelease .. | .envNext .. | .envReset ..
  | .voiceNoteOn .. | .voiceNoteOff .. | .voiceRender .. | .voiceReset .. | .bufClear .. | .mixAcc .. => true

end Sys2Proof
end

