-- ==== Sys2Proof/Decode.lean ====
section
/-! DEFINITION. Command decoding and encoding (30_encoding.md R91 to R101, R107, R108), and the request form of the
internal operations (R106). The decoder is total; what it rejects it rejects by name. -/

namespace Sys2Proof

/-- The nine command mnemonics of R100. -/
inductive Cmd where
  | prepare
  | release
  | setWave
  | setHarm
  | setSub
  | setAdsr
  | noteOn
  | noteOff
  | render
  deriving DecidableEq, Repr

/-- One row of the opcode map R100: a header `w` selects it when `(w AND mask) == pattern`. -/
structure OpcodeRow where
  cmd : Cmd
  pattern : Word
  mask : Word
  operands : Nat
  deriving DecidableEq, Repr

/-- The opcode map (R100), with the operand word counts of R92. -/
def opcodeMap : List OpcodeRow :=
  [ ⟨.prepare, 0x01000000#32, 0xFFFF0000#32, 1⟩,
    ⟨.release, 0x02000000#32, 0xFFFFFFFF#32, 0⟩,
    ⟨.setWave, 0x10000000#32, 0xFFFFFFFC#32, 0⟩,
    ⟨.setHarm, 0x11000000#32, 0xFFFF0000#32, 0⟩,
    ⟨.setSub, 0x12000000#32, 0xFFFF0000#32, 0⟩,
    ⟨.setAdsr, 0x13000000#32, 0xFFFFFFFF#32, 4⟩,
    ⟨.noteOn, 0x20000000#32, 0xFFFFFF80#32, 1⟩,
    ⟨.noteOff, 0x21000000#32, 0xFFFFFE80#32, 1⟩,
    ⟨.render, 0x30000000#32, 0xFFFF0000#32, 1⟩ ]

/-- Whether a header selects a row. -/
def OpcodeRow.selects (r : OpcodeRow) (w : Word) : Bool := w &&& r.mask == r.pattern

/-- The row a header selects, if any (R100, R101). -/
def rowOf (w : Word) : Option OpcodeRow := opcodeMap.find? (·.selects w)

/-- `bits[15:0]` of a word (R95, R98, R107). -/
def low16 (w : Word) : BitVec 16 := w.extractLsb' 0 16

/-- `bits[6:0]` of a header, the note number (R97). -/
def noteField (w : Word) : BitVec 7 := w.extractLsb' 0 7

/-- `bits[8]` of a header, the flag `T` (R97). -/
def tField (w : Word) : Bool := w.getLsbD 8

/-- The kind a 2-bit field names (R94). -/
def kindOf (b : BitVec 2) : Kind :=
  if b = 0#2 then .sine else if b = 1#2 then .saw else if b = 2#2 then .square else .triangle

/-- The 2-bit field of a kind (R94). -/
def kindBits : Kind → BitVec 2
  | .sine => 0#2
  | .saw => 1#2
  | .square => 2#2
  | .triangle => 3#2

/-- Why a port's words are not a command yet, or are none at all. -/
inductive DecodeError where
  /-- No header word, or fewer operand words than R92 gives the command: the port goes on receiving. -/
  | incomplete
  /-- A reserved encoding (R101), with the offending word. -/
  | reserved (w : Word)
  deriving DecidableEq, Repr

/-- Decodes the command at the head of a port's words and answers the words after it (R91 to R98, R101). -/
def decode : List Word → Except DecodeError (Instr × List Word)
  | [] => .error .incomplete
  | w :: rest =>
    match rowOf w with
    | none => .error (.reserved w)
    | some r =>
      match r.cmd, rest with
      | .prepare, a :: rest => .ok (.prepare (low16 w) a, rest)
      | .release, rest => .ok (.release, rest)
      | .setWave, rest => .ok (.setWave (kindOf (w.extractLsb' 0 2)), rest)
      | .setHarm, rest => .ok (.setHarm (low16 w), rest)
      | .setSub, rest => .ok (.setSub (low16 w), rest)
      | .setAdsr, a :: d :: s :: r :: rest => .ok (.setAdsr a d s r, rest)
      | .noteOn, v :: rest => .ok (.noteOn (noteField w) v, rest)
      | .noteOff, v :: rest => .ok (.noteOff (tField w) (noteField w) v, rest)
      | .render, a :: rest =>
        if a.extractLsb' 16 16 = 0#16 then .ok (.render (low16 a) (low16 w), rest) else .error (.reserved a)
      | .prepare, [] | .noteOn, [] | .noteOff, [] | .render, [] => .error .incomplete
      | .setAdsr, _ => .error .incomplete

/-- How many words the command with this header has (R92); a reserved header has no length, and only the header
itself counts. -/
def commandLength (w : Word) : Nat :=
  match rowOf w with
  | none => 1
  | some r => r.operands + 1

/-- A request for an internal operation: the 8-bit code of R106 and the values its caller presents as operands. The
spec gives the operands no bit positions, so each stands on a line of its own (log entry 2); an operation reads the
lines its rule names. -/
structure UopRequest where
  code : BitVec 8
  /-- The voice `v`. -/
  voice : Nat := 0
  /-- The oscillator of that voice: 0 is `MAIN`, `i + 1` is `SUB[i]`. -/
  osc : BitVec 4 := 0#4
  /-- The kind `k`. -/
  kind : BitVec 2 := 0#2
  /-- The harmonic count `H`. -/
  harm : BitVec 5 := 0#5
  /-- The note number. -/
  note : BitVec 7 := 0#7
  /-- The flag `t`. -/
  tail : Bool := false
  /-- The subharmonic count `sc`. -/
  count : BitVec 16 := 0#16
  /-- The first frame `start`. -/
  start : BitVec 16 := 0#16
  /-- The frame count `num`. -/
  num : BitVec 16 := 0#16
  /-- The frame address `a`. -/
  frame : Nat := 0
  /-- The first number operand, as an operand word (log entry 2). -/
  x : Word := 0#32
  /-- The second number operand, as an operand word. -/
  y : Word := 0#32
  deriving DecidableEq, Repr

/-- Why a request names no internal operation. -/
inductive UopError where
  /-- A code R106 does not assign. -/
  | unassigned (code : BitVec 8)
  /-- An oscillator line that names none of `MAIN`, `SUB[0]` to `SUB[7]` (R25, R26). -/
  | noSuchOscillator (osc : BitVec 4)
  /-- A harmonic count above 16 (R131). -/
  | harmonicCount (harm : BitVec 5)
  deriving DecidableEq, Repr

/-- The oscillator the osc line names. -/
def oscOf (b : BitVec 4) : Except UopError OscSel :=
  if b = 0#4 then .ok .main
  else if b.toNat ≤ 8 then .ok (.sub (BitVec.ofNat 3 (b.toNat - 1))) else .error (.noSuchOscillator b)

/-- The osc line of an oscillator. -/
def oscBits : OscSel → BitVec 4
  | .main => 0#4
  | .sub i => BitVec.ofNat 4 (i.toNat + 1)

/-- The instruction an oscillator operation's request names. -/
def decodeOsc (r : UopRequest) (f : OscSel → Instr) : Except UopError Instr :=
  match oscOf r.osc with
  | .ok o => .ok (f o)
  | .error e => .error e

/-- Decodes a request by its code (R106). -/
def decodeUop (r : UopRequest) : Except UopError Instr :=
  match r.code.toNat with
  | 0x10 =>
    if harmInRange r.harm then .ok (.build (kindOf r.kind) r.harm r.x r.y) else .error (.harmonicCount r.harm)
  | 0x11 => .ok .rebuildAll
  | 0x20 => decodeOsc r fun o => .oscSetFreq r.voice o r.x r.y
  | 0x21 => decodeOsc r fun o => .oscSetRandomPhase r.voice o
  | 0x22 => decodeOsc r fun o => .oscAdvance r.voice o
  | 0x23 => decodeOsc r fun o => .oscStop r.voice o
  | 0x24 => decodeOsc r fun o => .oscReset r.voice o
  | 0x25 => decodeOsc r fun o => .oscNextSample r.voice o (kindOf r.kind)
  | 0x30 => .ok (.tblInterp (kindOf r.kind) r.x)
  | 0x40 => .ok .envRates
  | 0x41 => .ok (.envTrigger r.voice)
  | 0x42 => .ok (.envRelease r.voice)
  | 0x43 => .ok (.envNext r.voice)
  | 0x44 => .ok (.envReset r.voice)
  | 0x50 => .ok (.voiceNoteOn r.voice r.note r.x (kindOf r.kind) r.count)
  | 0x51 => .ok (.voiceNoteOff r.voice r.x r.tail)
  | 0x52 => .ok (.voiceRender r.voice r.start r.num)
  | 0x53 => .ok (.voiceReset r.voice)
  | 0x60 => .ok (.bufClear r.start r.num)
  | 0x61 => .ok (.mixAcc r.frame r.x)
  | _ => .error (.unassigned r.code)

/-- What an instruction is presented as: a command's words at a port, or a request of the sub-blocks. -/
inductive Encoded where
  | words (ws : List Word)
  | request (r : UopRequest)
  deriving DecidableEq, Repr

/-- A header: the opcode in bits 31:24 and a 24-bit field part (R91). -/
def header (opcode : BitVec 8) (field : BitVec 24) : Word := opcode ++ field

/-- Encodes an instruction (R91 to R98; R106 for the codes of the internal operations). -/
def encode : Instr → Encoded
  | .prepare mb fs => .words [header 0x01#8 (0#8 ++ mb), fs]
  | .release => .words [header 0x02#8 0#24]
  | .setWave k => .words [header 0x10#8 (0#22 ++ kindBits k)]
  | .setHarm n => .words [header 0x11#8 (0#8 ++ n)]
  | .setSub n => .words [header 0x12#8 (0#8 ++ n)]
  | .setAdsr a d s r => .words [header 0x13#8 0#24, a, d, s, r]
  | .noteOn note v => .words [header 0x20#8 (0#17 ++ note), v]
  | .noteOff t note v => .words [header 0x21#8 (0#15 ++ BitVec.ofBool t ++ 0#1 ++ note), v]
  | .render start num => .words [header 0x30#8 (0#8 ++ num), 0#16 ++ start]
  | .build k h f0 fs => .request { code := 0x10#8, kind := kindBits k, harm := h, x := f0, y := fs }
  | .rebuildAll => .request { code := 0x11#8 }
  | .oscSetFreq v o f fs => .request { code := 0x20#8, voice := v, osc := oscBits o, x := f, y := fs }
  | .oscSetRandomPhase v o => .request { code := 0x21#8, voice := v, osc := oscBits o }
  | .oscAdvance v o => .request { code := 0x22#8, voice := v, osc := oscBits o }
  | .oscStop v o => .request { code := 0x23#8, voice := v, osc := oscBits o }
  | .oscReset v o => .request { code := 0x24#8, voice := v, osc := oscBits o }
  | .oscNextSample v o k => .request { code := 0x25#8, voice := v, osc := oscBits o, kind := kindBits k }
  | .tblInterp k p => .request { code := 0x30#8, kind := kindBits k, x := p }
  | .envRates => .request { code := 0x40#8 }
  | .envTrigger v => .request { code := 0x41#8, voice := v }
  | .envRelease v => .request { code := 0x42#8, voice := v }
  | .envNext v => .request { code := 0x43#8, voice := v }
  | .envReset v => .request { code := 0x44#8, voice := v }
  | .voiceNoteOn v note vel k sc =>
    .request { code := 0x50#8, voice := v, note := note, x := vel, kind := kindBits k, count := sc }
  | .voiceNoteOff v vel t => .request { code := 0x51#8, voice := v, x := vel, tail := t }
  | .voiceRender v start num => .request { code := 0x52#8, voice := v, start := start, num := num }
  | .voiceReset v => .request { code := 0x53#8, voice := v }
  | .bufClear start num => .request { code := 0x60#8, start := start, num := num }
  | .mixAcc a y => .request { code := 0x61#8, frame := a, x := y }

/-- The instruction that what is presented stands for, a command taking all its words. -/
def decodeEncoded : Encoded → Option Instr
  | .words ws =>
    match decode ws with
    | .ok (i, []) => some i
    | _ => none
  | .request r =>
    match decodeUop r with
    | .ok i => some i
    | .error _ => none

/-- The bytes of one word on a byte-wide transport, least significant first (R67, R108). -/
def bytesOfWord (w : Word) : List (BitVec 8) :=
  [w.extractLsb' 0 8, w.extractLsb' 8 8, w.extractLsb' 16 8, w.extractLsb' 24 8]

/-- The words a byte-wide transport carries; one to three bytes left over are no word yet (R67, R108). -/
def wordsOfBytes : List (BitVec 8) → List Word
  | b0 :: b1 :: b2 :: b3 :: rest => (b3 ++ b2 ++ b1 ++ b0) :: wordsOfBytes rest
  | _ => []

/-- The five words of a host-supplied bit pattern, the first its least significant 32 bits. -/
def tableWords (w : Nat) : List Word :=
  [BitVec.ofNat 32 w, BitVec.ofNat 32 (w >>> 32), BitVec.ofNat 32 (w >>> 64), BitVec.ofNat 32 (w >>> 96),
    BitVec.ofNat 32 (w >>> 128)]

/-- The words of exactly the command at the head of such a pattern. -/
def tableCommand (w : Nat) : List Word := (tableWords w).take (commandLength (BitVec.ofNat 32 w))

/-- The request of an 8-bit row of the table: its code, every operand line zero. -/
def tableRequest (w : Nat) : UopRequest := { code := BitVec.ofNat 8 w }

/-- The instruction the decoder reads from a row of the opcode table: 8 bits are a micro-operation code, anything
else is a command's words. -/
def decodeTableWord (nbits w : Nat) : Option Instr :=
  if nbits = 8 then decodeEncoded (.request (tableRequest w)) else decodeEncoded (.words (tableCommand w))

end Sys2Proof
end

