-- ==== Sys2Proof/Machine/Float32.lean ====
section
/-! DEFINITION. `NUM_F32` (00_scope.md R11): IEEE 754 binary32 on bit patterns. Every finite value is a whole number
of units of 2^-149, so each operation is computed exactly on integers and rounded once, to nearest with ties to even
(`F32.roundUnits`). -/

namespace Sys2Proof.Machine

/-- The magnitude bits of the infinities, `255 * 2^23`. -/
def F32.infMag : Nat := 2139095040

/-- One in units of 2^-149. -/
def F32.one : Nat := 2 ^ 149

/-- The 31 magnitude bits of a word, which order the magnitudes. -/
def F32.mag (w : Word) : Nat := w.toNat % 2 ^ 31

/-- A word with a sign and magnitude bits. -/
def F32.pack (neg : Bool) (m : Nat) : Word := BitVec.ofNat 32 (m + if neg then 2 ^ 31 else 0)

/-- Neither an infinity nor a NaN. -/
def F32.isFinite (w : Word) : Bool := F32.mag w < F32.infMag

/-- An infinity. -/
def F32.isInf (w : Word) : Bool := F32.mag w == F32.infMag

/-- A NaN. -/
def F32.isNaN (w : Word) : Bool := F32.infMag < F32.mag w

/-- The magnitude, in units of 2^-149, that magnitude bits stand for: `f` when the exponent field is zero, else
`(2^23 + f) * 2^(e - 1)`. -/
def F32.unitsOf (m : Nat) : Nat :=
  if m < 2 ^ 23 then m else (2 ^ 23 + m % 2 ^ 23) * 2 ^ (m / 2 ^ 23 - 1)

/-- The magnitude of a finite word in units of 2^-149. -/
def F32.units (w : Word) : Nat := F32.unitsOf (F32.mag w)

/-- The value of a finite word in units of 2^-149. -/
def F32.value (w : Word) : Int := if w.msb then -(F32.units w : Int) else F32.units w

/-- `num / den` to the nearest whole number, ties to the even one. -/
def F32.nearestEven (num den : Nat) : Nat :=
  if 2 * (num % den) < den then num / den
  else if den < 2 * (num % den) then num / den + 1
  else if num / den % 2 = 0 then num / den else num / den + 1

/-- The magnitude bits nearest to `num / den` units of 2^-149, ties to even; the infinity when that is past the
largest finite magnitude. `k` is the exponent of the spacing of the format there, in units. -/
def F32.roundUnits (num den : Nat) : Nat :=
  let k := Nat.log2 (num / den) - 23
  min (k * 2 ^ 23 + F32.nearestEven num (den * 2 ^ k)) F32.infMag

/-- A quiet NaN; its other bits are free (log entry 4). -/
def F32.nan (op : Nat) (a b : Word) : Word :=
  (Config.nanRest op a b).extractLsb' 22 1 ++ 0x1FF#9 ++ (Config.nanRest op a b).extractLsb' 0 22

/-- Negation: the sign bit (R11, exact). -/
def F32.neg (a : Word) : Word := a ^^^ 0x80000000#32

/-- Absolute value: the sign bit cleared (R11, exact). -/
def F32.abs (a : Word) : Word := a &&& 0x7FFFFFFF#32

/-- A whole number of units of 2^-149, rounded. -/
def F32.ofValue (v : Int) : Word := F32.pack (v < 0) (F32.roundUnits v.natAbs 1)

/-- Addition (R11). An exact zero sum is +0 unless both operands are negative. -/
def F32.add (a b : Word) : Word :=
  if F32.isNaN a || F32.isNaN b then F32.nan 0 a b
  else if F32.isInf a then (if F32.isInf b && a.msb != b.msb then F32.nan 0 a b else a)
  else if F32.isInf b then b
  else if F32.value a + F32.value b = 0 then F32.pack (a.msb && b.msb) 0
  else F32.ofValue (F32.value a + F32.value b)

/-- Subtraction (R11). -/
def F32.sub (a b : Word) : Word :=
  if F32.isNaN a || F32.isNaN b then F32.nan 1 a b
  else if F32.isInf a then (if F32.isInf b && a.msb == b.msb then F32.nan 1 a b else a)
  else if F32.isInf b then F32.neg b
  else if F32.value a - F32.value b = 0 then F32.pack (a.msb && !b.msb) 0
  else F32.ofValue (F32.value a - F32.value b)

/-- Multiplication (R11). -/
def F32.mul (a b : Word) : Word :=
  if F32.isNaN a || F32.isNaN b then F32.nan 2 a b
  else if F32.isInf a || F32.isInf b then
    (if F32.mag a = 0 || F32.mag b = 0 then F32.nan 2 a b else F32.pack (a.msb != b.msb) F32.infMag)
  else F32.pack (a.msb != b.msb) (F32.roundUnits (F32.units a * F32.units b) F32.one)

/-- Division (R11). -/
def F32.div (a b : Word) : Word :=
  if F32.isNaN a || F32.isNaN b then F32.nan 3 a b
  else if F32.isInf a then (if F32.isInf b then F32.nan 3 a b else F32.pack (a.msb != b.msb) F32.infMag)
  else if F32.isInf b then F32.pack (a.msb != b.msb) 0
  else if F32.mag b = 0 then (if F32.mag a = 0 then F32.nan 3 a b else F32.pack (a.msb != b.msb) F32.infMag)
  else F32.pack (a.msb != b.msb) (F32.roundUnits (F32.units a * F32.one) (F32.units b))

/-- The order key of a word that is no NaN: both zeros are 0. -/
def F32.key (w : Word) : Int := if w.msb then -(F32.mag w : Int) else F32.mag w

/-- `a < b`; a NaN compares false (R11). -/
def F32.lt (a b : Word) : Bool := !F32.isNaN a && !F32.isNaN b && decide (F32.key a < F32.key b)

/-- `a <= b`; a NaN compares false (R11). -/
def F32.le (a b : Word) : Bool := !F32.isNaN a && !F32.isNaN b && decide (F32.key a ≤ F32.key b)

/-- `a == b` of the numbers held; a NaN compares false (R11). -/
def F32.eq (a b : Word) : Bool := !F32.isNaN a && !F32.isNaN b && decide (F32.key a = F32.key b)

/-- The greatest integer not above a finite word (R11). -/
def F32.floor (w : Word) : Int := F32.value w / (F32.one : Int)

/-- `num(k)`: the word of an integer (R11). DESIGN CHOICE: an integer that binary32 does not hold, for which R11 states no
rounding, goes to the nearest word, ties to even (log entry 24). -/
def F32.ofInt (k : Int) : Word := F32.pack (k < 0) (F32.roundUnits (k.natAbs * F32.one) 1)

/-- `lit`: the nearest word to the decimal `m / 10^d` (R11). -/
def F32.lit (m d : Nat) : Word := F32.pack false (F32.roundUnits (m * F32.one) (10 ^ d))

/-- `PI` is 0x40490FDB (R11). -/
def F32.pi : Word := 0x40490FDB#32

/-- Whether a word is finite and lies in -1 to 1. -/
def F32.inUnit (w : Word) : Bool := F32.mag w ≤ 0x3F800000

/-- `sin`: a free function with exactly the properties of entry U3: `sin(+0) = +0`, and for a finite operand a
finite result in -1 to 1 (log entry 3). -/
def F32.sin (a : Word) : Word :=
  if a = 0#32 then 0#32
  else if F32.isFinite a && !F32.inUnit (Config.sinRaw a) then 0#32
  else Config.sinRaw a

end Sys2Proof.Machine
end

