-- ==== Sys2Proof/Machine/NumFmt.lean ====
section
/-! DEFINITION. The default instance `NUM_F32` of the parameter record `NUM` (00_scope.md R11), and the format of a
configuration. The arithmetic of the sub-blocks is written over any such record; the machine runs it at the format its
configuration names. -/

namespace Sys2Proof.Machine

/-- `MIDI_FREQ[0]` to `MIDI_FREQ[11]` under `NUM_F32` (R222). -/
def midiOctave : List Nat :=
  [0x4102D013, 0x410A9760, 0x4112D517, 0x411B9041, 0x4124D054, 0x412E9D37, 0x4138FF49, 0x4143FF6A, 0x414FA700,
    0x415C0000, 0x416914F6, 0x4176F110]

/-- `MIDI_FREQ[note]` under `NUM_F32` (R222): an octave up is exactly twice, which adds one to the exponent field. -/
def midiFreq (note : BitVec 7) : Word :=
  BitVec.ofNat 32 (midiOctave.getD (note.toNat % 12) 0 + note.toNat / 12 * 2 ^ 23)

end Sys2Proof.Machine

namespace Sys2Proof

/-- The bit pattern `NUM_F32` reads; a representation of another format is no number of this one, so a NaN. -/
def NumWord.bits : NumWord → Word
  | .f32 w => w
  | .code _ => 0x7FC00000#32

end Sys2Proof

namespace Sys2Proof.Machine

/-- `NUM_F32` (R11). -/
def numF32 : NumFmt NumWord :=
  { ofInt := fun k => .f32 (F32.ofInt k), lit := fun m d => .f32 (F32.lit m d)
    add := fun a b => .f32 (F32.add a.bits b.bits), sub := fun a b => .f32 (F32.sub a.bits b.bits)
    mul := fun a b => .f32 (F32.mul a.bits b.bits), div := fun a b => .f32 (F32.div a.bits b.bits)
    neg := fun a => .f32 (F32.neg a.bits), abs := fun a => .f32 (F32.abs a.bits)
    lt := fun a b => F32.lt a.bits b.bits, le := fun a b => F32.le a.bits b.bits
    gt := fun a b => F32.lt b.bits a.bits, ge := fun a b => F32.le b.bits a.bits
    eq := fun a b => F32.eq a.bits b.bits, floor := fun a => F32.floor a.bits
    sin := fun a => .f32 (F32.sin a.bits), pi := .f32 F32.pi
    decode := fun w => some (.f32 w), encode := fun a => some a.bits, isFinite := fun a => F32.isFinite a.bits
    midi := fun note => .f32 (midiFreq note) }

end Sys2Proof.Machine

namespace Sys2Proof

open Machine in
/-- The format of a configuration (R8): every operation of the machine takes its arithmetic from here. -/
def Params.fmt (p : Params) : NumFmt NumWord :=
  match p.num with
  | .f32 => numF32
  | .other n => (Config.otherNum n).ops

end Sys2Proof

namespace Sys2Proof.Machine

/-- `numword(w)`, the number a 32-bit operand word of a command carries (R11, R99); a free value where the format leaves
that undefined (log entry 1). Under `NUM_F32` it is the word's own bit pattern. DESIGN CHOICE: a number operand of an
internal operation's request is presented as such a word as well, the spec giving it no form (log entry 2). -/
def numword (p : Params) (w : Word) : NumWord :=
  match p.fmt.decode w with
  | some x => x
  | none => Config.undecoded p.num w

/-- `clamp(x, lo, hi)` on `num` (R10). -/
def clampNum {α : Type} (F : NumFmt α) (x lo hi : α) : α := if F.lt x lo then lo else if F.gt x hi then hi else x

end Sys2Proof.Machine
end

