-- ==== Sys2Proof/Machine/State.lean ====
section
/-! DEFINITION. The state of the block (10_state.md R20 to R36), its faults and refusals, and the state after reset
(R40). Plain data throughout. -/

namespace Sys2Proof.Machine

/-- The two command ports (20_memory.md R70). -/
inductive Port where
  | rt
  | ctl
  deriving DecidableEq, Repr

/-- What the host does at the block's inputs between two commands: presents a word at a port, or asserts the reset
input (70_reset_and_hazards.md R330, R331). -/
inductive HostEvent where
  | word (port : Port) (w : Word)
  | reset
  deriving DecidableEq, Repr

/-- The envelope's stage (R27: 0 idle, 1 attack, 2 decay, 3 sustain, 4 release; 5 to 7 are never written). -/
inductive Stage where
  | idle
  | attack
  | decay
  | sustain
  | release
  deriving DecidableEq, Repr

/-- An oscillator's registers `PHASE` and `INC` (R25), over any number format. -/
structure OscOf (α : Type) where
  phase : α
  inc : α
  deriving DecidableEq, Repr, Inhabited

/-- The registers of an oscillator of the machine. -/
abbrev Osc := OscOf NumWord

/-- A sub-oscillator slot (R26). -/
structure Slot where
  live : Bool
  osc : Osc
  deriving DecidableEq, Repr, Inhabited

/-- An envelope's registers `STAGE`, `LEVEL`, `REL_DEC` (R27), over any number format. -/
structure EnvOf (α : Type) where
  stage : Stage
  level : α
  relDec : α
  deriving DecidableEq, Repr

/-- The registers of an envelope of the machine. -/
abbrev Env := EnvOf NumWord

/-- One voice's register group (R24 to R27); `subs` holds the slots `SUB[0]` to `SUB[7]` in order. -/
structure Voice where
  busy : Bool
  note : BitVec 7
  gain : NumWord
  kind : Kind
  main : Osc
  subs : List Slot
  env : Env
  deriving DecidableEq, Repr

/-- The control registers (R30); the bit `PREPARED` of that table is a field of State. -/
structure Ctrl where
  wave : Kind
  harm : BitVec 5
  sub : BitVec 4
  a : NumWord
  d : NumWord
  s : NumWord
  r : NumWord
  fs : NumWord
  maxblk : BitVec 16
  deriving DecidableEq, Repr

/-- The attribute registers of one table (R32). -/
structure TblAttr where
  h : BitVec 5
  fs : NumWord
  deriving DecidableEq, Repr

/-- One value for each waveform kind. -/
structure PerKind (α : Type) where
  sine : α
  saw : α
  square : α
  triangle : α
  deriving DecidableEq, Repr

/-- A memory of number words: (address, word) cells, addresses strictly rising (`Mem.wf`). A word that is not listed
has no value of its own (log entry 7). -/
abbrev Mem := List (Nat × NumWord)

/-- The random source (R15, R36 (b), `rnd_data` of R330): the values the environment has offered and not yet had
taken, oldest first, and how many draws have been taken. -/
structure Rnd where
  offered : List NumWord
  taken : Nat
  deriving DecidableEq, Repr

/-- The state of the block. -/
structure State where
  /-- The parameters of R8; no step writes them. -/
  par : Params
  /-- `CFG` (R30). -/
  cfg : Ctrl
  /-- `PREPARED` (R30). -/
  prepared : Bool
  /-- `ATK_INC` (R31). -/
  atkInc : NumWord
  /-- `DEC_DEC` (R31). -/
  decDec : NumWord
  /-- `TBL_ATTR` (R32). -/
  tblAttr : PerKind TblAttr
  /-- `V[0..P-1]` (R22), in order. -/
  voices : List Voice
  /-- `TBL` (R33): the table of kind `k` holds index `i` at address `i`. -/
  tbl : PerKind Mem
  /-- `BUF` (R34): channel `c`, frame `a` at address `c * BUFLEN + a`. -/
  buf : Mem
  /-- The words waiting at `RT` (R36 (c), R70), the operand words of an unfinished command among them. -/
  rt : List Word
  /-- The words waiting at `CTL`. -/
  ctl : List Word
  /-- What the host will do at the inputs, one group for each command slot to come: the arrival order of the two
  ports' words (R72), as plain data. -/
  arrivals : List (List HostEvent)
  /-- The random source. -/
  rnd : Rnd
  /-- The model's own: internal operation requests waiting (R106; log entry 2). -/
  uops : List UopRequest
  /-- The model's own: the value the last value-returning internal operation handed to its caller (log entry 2). -/
  ret : NumWord
  /-- The model's own: how often the unspecified contents were made anew, by a release or a reset (log entries 7, 8). -/
  era : Nat
  /-- The model's own: how many command slots have passed (log entries 9, 11). -/
  slots : Nat
  deriving DecidableEq, Repr

/-- The command a `CV2` records (R302). -/
inductive UnpreparedCmd where
  | noteOn
  | render
  deriving DecidableEq, Repr

/-- Why the machine stops. `CV1` to `CV6` are the contract violations of 60_exceptions.md R302, with the information
R302 says is recorded; the run ends there and the record is kept (R14). -/
inductive Fault where
  /-- `CV1` RESERVED_ENCODING: raised by the decoder on a reserved encoding (R101), with the offending word and the
  port. Safe: the spec gives nothing after it. -/
  | reservedEncoding (w : Word) (port : Port)
  /-- `CV2` NOT_PREPARED: raised by NOTE_ON and RENDER while `PREPARED = 0`. Safe, as CV1. -/
  | notPrepared (cmd : UnpreparedCmd)
  /-- `CV3` BAD_PREPARE: raised by PREPARE on an illegal rate or block size, with both operands. Safe, as CV1. -/
  | badPrepare (fs : NumWord) (mb : BitVec 16)
  /-- `CV4` RENDER_RANGE: raised by RENDER, with `start` and `num`. Safe, as CV1. -/
  | renderRange (start num : BitVec 16)
  /-- `CV5` PHASE_RANGE: raised by `tbl_interp`, with the kind and the phase. Safe, as CV1. -/
  | phaseRange (k : Kind) (phase : NumWord)
  /-- `CV6` NUM_INVALID: raised by PREPARE, SET_ADSR, NOTE_ON, NOTE_OFF and `build`, with the values. Safe, as CV1. -/
  | numInvalid (values : List NumWord)
  /-- An internal operation was asked to act on a voice `v >= P`, which does not exist (R12, R22). No command does
  so. Safe. -/
  | noSuchVoice (v : Nat)
  /-- An internal operation was asked to act on a frame `a >= BUFLEN`, which does not exist (R13, R64). No command
  does so. Safe. -/
  | noSuchFrame (a : Nat)
  deriving DecidableEq, Repr

/-- Why the model gives no meaning. -/
inductive Refusal where
  /-- Raised by exec's arm of an instruction that has no meaning yet. Safe. -/
  | notModelled (mnemonic : String)
  /-- Raised by step on a configuration outside the ranges of R8, which entry U17 says a model refuses. Safe. -/
  | illegalParameters
  /-- Raised by step on a request that names no internal operation of R106. Safe. -/
  | noSuchOperation (e : UopError)
  deriving DecidableEq, Repr

/-- What one step answers. -/
abbrev StepOutcome := Host.Outcome State Fault Refusal

/-- An oscillator after reset: R40 leaves both registers unspecified; zero is the model's (log entry 10). -/
def Osc.atReset (F : NumFmt NumWord) : Osc := { phase := F.ofInt 0, inc := F.ofInt 0 }

/-- A slot after reset (R40: `LIVE = 0`). -/
def Slot.atReset (F : NumFmt NumWord) : Slot := { live := false, osc := Osc.atReset F }

/-- An envelope after reset (R40: idle at level 0; `REL_DEC` unspecified, log entry 10). -/
def Env.atReset (F : NumFmt NumWord) : Env := { stage := .idle, level := F.ofInt 0, relDec := F.ofInt 0 }

/-- A voice after reset (R40: not busy; the registers R40 leaves unspecified are zero, log entry 10). -/
def Voice.atReset (F : NumFmt NumWord) : Voice :=
  { busy := false, note := 0#7, gain := F.ofInt 0, kind := .sine, main := Osc.atReset F
    subs := List.replicate 8 (Slot.atReset F), env := Env.atReset F }

/-- The control registers after reset (R40): 0.01, 0.1, 0.8 and 0.3 in the configuration's format; `FS` and `MAXBLK`
are unspecified there (log entry 10). -/
def Ctrl.atReset (F : NumFmt NumWord) : Ctrl :=
  { wave := .sine, harm := 1#5, sub := 0#4
    a := F.lit 1 2, d := F.lit 1 1, s := F.lit 8 1, r := F.lit 3 1
    fs := F.ofInt 0, maxblk := 0#16 }

/-- The same value for every kind. -/
def PerKind.all {α : Type} (x : α) : PerKind α := ⟨x, x, x, x⟩

/-- The block of a given configuration right after reset (R40, R331). -/
def State.resetWith (p : Params) : State :=
  { par := p, cfg := Ctrl.atReset p.fmt, prepared := false, atkInc := p.fmt.ofInt 0, decDec := p.fmt.ofInt 0
    tblAttr := PerKind.all { h := 0#5, fs := p.fmt.ofInt 0 }
    voices := List.replicate p.poolSize (Voice.atReset p.fmt)
    tbl := PerKind.all [], buf := [], rt := [], ctl := [], arrivals := []
    rnd := { offered := [], taken := 0 }, uops := [], ret := p.fmt.ofInt 0, era := 0, slots := 0 }

/-- The machine right after reset, at the default parameters of R8. -/
def State.reset : State := State.resetWith Params.default

end Sys2Proof.Machine
end

