-- ==== Sys2Proof/Machine/Flags.lean ====
section
/-! DEFINITION. The block's one-bit state and status outputs (10_state.md R29, R35, R195). There are no arithmetic
flags and no condition codes (R29). -/

namespace Sys2Proof.Machine

/-- `env_active`: `STAGE != 0` (43_envelope_generator.md R195). -/
def envActive {α : Type} (e : EnvOf α) : Bool := e.stage != .idle

/-- The output `core_busy` (R35): words or requests are waiting, so a command is being received or is to be executed
(log entry 17). -/
def coreBusy (s : State) : Bool := !(s.rt.isEmpty && s.ctl.isEmpty && s.uops.isEmpty)

/-- The bit `BUSY` of a voice; a voice that does not exist drives nothing. -/
def busyBit (s : State) (v : Nat) : Bool :=
  match s.voices[v]? with
  | none => false
  | some x => x.busy

/-- The output `prepared` (R35); any value while `core_busy = 1` (entry U14). -/
def preparedOut (s : State) : Bool := if coreBusy s then Config.busyPrepared s.slots else s.prepared

/-- The output `voice_busy[v]` (R35); any value while `core_busy = 1` (entry U14). -/
def voiceBusyOut (s : State) (v : Nat) : Bool := if coreBusy s then Config.busyVoice s.slots v else busyBit s v

end Sys2Proof.Machine
end

