-- ==== Sys2Proof/Machine/Operands.lean ====
section
/-! DEFINITION. Operands: the integer forms of 30_encoding.md R107, the clamps of 46_engine_commands.md R279, the
constants of 00_scope.md R8 and the parameter ranges of R8. -/

namespace Sys2Proof.Machine

/-- `clamp(x, lo, hi)` on `int` (R10). -/
def clampInt (x lo hi : Int) : Int := if x < lo then lo else if hi < x then hi else x

/-- `sext_16` (R10). -/
def sext16 (w : BitVec 16) : Int := w.toInt

/-- `zext_16` (R10). -/
def zext16 (w : BitVec 16) : Nat := w.toNat

/-- `SET_HARM`'s clamp: 1 to 16 (R273). -/
def clampHarm (n : BitVec 16) : BitVec 5 := BitVec.ofInt 5 (clampInt (sext16 n) 1 16)

/-- `SET_SUB`'s clamp: 0 to 8 (R274). -/
def clampSub (n : BitVec 16) : BitVec 4 := BitVec.ofInt 4 (clampInt (sext16 n) 0 8)

/-- `voice_note_on`'s own clamp of the subharmonic count: 0 to 8 (R223). -/
def slotCount (sc : Int) : Nat := (clampInt sc 0 8).toNat

/-- Attack and decay: 0.001 to 2.0 (R275). -/
def clampTime {α : Type} (F : NumFmt α) (x : α) : α := clampNum F x (F.lit 1 3) (F.lit 2 0)

/-- Release: 0.001 to 5.0 (R275). -/
def clampRelease {α : Type} (F : NumFmt α) (x : α) : α := clampNum F x (F.lit 1 3) (F.lit 5 0)

/-- Sustain and velocity: 0.0 to 1.0 (R275, R276). -/
def clampUnit {α : Type} (F : NumFmt α) (x : α) : α := clampNum F x (F.lit 0 0) (F.lit 1 0)

/-- The number of a kind (R8). -/
def kindNum : Kind → Nat
  | .sine => 0
  | .saw => 1
  | .square => 2
  | .triangle => 3

/-- The parameter ranges of R8; entry U17: a model refuses a configuration outside them. `F_BUILD` is greater than 0 and
nothing more is asked of it: an infinite one is legal, and `build` then raises `CV6`. DEDUCED: a NaN is not greater than
0 and is refused (log entry 15). -/
def paramsLegal (p : Params) : Bool :=
  0 < p.tableSize && 0 < p.poolSize && 0 < p.channels && 0 < p.bufLen && p.bufLen ≤ 65536
    && p.fmt.gt p.fBuild (p.fmt.ofInt 0)

end Sys2Proof.Machine
end

