-- ==== Sys2Proof/Machine/Ops.lean ====
section
/-! DEFINITION. The shared operations over the two memories, the voices and the random source (00_scope.md R12 to R15),
and raising a contract violation (R14). The block has no exception, so there is no entry to take and no return
(60_exceptions.md R300, R305, R306). -/

namespace Sys2Proof.Machine

/-- What an operation answers: a value, or the fault at which the run stops (R14). -/
abbrev Res (α : Type) := Except Fault α

/-- `raise CV<n>(info)` (R14, R302): the one way an operation stops. -/
def raise {α : Type} (f : Fault) : Res α := .error f

/-- The step outcome of an operation that answers a state; a fault keeps nothing of the state (R305). -/
def finish (r : Res State) : StepOutcome :=
  match r with
  | .ok s => .next s
  | .error f => .fault f

/-! ### Per-kind storage -/

/-- The value kept for a kind. -/
def PerKind.get {α : Type} (p : PerKind α) : Kind → α
  | .sine => p.sine
  | .saw => p.saw
  | .square => p.square
  | .triangle => p.triangle

/-- Replaces the value kept for a kind. -/
def PerKind.set {α : Type} (p : PerKind α) (k : Kind) (x : α) : PerKind α :=
  match k with
  | .sine => { p with sine := x }
  | .saw => { p with saw := x }
  | .square => { p with square := x }
  | .triangle => { p with triangle := x }

/-! ### Number-word memories -/

/-- Every address of a memory is above `lo`, and addresses rise strictly. -/
def Mem.above (lo : Nat) : Mem → Bool
  | [] => true
  | c :: rest => decide (lo < c.1) && Mem.above c.1 rest

/-- The canonical form: addresses strictly rising. No value is what an unlisted address holds, so no cell can repeat
it (log entry 7). -/
def Mem.wf : Mem → Bool
  | [] => true
  | c :: rest => Mem.above c.1 rest

/-- The word listed at an address, if any. -/
def Mem.get? (m : Mem) (a : Nat) : Option NumWord :=
  match m with
  | [] => none
  | c :: rest => if c.1 = a then some c.2 else Mem.get? rest a

/-- Writes the word at an address, keeping the canonical form. -/
def Mem.put (m : Mem) (a : Nat) (x : NumWord) : Mem :=
  match m with
  | [] => [(a, x)]
  | c :: rest =>
    if a < c.1 then (a, x) :: c :: rest
    else if a = c.1 then (a, x) :: rest
    else c :: Mem.put rest a x

/-- A whole memory from its words, the first at address `a`. -/
def Mem.fromWords (a : Nat) : List NumWord → Mem
  | [] => []
  | x :: rest => (a, x) :: Mem.fromWords (a + 1) rest

/-- `TblRead(k, i)` (R13): a word nothing has written reads as any value (log entry 7). -/
def tblRead (s : State) (k : Kind) (i : Nat) : NumWord :=
  match (s.tbl.get k).get? i with
  | some x => x
  | none => Config.unwrittenTbl s.era (kindNum k) i

/-- `TblWrite(k, i, v)` for every `i` at once: the whole-table replacement of 20_memory.md R62. -/
def tblReplace (s : State) (k : Kind) (words : List NumWord) : State :=
  { s with tbl := s.tbl.set k (Mem.fromWords 0 words) }

/-- The address of channel `c`, frame `a` (20_memory.md R64). -/
def bufAddr (p : Params) (c a : Nat) : Nat := c * p.bufLen + a

/-- `BufRead(c, a)` of a buffer `b` (R13): a word nothing has written reads as any value (entry U9). -/
def bufRead (s : State) (b : Mem) (c a : Nat) : NumWord :=
  match b.get? (bufAddr s.par c a) with
  | some x => x
  | none => Config.unwrittenBuf s.era c a

/-- `BufWrite(c, a, v)` (R13). -/
def bufWrite (p : Params) (b : Mem) (c a : Nat) (x : NumWord) : Mem := b.put (bufAddr p c a) x

/-- What the host's read port carries at channel `c`, frame `a` (20_memory.md R66; 70_reset_and_hazards.md R330): any
value while `core_busy = 1` (entry U8). DESIGN CHOICE: any value too for a channel or a frame that does not exist, which
the port's address can name when `NCH` or `BUFLEN` is no power of two and of which the spec says nothing (log
entry 23). -/
def hostRead (s : State) (c a : Nat) : NumWord :=
  if coreBusy s then Config.busyBufRead s.slots c a
  else if c < s.par.channels ∧ a < s.par.bufLen then bufRead s s.buf c a
  else Config.outsideBufRead s.slots c a

/-! ### Voices -/

/-- The registers of voice `v` (R12); a voice that does not exist is a fault. -/
def getVoice (s : State) (v : Nat) : Res Voice :=
  match s.voices[v]? with
  | some x => .ok x
  | none => raise (.noSuchVoice v)

/-- Replaces the registers of voice `v`. -/
def setVoice (s : State) (v : Nat) (x : Voice) : State := { s with voices := s.voices.set v x }

/-- Applies a register update to voice `v`. -/
def onVoice (s : State) (v : Nat) (f : Voice → Voice) : Res State :=
  match getVoice s v with
  | .ok x => .ok (setVoice s v (f x))
  | .error e => .error e

/-- The oscillator a voice's selector names (R25, R26). -/
def Voice.osc (x : Voice) : OscSel → Osc
  | .main => x.main
  | .sub i => (x.subs.getD i.toNat default).osc

/-- Replaces the oscillator a selector names; a slot's `LIVE` bit is kept. -/
def Voice.withOsc (x : Voice) (sel : OscSel) (o : Osc) : Voice :=
  match sel with
  | .main => { x with main := o }
  | .sub i => { x with subs := x.subs.modify i.toNat fun sl => { sl with osc := o } }

/-- Clears the `LIVE` bit of every slot. -/
def clearLive (subs : List Slot) : List Slot := subs.map fun sl => { sl with live := false }

/-- The first voice in ascending index that satisfies a test (R276, R277). -/
def firstVoice (test : Voice → Bool) : List Voice → Option Nat
  | [] => none
  | x :: rest => if test x then some 0 else (firstVoice test rest).map (· + 1)

/-! ### Random draws -/

/-- A draw lies in `0 <= r < num(N)` (R15). -/
def drawLegal {α : Type} (F : NumFmt α) (n : Nat) (r : α) : Bool := F.le (F.ofInt 0) r && F.lt r (F.ofInt n)

/-- The n-th draw when the environment has offered none: a free value of the legal range (log entry 6). -/
def freeDraw (F : NumFmt NumWord) (tableSize taken : Nat) : NumWord :=
  if drawLegal F tableSize (Config.drawRaw taken) then Config.drawRaw taken else F.ofInt 0

/-- `draw_phase()` (R15): the next value on `rnd_data`, which is taken as it stands (entry U16). -/
def Rnd.draw (F : NumFmt NumWord) (tableSize : Nat) (r : Rnd) : NumWord × Rnd :=
  match r.offered with
  | x :: rest => (x, { offered := rest, taken := r.taken + 1 })
  | [] => (freeDraw F tableSize r.taken, { offered := [], taken := r.taken + 1 })

/-! ### The value an internal operation hands back -/

/-- Records what a value-returning internal operation answers (log entry 2). -/
def State.answer (s : State) (x : NumWord) : State := { s with ret := x }

/-! ### Reset -/

/-- The reset input asserted (70_reset_and_hazards.md R331, R332): the state of R40 again. The parameters, the hidden
random source, the host's future and the count of slots are no state of the block that reset writes; the contents R40
calls unspecified are made anew (log entries 10, 18). -/
def applyReset (s : State) : State :=
  { State.resetWith s.par with
    rnd := s.rnd, arrivals := s.arrivals, slots := s.slots, era := s.era + 1 }

end Sys2Proof.Machine
end

