-- ==== Sys2Proof/Machine/Builder.lean ====
section
/-! DEFINITION. `wavetable_builder` (40_wavetable_builder.md R130 to R141): the harmonic adder, the band-limiter, the
normalizer and the guard, over any number format, and the operations `build` and `rebuild_all`. -/

namespace Sys2Proof.Machine

/-- A value that R131 requires to be finite; what is not is reported (`CV6`). DESIGN CHOICE, since R131 does not list its
intermediate values: they are the results of the arithmetic operators and of `sin`; a conversion `num(k)`, a literal, a
negation and `PI` are not checked on their own, only what is computed from them (log entry 19). -/
def finiteOr {α : Type} (F : NumFmt α) (x : α) : Except α α := if F.isFinite x then .ok x else .error x

/-- The harmonic number `h` of ordinal `n` (R132 to R135). -/
def harmonicNumber (k : Kind) (n : Nat) : Nat :=
  match k with
  | .sine | .saw => n
  | .square | .triangle => 2 * n - 1

/-- The phase multiplier `m` (R132 to R135): the saw's is `h * (1 + 0.05 * h)`. The conversion `num(h)`, which is `m` itself
for the other kinds, and the literal are not checked (log entry 19). -/
def phaseMultiplier {α : Type} (F : NumFmt α) (k : Kind) (h : Nat) : Except α α :=
  match k with
  | .saw => do
    let t ← finiteOr F (F.mul (F.lit 5 2) (F.ofInt h))
    let t ← finiteOr F (F.add (F.ofInt 1) t)
    finiteOr F (F.mul (F.ofInt h) t)
  | .sine | .square | .triangle => .ok (F.ofInt h)

/-- The amplitude of ordinal `n`, harmonic `h` (R132 to R135). -/
def amplitude {α : Type} (F : NumFmt α) (k : Kind) (n h : Nat) : Except α α :=
  match k with
  | .sine | .saw => finiteOr F (F.div (F.ofInt 1) (F.ofInt h))
  | .square => do
    let c ← finiteOr F (F.div (F.ofInt 4) F.pi)
    let t ← finiteOr F (F.div (F.ofInt 1) (F.ofInt h))
    finiteOr F (F.mul c t)
  | .triangle => do
    let p ← finiteOr F (F.mul F.pi F.pi)
    let c ← finiteOr F (F.div (F.ofInt 8) p)
    let q ← finiteOr F (F.mul (F.ofInt h) (F.ofInt h))
    let t ← finiteOr F (F.div (if n % 2 = 1 then F.ofInt 1 else F.neg (F.ofInt 1)) q)
    finiteOr F (F.mul c t)

/-- `theta = ((2 * PI) * i) / N` (R131). The conversions `num(i)` and `num(N)` and `PI` are not checked (log entry 19). -/
def theta {α : Type} (F : NumFmt α) (tableSize i : Nat) : Except α α := do
  let t ← finiteOr F (F.mul (F.ofInt 2) F.pi)
  let t ← finiteOr F (F.mul t (F.ofInt i))
  finiteOr F (F.div t (F.ofInt tableSize))

/-- One partial at one index: `amp * sin(m * theta)` (R131). -/
def partialAt {α : Type} (F : NumFmt α) (tableSize : Nat) (m amp : α) (i : Nat) : Except α α := do
  let t ← theta F tableSize i
  let t ← finiteOr F (F.mul m t)
  let t ← finiteOr F (F.sin t)
  finiteOr F (F.mul amp t)

/-- Adds one partial into the accumulator, whose head stands at index `i` (R131). -/
def addPartial {α : Type} (F : NumFmt α) (tableSize : Nat) (m amp : α) : Nat → List α → Except α (List α)
  | _, [] => .ok []
  | i, x :: rest => do
    let t ← partialAt F tableSize m amp i
    let y ← finiteOr F (F.add x t)
    let rest ← addPartial F tableSize m amp (i + 1) rest
    .ok (y :: rest)

/-- The sum over the ordinals `n, n + 1, ...`, at most `count` of them, ended by the first harmonic at or above
Nyquist (R131, R136). -/
def addHarmonics {α : Type} (F : NumFmt α) (tableSize : Nat) (k : Kind) (f0 nyq : α) :
    Nat → Nat → List α → Except α (List α)
  | 0, _, acc => .ok acc
  | count + 1, n, acc => do
    let f ← finiteOr F (F.mul f0 (F.ofInt (harmonicNumber k n)))
    if F.ge f nyq then .ok acc
    else do
      let m ← phaseMultiplier F k (harmonicNumber k n)
      let amp ← amplitude F k n (harmonicNumber k n)
      let acc ← addPartial F tableSize m amp 0 acc
      addHarmonics F tableSize k f0 nyq count (n + 1) acc

/-- The largest absolute value (R137), starting from `peak`. -/
def peakFrom {α : Type} (F : NumFmt α) (peak : α) : List α → α
  | [] => peak
  | x :: rest => peakFrom F (if F.gt (F.abs x) peak then F.abs x else peak) rest

/-- Divides every word by the peak (R137). -/
def divideBy {α : Type} (F : NumFmt α) (peak : α) : List α → Except α (List α)
  | [] => .ok []
  | x :: rest => do
    let y ← finiteOr F (F.div x peak)
    let rest ← divideBy F peak rest
    .ok (y :: rest)

/-- The normalizer (R137): nothing is divided when every word is zero. -/
def normalize {α : Type} (F : NumFmt α) (acc : List α) : Except α (List α) :=
  if F.gt (peakFrom F (F.ofInt 0) acc) (F.ofInt 0) then divideBy F (peakFrom F (F.ofInt 0) acc) acc else .ok acc

/-- The guard: index `N` is a copy of index 0 (R138). -/
def withGuard {α : Type} (F : NumFmt α) (acc : List α) : List α := acc ++ [acc.headD (F.ofInt 0)]

/-- The words of the table `build(k, H, f0, fs)` writes, or the value that is not finite (R131). -/
def buildWords {α : Type} (F : NumFmt α) (tableSize : Nat) (k : Kind) (harm : Nat) (f0 fs : α) :
    Except α (List α) := do
  let nyq ← finiteOr F (F.div fs (F.ofInt 2))
  let acc ← addHarmonics F tableSize k f0 nyq harm 1 (List.replicate tableSize (F.ofInt 0))
  let acc ← normalize F acc
  .ok (withGuard F acc)

/-- `build(k, H, f0, fs)` (R131): the table and its attributes, in one step. -/
def buildTable (s : State) (k : Kind) (h : BitVec 5) (f0 fs : NumWord) : Res State :=
  match buildWords s.par.fmt s.par.tableSize k h.toNat f0 fs with
  | .error x => raise (.numInvalid [x])
  | .ok words => .ok { tblReplace s k words with tblAttr := s.tblAttr.set k { h := h, fs := fs } }

/-- `rebuild_all()` (R140): the four kinds in order. -/
def rebuildTables (s : State) : Res State := do
  let s ← buildTable s .sine s.cfg.harm s.par.fBuild s.cfg.fs
  let s ← buildTable s .saw s.cfg.harm s.par.fBuild s.cfg.fs
  let s ← buildTable s .square s.cfg.harm s.par.fBuild s.cfg.fs
  buildTable s .triangle s.cfg.harm s.par.fBuild s.cfg.fs

/-- The internal operation `build` (R131). A number operand is a word of the request, read by `numword` (log entry 2). -/
def execBuild (kind : Kind) (harm : BitVec 5) (f0 fs : Word) (s : State) : StepOutcome :=
  finish (buildTable s kind harm (numword s.par f0) (numword s.par fs))

/-- The internal operation `rebuild_all` (R140). -/
def execRebuildAll (s : State) : StepOutcome := finish (rebuildTables s)

end Sys2Proof.Machine
end

