-- ==== Sys2Proof/Machine/Envelope.lean ====
section
/-! DEFINITION. `envelope_generator` (43_envelope_generator.md R190 to R199): the ADSR ramp, over any number format. -/

namespace Sys2Proof.Machine

/-- The attack step of `env_rates` (R191). -/
def attackRate {α : Type} (F : NumFmt α) (a fs : α) : α := F.div (F.ofInt 1) (F.mul a fs)

/-- The step of a ramp that covers `x` in `t` samples: `x / t`. DEDUCED: a ramp that covers nothing has step 0, as the
corner cases of R191 (`CFG.S = 1`) and R193 (`LEVEL = 0`) state; it matters only where `t` rounds to 0 (log entry 22). -/
def rampStep {α : Type} (F : NumFmt α) (x t : α) : α := if F.eq x (F.ofInt 0) then x else F.div x t

/-- The decay step of `env_rates` (R191). -/
def decayRate {α : Type} (F : NumFmt α) (d s fs : α) : α := rampStep F (F.sub (F.ofInt 1) s) (F.mul d fs)

/-- `env_rates()` (R191). -/
def envRates (s : State) : State :=
  { s with
    atkInc := attackRate s.par.fmt s.cfg.a s.cfg.fs
    decDec := decayRate s.par.fmt s.cfg.d s.cfg.s s.cfg.fs }

/-- `env_trigger` (R192). -/
def envTrigger {α : Type} (F : NumFmt α) (e : EnvOf α) : EnvOf α := { e with level := F.ofInt 0, stage := .attack }

/-- `env_release` (R193): latches the release step; nothing in the idle and release stages. -/
def envRelease {α : Type} (F : NumFmt α) (r fs : α) (e : EnvOf α) : EnvOf α :=
  match e.stage with
  | .attack | .decay | .sustain => { e with relDec := rampStep F e.level (F.mul r fs), stage := .release }
  | .idle | .release => e

/-- `env_next` (R194): the envelope after one sample and the value returned. -/
def envNext {α : Type} (F : NumFmt α) (atkInc decDec sus : α) (e : EnvOf α) : EnvOf α × α :=
  match e.stage with
  | .idle => (e, F.ofInt 0)
  | .attack =>
    if F.ge (F.add e.level atkInc) (F.ofInt 1) then ({ e with level := F.ofInt 1, stage := .decay }, F.ofInt 1)
    else ({ e with level := F.add e.level atkInc }, F.add e.level atkInc)
  | .decay =>
    if F.le (F.sub e.level decDec) sus then ({ e with level := sus, stage := .sustain }, sus)
    else ({ e with level := F.sub e.level decDec }, F.sub e.level decDec)
  | .sustain => ({ e with level := sus }, sus)
  | .release =>
    if F.le (F.sub e.level e.relDec) (F.ofInt 0) then ({ e with level := F.ofInt 0, stage := .idle }, F.ofInt 0)
    else ({ e with level := F.sub e.level e.relDec }, F.sub e.level e.relDec)

/-- `env_reset` (R196). -/
def envReset {α : Type} (F : NumFmt α) (e : EnvOf α) : EnvOf α := { e with stage := .idle, level := F.ofInt 0 }

/-- `env_next` with the machine's shared rates and sustain level (R194). -/
def envStep (s : State) (e : Env) : Env × NumWord := envNext s.par.fmt s.atkInc s.decDec s.cfg.s e

/-- The internal operation `env_rates` (R191). -/
def execEnvRates (s : State) : StepOutcome := .next (envRates s)

/-- The internal operation `env_trigger` (R192). -/
def execEnvTrigger (v : Nat) (s : State) : StepOutcome :=
  finish (onVoice s v fun x => { x with env := envTrigger s.par.fmt x.env })

/-- The internal operation `env_release` (R193). -/
def execEnvRelease (v : Nat) (s : State) : StepOutcome :=
  finish (onVoice s v fun x => { x with env := envRelease s.par.fmt s.cfg.r s.cfg.fs x.env })

/-- The internal operation `env_next` (R194): its value goes to the caller. -/
def execEnvNext (v : Nat) (s : State) : StepOutcome :=
  finish do
    let x ← getVoice s v
    .ok ((setVoice s v { x with env := (envStep s x.env).1 }).answer (envStep s x.env).2)

/-- The internal operation `env_reset` (R196). -/
def execEnvReset (v : Nat) (s : State) : StepOutcome :=
  finish (onVoice s v fun x => { x with env := envReset s.par.fmt x.env })

end Sys2Proof.Machine
end

