-- ==== Sys2Proof/Machine/Mixer.lean ====
section
/-! DEFINITION. `voice_mixer` and `sample_buf` (45_voice_mixer_sample_buf.md R250, R251, R253 to R256). -/

namespace Sys2Proof.Machine

/-- Writes the same word at one frame of channels `c, c + 1, ...`, `count` of them. -/
def clearFrame (p : Params) (a : Nat) : Nat → Nat → Mem → Mem
  | 0, _, b => b
  | count + 1, c, b => clearFrame p a count (c + 1) (bufWrite p b c a (p.fmt.ofInt 0))

/-- Clears `count` frames from `a` on, every channel of each (R251); a frame past the buffer does not exist. -/
def clearFrames (p : Params) : Nat → Nat → Mem → Res Mem
  | 0, _, b => .ok b
  | count + 1, a, b =>
    if a < p.bufLen then clearFrames p count (a + 1) (clearFrame p a p.channels 0 b) else raise (.noSuchFrame a)

/-- `buf_clear(start, num)` (R251). -/
def bufClear (s : State) (start count : Nat) : Res State :=
  match clearFrames s.par count start s.buf with
  | .ok b => .ok { s with buf := b }
  | .error e => .error e

/-- Adds a sample into one frame of channels `c, c + 1, ...`, `count` of them (R253). -/
def addFrame (s : State) (a : Nat) (y : NumWord) : Nat → Nat → Mem → Mem
  | 0, _, b => b
  | count + 1, c, b => addFrame s a y count (c + 1) (bufWrite s.par b c a (s.par.fmt.add (bufRead s b c a) y))

/-- `mix_acc(a, y)` on a buffer (R253): no clipping, saturation or limiting. -/
def mixAcc (s : State) (b : Mem) (a : Nat) (y : NumWord) : Res Mem :=
  if a < s.par.bufLen then .ok (addFrame s a y s.par.channels 0 b) else raise (.noSuchFrame a)

/-- The internal operation `buf_clear` (R251). -/
def execBufClear (start num : BitVec 16) (s : State) : StepOutcome :=
  finish (bufClear s (zext16 start) (zext16 num))

/-- The internal operation `mix_acc` (R253). -/
def execMixAcc (a : Nat) (y : Word) (s : State) : StepOutcome :=
  finish do
    let b ← mixAcc s s.buf a (numword s.par y)
    .ok { s with buf := b }

end Sys2Proof.Machine
end

