-- ==== Sys2Proof/Machine/Reader.lean ====
section
/-! DEFINITION. `interpolating_table_reader` (42_table_reader.md R180 to R183): linear interpolation only. -/

namespace Sys2Proof.Machine

/-- `a + frac * (b - a)` (R181). -/
def lerp {α : Type} (F : NumFmt α) (a b frac : α) : α := F.add a (F.mul frac (F.sub b a))

/-- `tbl_interp(k, phase)` (R181): reads two words and writes nothing; a phase outside the table is `CV5`. A phase
that is no finite number has no floor and is outside the table, and one below zero has a floor below zero, in every format
(log entry 5). -/
def interpolate (s : State) (k : Kind) (phase : NumWord) : Res NumWord :=
  if !s.par.fmt.isFinite phase then raise (.phaseRange k phase)
  else if s.par.fmt.floor phase < 0 ∨ (s.par.tableSize : Int) - 1 < s.par.fmt.floor phase then raise (.phaseRange k phase)
  else
    .ok (lerp s.par.fmt (tblRead s k (s.par.fmt.floor phase).toNat) (tblRead s k ((s.par.fmt.floor phase).toNat + 1))
      (s.par.fmt.sub phase (s.par.fmt.ofInt (s.par.fmt.floor phase))))

/-- The internal operation `tbl_interp` (R181): its value goes to the caller. -/
def execTblInterp (kind : Kind) (phase : Word) (s : State) : StepOutcome :=
  finish do
    let y ← interpolate s kind (numword s.par phase)
    .ok (s.answer y)

end Sys2Proof.Machine
end

