-- ==== Sys2Proof/Machine/Phase.lean ====
section
/-! DEFINITION. `phase_accumulator` (41_phase_accumulator.md R160 to R168). -/

namespace Sys2Proof.Machine

/-- `osc_set_freq` (R161): `INC <- freq * (num(N) / fs)`. -/
def setFreq {α : Type} (F : NumFmt α) (tableSize : Nat) (o : OscOf α) (freq fs : α) : OscOf α :=
  { o with inc := F.mul freq (F.div (F.ofInt tableSize) fs) }

/-- `osc_advance` (R163): one addition, at most one subtraction. -/
def advance {α : Type} (F : NumFmt α) (tableSize : Nat) (o : OscOf α) : OscOf α :=
  if F.ge (F.add o.phase o.inc) (F.ofInt tableSize) then
    { o with phase := F.sub (F.add o.phase o.inc) (F.ofInt tableSize) }
  else { o with phase := F.add o.phase o.inc }

/-- `osc_stop` (R165). -/
def stopOsc {α : Type} (F : NumFmt α) (o : OscOf α) : OscOf α := { o with inc := F.ofInt 0 }

/-- `osc_reset` (R166). -/
def resetOsc {α : Type} (F : NumFmt α) (o : OscOf α) : OscOf α := { o with phase := F.ofInt 0 }

/-- `osc_next_sample` (R167): the value read at the phase held before the advance, and the oscillator after it. -/
def nextSample (s : State) (o : Osc) (k : Kind) : Res (NumWord × Osc) :=
  match interpolate s k o.phase with
  | .error f => .error f
  | .ok y => .ok (y, advance s.par.fmt s.par.tableSize o)

/-- The internal operation `osc_set_freq` (R161). A number operand is a word of the request, read by `numword`
(log entry 2). -/
def execOscSetFreq (v : Nat) (o : OscSel) (freq fs : Word) (s : State) : StepOutcome :=
  finish (onVoice s v fun x => x.withOsc o (setFreq s.par.fmt s.par.tableSize (x.osc o) (numword s.par freq) (numword s.par fs)))

/-- The internal operation `osc_set_random_phase` (R162): one draw. -/
def execOscSetRandomPhase (v : Nat) (o : OscSel) (s : State) : StepOutcome :=
  finish
    (onVoice { s with rnd := (s.rnd.draw s.par.fmt s.par.tableSize).2 } v fun x =>
      x.withOsc o { x.osc o with phase := (s.rnd.draw s.par.fmt s.par.tableSize).1 })

/-- The internal operation `osc_advance` (R163). -/
def execOscAdvance (v : Nat) (o : OscSel) (s : State) : StepOutcome :=
  finish (onVoice s v fun x => x.withOsc o (advance s.par.fmt s.par.tableSize (x.osc o)))

/-- The internal operation `osc_stop` (R165). -/
def execOscStop (v : Nat) (o : OscSel) (s : State) : StepOutcome :=
  finish (onVoice s v fun x => x.withOsc o (stopOsc s.par.fmt (x.osc o)))

/-- The internal operation `osc_reset` (R166). -/
def execOscReset (v : Nat) (o : OscSel) (s : State) : StepOutcome :=
  finish (onVoice s v fun x => x.withOsc o (resetOsc s.par.fmt (x.osc o)))

/-- The internal operation `osc_next_sample` (R167): its value goes to the caller. -/
def execOscNextSample (v : Nat) (o : OscSel) (kind : Kind) (s : State) : StepOutcome :=
  finish do
    let x ← getVoice s v
    let (y, o') ← nextSample s (x.osc o) kind
    .ok ((setVoice s v (x.withOsc o o')).answer y)

end Sys2Proof.Machine
end

