-- ==== Sys2Proof/Machine/Voice.lean ====
section
/-! DEFINITION. Voice control (44_voice.md R220 to R228). -/

namespace Sys2Proof.Machine

/-- The frequency of slot `i`: `f / num(i + 2)` (R223). -/
def slotFreq {α : Type} (F : NumFmt α) (f : α) (i : Nat) : α := F.div f (F.ofInt ((i : Int) + 2))

/-- The weight of slot `i`: `0.5 / num(i + 2)` (R225). -/
def slotWeight {α : Type} (F : NumFmt α) (i : Nat) : α := F.div (F.lit 5 1) (F.ofInt ((i : Int) + 2))

/-- Starts the slots from index `i` on (R223): a slot below the count whose frequency is below Nyquist goes live with
the next draw; every other slot is dead and draws nothing. -/
def startSlots (F : NumFmt NumWord) (tableSize count : Nat) (f fs : NumWord) : Nat → Rnd → List Slot → List Slot × Rnd
  | _, r, [] => ([], r)
  | i, r, sl :: rest =>
    if i < count ∧ F.lt (slotFreq F f i) (F.div fs (F.ofInt 2)) = true then
      ({ live := true
         osc := { setFreq F tableSize sl.osc (slotFreq F f i) fs with phase := (r.draw F tableSize).1 } }
        :: (startSlots F tableSize count f fs (i + 1) (r.draw F tableSize).2 rest).1,
        (startSlots F tableSize count f fs (i + 1) (r.draw F tableSize).2 rest).2)
    else
      ({ sl with live := false } :: (startSlots F tableSize count f fs (i + 1) r rest).1,
        (startSlots F tableSize count f fs (i + 1) r rest).2)

/-- The registers of a voice after `voice_note_on`, and the random source (R223): the main oscillator's draw first,
then the live slots' in ascending index. -/
def startVoice (s : State) (x : Voice) (note : BitVec 7) (vel : NumWord) (k : Kind) (sc : Int) : Voice × Rnd :=
  let main := s.rnd.draw s.par.fmt s.par.tableSize
  let slots := startSlots s.par.fmt s.par.tableSize (slotCount sc) (s.par.fmt.midi note) s.cfg.fs 0 main.2 x.subs
  ({ busy := true, note := note, gain := s.par.fmt.mul vel (s.par.fmt.lit 15 2), kind := k
     main := { setFreq s.par.fmt s.par.tableSize x.main (s.par.fmt.midi note) s.cfg.fs with phase := main.1 }
     subs := slots.1, env := envTrigger s.par.fmt x.env }, slots.2)

/-- `voice_note_on(v, note, vel, k, sc)` (R223). -/
def voiceNoteOn (s : State) (v : Nat) (note : BitVec 7) (vel : NumWord) (k : Kind) (sc : Int) : Res State :=
  match getVoice s v with
  | .error e => .error e
  | .ok x =>
    .ok { setVoice s v (startVoice s x note vel k sc).1 with rnd := (startVoice s x note vel k sc).2 }

/-- `voice_note_off(v, vel, t)` (R224): the velocity and the flag `t` are accepted and never acted on. -/
def voiceNoteOff (s : State) (v : Nat) (_vel : NumWord) (_t : Bool) : Res State :=
  onVoice s v fun x => { x with env := envRelease s.par.fmt s.cfg.r s.cfg.fs x.env }

/-- One sample of every live slot from index `i` on, summed onto `acc` in ascending index with the slot weights
(R225). -/
def sumSlots (s : State) (k : Kind) : Nat → NumWord → List Slot → Res (NumWord × List Slot)
  | _, acc, [] => .ok (acc, [])
  | i, acc, sl :: rest =>
    if sl.live then do
      let (y, o) ← nextSample s sl.osc k
      let (t, rest) ← sumSlots s k (i + 1) (s.par.fmt.add acc (s.par.fmt.mul y (slotWeight s.par.fmt i))) rest
      .ok (t, { sl with osc := o } :: rest)
    else do
      let (t, rest) ← sumSlots s k (i + 1) acc rest
      .ok (t, sl :: rest)

/-- One pass of the render loop's body up to `mix_acc` (R225): the sample `((m + s) * e) * GAIN` and the voice with
its oscillators and envelope advanced by exactly one sample. -/
def voiceSample (s : State) (x : Voice) : Res (NumWord × Voice) := do
  let (m, main) ← nextSample s x.main x.kind
  let (t, subs) ← sumSlots s x.kind 0 (s.par.fmt.ofInt 0) x.subs
  .ok (s.par.fmt.mul (s.par.fmt.mul (s.par.fmt.add m t) (envStep s x.env).2) x.gain,
    { x with main := main, subs := subs, env := (envStep s x.env).1 })

/-- A voice whose envelope has finished: its oscillators are freed and it is idle (R225). -/
def freeVoice (x : Voice) : Voice := { x with subs := clearLive x.subs, busy := false }

/-- The render loop of one busy voice over `count` frames from `a` on (R225): it ends early on the sample at which
the envelope finishes, after that sample's accumulate. -/
def renderLoop (s : State) : Nat → Nat → Voice → Mem → Res (Voice × Mem)
  | 0, _, x, b => .ok (x, b)
  | count + 1, a, x, b => do
    let (y, x) ← voiceSample s x
    let b ← mixAcc s b a y
    if envActive x.env then renderLoop s count (a + 1) x b else .ok (freeVoice x, b)

/-- `voice_render(v, start, num)` of one voice's registers (R225): an idle voice reads and writes nothing. -/
def renderVoice (s : State) (start count : Nat) (x : Voice) (b : Mem) : Res (Voice × Mem) :=
  if x.busy then renderLoop s count start x b else .ok (x, b)

/-- `voice_reset` of one voice's registers (R227). -/
def resetVoice (F : NumFmt NumWord) (x : Voice) : Voice :=
  { x with busy := false, subs := clearLive x.subs, env := envReset F x.env }

/-- `voice_reset` of every voice (R270, R271). -/
def resetVoices (s : State) : State := { s with voices := s.voices.map (resetVoice s.par.fmt) }

/-- The internal operation `voice_note_on` (R223). The velocity is a word of the request, read by `numword`
(log entry 2). -/
def execVoiceNoteOn (v : Nat) (note : BitVec 7) (vel : Word) (kind : Kind) (sc : BitVec 16) (s : State) : StepOutcome :=
  finish (voiceNoteOn s v note (numword s.par vel) kind (sext16 sc))

/-- The internal operation `voice_note_off` (R224). -/
def execVoiceNoteOff (v : Nat) (vel : Word) (t : Bool) (s : State) : StepOutcome :=
  finish (voiceNoteOff s v (numword s.par vel) t)

/-- The internal operation `voice_render` (R225). -/
def execVoiceRender (v : Nat) (start num : BitVec 16) (s : State) : StepOutcome :=
  finish do
    let x ← getVoice s v
    let (x, b) ← renderVoice s (zext16 start) (zext16 num) x s.buf
    .ok { setVoice s v x with buf := b }

/-- The internal operation `voice_reset` (R227). -/
def execVoiceReset (v : Nat) (s : State) : StepOutcome := finish (onVoice s v (resetVoice s.par.fmt))

end Sys2Proof.Machine
end

