-- ==== Sys2Proof/Machine/Engine.lean ====
section
/-! DEFINITION. The nine host commands (46_engine_commands.md R270 to R277; 45_voice_mixer_sample_buf.md R252). -/

namespace Sys2Proof.Machine

/-- `PREPARE sampleRate, maxBlockSize` (R270). -/
def prepareBlock (s : State) (mb : BitVec 16) (fs : NumWord) : Res State :=
  if !s.par.fmt.isFinite fs then raise (.numInvalid [fs])
  else if !s.par.fmt.gt fs (s.par.fmt.ofInt 0) then raise (.badPrepare fs mb)
  else if zext16 mb = 0 ∨ s.par.bufLen < zext16 mb then raise (.badPrepare fs mb)
  else do
    let s ← rebuildTables { s with cfg := { s.cfg with fs := fs, maxblk := mb } }
    .ok { envRates (resetVoices s) with prepared := true }

/-- The contents `RELEASE` leaves unspecified (R271): free values, and both memories with no word written (log
entry 8). -/
def forgetPrepared (s : State) : State :=
  { s with
    cfg := { s.cfg with fs := Config.releasedNum s.era 0, maxblk := Config.releasedMaxblk s.era }
    atkInc := Config.releasedNum s.era 1
    decDec := Config.releasedNum s.era 2
    tblAttr :=
      { sine := { h := Config.releasedHarm s.era 0, fs := Config.releasedNum s.era 3 }
        saw := { h := Config.releasedHarm s.era 1, fs := Config.releasedNum s.era 4 }
        square := { h := Config.releasedHarm s.era 2, fs := Config.releasedNum s.era 5 }
        triangle := { h := Config.releasedHarm s.era 3, fs := Config.releasedNum s.era 6 } }
    tbl := PerKind.all []
    buf := []
    era := s.era + 1 }

/-- `RELEASE` (R271): all voices idle and not prepared; while not prepared it has no other effect (R280). -/
def releaseBlock (s : State) : State :=
  if s.prepared then { forgetPrepared (resetVoices s) with prepared := false } else resetVoices s

/-- `SET_HARM n` (R273). -/
def setHarmonics (s : State) (n : BitVec 16) : Res State :=
  if s.prepared then rebuildTables { s with cfg := { s.cfg with harm := clampHarm n } }
  else .ok { s with cfg := { s.cfg with harm := clampHarm n } }

/-- `SET_ADSR attack, decay, sustain, release` (R275). -/
def setEnvelope (s : State) (a d sus r : NumWord) : Res State :=
  if !(s.par.fmt.isFinite a && s.par.fmt.isFinite d && s.par.fmt.isFinite sus && s.par.fmt.isFinite r) then
    raise (.numInvalid [a, d, sus, r])
  else
    let t : State :=
      { s with
        cfg :=
          { s.cfg with
            a := clampTime s.par.fmt a, d := clampTime s.par.fmt d
            s := clampUnit s.par.fmt sus, r := clampRelease s.par.fmt r } }
    .ok (if t.prepared then envRates t else t)

/-- `NOTE_ON note, velocity` (R276): the first idle voice takes the note; with none idle the note is dropped. -/
def noteOn (s : State) (note : BitVec 7) (vel : NumWord) : Res State :=
  if !s.par.fmt.isFinite vel then raise (.numInvalid [vel])
  else if !s.prepared then raise (.notPrepared .noteOn)
  else
    match firstVoice (fun x => !x.busy) s.voices with
    | none => .ok s
    | some v => voiceNoteOn s v note (clampUnit s.par.fmt vel) s.cfg.wave (s.cfg.sub.toNat : Int)

/-- `NOTE_OFF note, velocity[, T]` (R277): the first busy voice that holds the note, whatever its stage. -/
def noteOff (s : State) (t : Bool) (note : BitVec 7) (vel : NumWord) : Res State :=
  if !s.par.fmt.isFinite vel then raise (.numInvalid [vel])
  else
    match firstVoice (fun x => x.busy && x.note == note) s.voices with
    | none => .ok s
    | some v => voiceNoteOff s v vel t

/-- Renders a list of voices in ascending index into a buffer (R252, R254). -/
def renderVoices (s : State) (start count : Nat) : List Voice → Mem → Res (List Voice × Mem)
  | [], b => .ok ([], b)
  | x :: rest, b => do
    let (x, b) ← renderVoice s start count x b
    let (rest, b) ← renderVoices s start count rest b
    .ok (x :: rest, b)

/-- `RENDER start, num` (R252). -/
def renderBlock (s : State) (start count : BitVec 16) : Res State :=
  if !s.prepared then raise (.notPrepared .render)
  else if s.par.bufLen < zext16 start + zext16 count ∨ zext16 s.cfg.maxblk < zext16 count then
    raise (.renderRange start count)
  else do
    let b ← clearFrames s.par (zext16 count) (zext16 start) s.buf
    let (voices, b) ← renderVoices s (zext16 start) (zext16 count) s.voices b
    .ok { s with voices := voices, buf := b }

/-- The command `PREPARE` (R270). -/
def execPrepare (maxblk : BitVec 16) (rate : Word) (s : State) : StepOutcome :=
  finish (prepareBlock s maxblk (numword s.par rate))

/-- The command `RELEASE` (R271). -/
def execRelease (s : State) : StepOutcome := .next (releaseBlock s)

/-- The command `SET_WAVE` (R272). -/
def execSetWave (kind : Kind) (s : State) : StepOutcome := .next { s with cfg := { s.cfg with wave := kind } }

/-- The command `SET_HARM` (R273). -/
def execSetHarm (imm16 : BitVec 16) (s : State) : StepOutcome := finish (setHarmonics s imm16)

/-- The command `SET_SUB` (R274). -/
def execSetSub (imm16 : BitVec 16) (s : State) : StepOutcome :=
  .next { s with cfg := { s.cfg with sub := clampSub imm16 } }

/-- The command `SET_ADSR` (R275). -/
def execSetAdsr (attack decay sustain rel : Word) (s : State) : StepOutcome :=
  finish (setEnvelope s (numword s.par attack) (numword s.par decay) (numword s.par sustain) (numword s.par rel))

/-- The command `NOTE_ON` (R276). -/
def execNoteOn (note : BitVec 7) (velocity : Word) (s : State) : StepOutcome := finish (noteOn s note (numword s.par velocity))

/-- The command `NOTE_OFF` (R277). -/
def execNoteOff (t : Bool) (note : BitVec 7) (velocity : Word) (s : State) : StepOutcome :=
  finish (noteOff s t note (numword s.par velocity))

/-- The command `RENDER` (R252). -/
def execRender (start num : BitVec 16) (s : State) : StepOutcome := finish (renderBlock s start num)

end Sys2Proof.Machine
end

