-- ==== Sys2Proof/Machine/Dispatch.lean ====
section
/-! DEFINITION. One arm per instruction (46_engine_commands.md R278; 30_encoding.md R106). -/

namespace Sys2Proof.Machine

def exec (i : Instr) (s : State) : Host.Outcome State Fault Refusal :=
  match i with
  | .prepare maxblk rate => Sys2Proof.Machine.execPrepare maxblk rate s
  | .release => Sys2Proof.Machine.execRelease s
  | .setWave kind => Sys2Proof.Machine.execSetWave kind s
  | .setHarm imm16 => Sys2Proof.Machine.execSetHarm imm16 s
  | .setSub imm16 => Sys2Proof.Machine.execSetSub imm16 s
  | .setAdsr attack decay sustain rel => Sys2Proof.Machine.execSetAdsr attack decay sustain rel s
  | .noteOn note velocity => Sys2Proof.Machine.execNoteOn note velocity s
  | .noteOff t note velocity => Sys2Proof.Machine.execNoteOff t note velocity s
  | .render start num => Sys2Proof.Machine.execRender start num s
  | .build kind harm f0 fs => Sys2Proof.Machine.execBuild kind harm f0 fs s
  | .rebuildAll => Sys2Proof.Machine.execRebuildAll s
  | .oscSetFreq v o freq fs => Sys2Proof.Machine.execOscSetFreq v o freq fs s
  | .oscSetRandomPhase v o => Sys2Proof.Machine.execOscSetRandomPhase v o s
  | .oscAdvance v o => Sys2Proof.Machine.execOscAdvance v o s
  | .oscStop v o => Sys2Proof.Machine.execOscStop v o s
  | .oscReset v o => Sys2Proof.Machine.execOscReset v o s
  | .oscNextSample v o kind => Sys2Proof.Machine.execOscNextSample v o kind s
  | .tblInterp kind phase => Sys2Proof.Machine.execTblInterp kind phase s
  | .envRates => Sys2Proof.Machine.execEnvRates s
  | .envTrigger v => Sys2Proof.Machine.execEnvTrigger v s
  | .envRelease v => Sys2Proof.Machine.execEnvRelease v s
  | .envNext v => Sys2Proof.Machine.execEnvNext v s
  | .envReset v => Sys2Proof.Machine.execEnvReset v s
  | .voiceNoteOn v note vel kind sc => Sys2Proof.Machine.execVoiceNoteOn v note vel kind sc s
  | .voiceNoteOff v vel t => Sys2Proof.Machine.execVoiceNoteOff v vel t s
  | .voiceRender v start num => Sys2Proof.Machine.execVoiceRender v start num s
  | .voiceReset v => Sys2Proof.Machine.execVoiceReset v s
  | .bufClear start num => Sys2Proof.Machine.execBufClear start num s
  | .mixAcc a y => Sys2Proof.Machine.execMixAcc a y s

end Sys2Proof.Machine
end

