-- ==== Sys2Proof/Machine/Fetch.lean ====
section
/-! DEFINITION. What a step runs next (20_memory.md R70 to R72; 46_engine_commands.md R278): the host's doings of the
slot, then the command or request taken. -/

namespace Sys2Proof.Machine

/-- One thing the host does at the inputs (70_reset_and_hazards.md R330, R331). -/
def hostDoes (s : State) : HostEvent → State
  | .word .rt w => { s with rt := s.rt ++ [w] }
  | .word .ctl w => { s with ctl := s.ctl ++ [w] }
  | .reset => applyReset s

/-- A group of such things, in order. -/
def hostDoesAll (s : State) : List HostEvent → State
  | [] => s
  | e :: rest => hostDoesAll (hostDoes s e) rest

/-- The next command slot opens: what the host has done by then stands at the ports (log entry 11). -/
def openSlot (s : State) : State :=
  match s.arrivals with
  | [] => { s with slots := s.slots + 1 }
  | g :: rest => hostDoesAll { s with slots := s.slots + 1, arrivals := rest } g

/-- What a slot does. -/
inductive Slotted where
  /-- No complete command or request waits: the block waits (R331, R314). -/
  | waits
  /-- An instruction runs, on the state with its words taken. -/
  | runs (i : Instr) (s : State)
  /-- A reserved encoding (`CV1`). -/
  | violates (f : Fault)
  /-- A request that names no operation. -/
  | refuses (r : Refusal)
  deriving DecidableEq, Repr

/-- What `CTL` holds, looked at when `RT` holds no complete command (R72). -/
def fetchCtl (s : State) : Slotted :=
  match decode s.ctl with
  | .ok (i, rest) => .runs i { s with ctl := rest }
  | .error (.reserved w) => .violates (.reservedEncoding w .ctl)
  | .error .incomplete => .waits

/-- What `RT` holds; it goes first when complete commands wait at both ports (R72, R304 (a)). DESIGN CHOICE, since R72
and R304 order complete commands alone: a reserved encoding at `RT` stops the run before a complete command at `CTL`
runs, one at `CTL` does not stop it while `RT` holds a complete command, and a partly received command at `RT` lets
`CTL` go (log entry 11). -/
def fetchPorts (s : State) : Slotted :=
  match decode s.rt with
  | .ok (i, rest) => .runs i { s with rt := rest }
  | .error (.reserved w) => .violates (.reservedEncoding w .rt)
  | .error .incomplete => fetchCtl s

/-- What the slot runs: a waiting request of the sub-blocks first (log entry 2), else a port's command. -/
def fetch (s : State) : Slotted :=
  match s.uops with
  | r :: rest =>
    match decodeUop r with
    | .ok i => .runs i { s with uops := rest }
    | .error e => .refuses (.noSuchOperation e)
  | [] => fetchPorts s

/-- Puts an instruction, given as the bits of its opcode-table row, where the next slot takes its instruction from:
the head of the requests for an 8-bit row, else the head of `RT` with no request waiting; nothing arrives meanwhile. -/
def placeTableWord (s : State) (nbits w : Nat) : State :=
  if nbits = 8 then { s with uops := tableRequest w :: s.uops, arrivals := [] :: s.arrivals }
  else { s with uops := [], rt := tableCommand w ++ s.rt, arrivals := [] :: s.arrivals }

end Sys2Proof.Machine
end

