-- ==== Sys2Proof/Machine/Step.lean ====
section
/-! DEFINITION. One step: one command slot (20_memory.md R71; 46_engine_commands.md R278). -/

namespace Sys2Proof.Machine

/-- One slot of the block: what the host has done arrives, then one command (or one waiting request) runs from start
to end, or the block waits. A configuration outside R8's ranges is refused (entry U17). -/
def step (s : State) : Host.Outcome State Fault Refusal :=
  if !paramsLegal s.par then .refused .illegalParameters
  else
    match fetch (openSlot s) with
    | .waits => .next (openSlot s)
    | .runs i t => exec i t
    | .violates f => .fault f
    | .refuses r => .refused r

/-- `s` with the instruction of an opcode-table row placed so that the very next step runs it (log entry 12). -/
def State.withFetchWord (s : State) (nbits w : Nat) : State := placeTableWord s nbits w

end Sys2Proof.Machine
end

