-- ==== Sys2Proof/Machine/NumReal.lean ====
section
/-! DEFINITION. `NUM_REAL` (00_scope.md R11): the reference instance of the parameter record `NUM`, in which the
source's equalities hold exactly; and what it is for a format of number words, which the machine runs, to be it. -/

namespace Sys2Proof.Machine

open Classical in
/-- `NUM_REAL` (R11): the real numbers, every operation exact, `sin` and `PI` the mathematical ones, `numword`
undefined, `MIDI_FREQ` the equal-tempered frequencies themselves (R222). -/
noncomputable def numReal : NumFmt ℝ :=
  { ofInt := fun k => (k : ℝ), lit := fun m d => (m : ℝ) / 10 ^ d
    add := fun a b => a + b, sub := fun a b => a - b, mul := fun a b => a * b, div := fun a b => a / b
    neg := fun a => -a, abs := fun a => |a|
    lt := fun a b => decide (a < b), le := fun a b => decide (a ≤ b)
    gt := fun a b => decide (a > b), ge := fun a b => decide (a ≥ b), eq := fun a b => decide (a = b)
    floor := fun a => ⌊a⌋, sin := Real.sin, pi := Real.pi
    decode := fun _ => none, encode := fun _ => none, isFinite := fun _ => true
    midi := fun note => 440 * (2 : ℝ) ^ (((note.toNat : ℝ) - 69) / 12) }

/-- A format of number words is `NUM_REAL`, `val x` being the real number that `x` stands for: every operation is the
exact one. A configuration whose `NUM` is such a format runs `NUM_REAL` (log entry 1). -/
structure ReadsReal (F : NumFmt NumWord) (val : NumWord → ℝ) : Prop where
  ofInt : ∀ k, val (F.ofInt k) = numReal.ofInt k
  lit : ∀ m d, val (F.lit m d) = numReal.lit m d
  add : ∀ a b, val (F.add a b) = numReal.add (val a) (val b)
  sub : ∀ a b, val (F.sub a b) = numReal.sub (val a) (val b)
  mul : ∀ a b, val (F.mul a b) = numReal.mul (val a) (val b)
  div : ∀ a b, val (F.div a b) = numReal.div (val a) (val b)
  neg : ∀ a, val (F.neg a) = numReal.neg (val a)
  abs : ∀ a, val (F.abs a) = numReal.abs (val a)
  lt : ∀ a b, F.lt a b = numReal.lt (val a) (val b)
  le : ∀ a b, F.le a b = numReal.le (val a) (val b)
  gt : ∀ a b, F.gt a b = numReal.gt (val a) (val b)
  ge : ∀ a b, F.ge a b = numReal.ge (val a) (val b)
  eq : ∀ a b, F.eq a b = numReal.eq (val a) (val b)
  floor : ∀ a, F.floor a = numReal.floor (val a)
  sin : ∀ a, val (F.sin a) = numReal.sin (val a)
  pi : val F.pi = numReal.pi
  decode : ∀ w, F.decode w = none
  isFinite : ∀ a, F.isFinite a = true
  midi : ∀ note, val (F.midi note) = numReal.midi note

end Sys2Proof.Machine
end

