-- ==== Sys2Proof/Safety.lean ====
section
/-! DEFINITION. The terms claims are stated in: fault-free runs, the invariants of 10_state.md R37 and R38, the
conditions under which a build or a render runs to its end, and what an operation leaves unchanged. -/

namespace Sys2Proof.Machine

/-- A run of `k` steps meets no fault and no refusal. -/
def RunsOn (k : Nat) (s : State) : Prop := ∃ t, Host.Core.run Sys2Proof.core k s = .next t

/-! ### Invariants -/

/-- Both memories keep their canonical form and list only addresses that exist (R61, R64). -/
def MemoriesLegal (s : State) : Prop :=
  (∀ k, (s.tbl.get k).wf = true) ∧ s.buf.wf = true
    ∧ (∀ k, ∀ c ∈ s.tbl.get k, c.1 ≤ s.par.tableSize)
    ∧ ∀ c ∈ s.buf, c.1 < s.par.channels * s.par.bufLen

/-- While prepared, every table is whole and its guard equals index 0 (R33, R38 (c), R61). -/
def TablesClosed (s : State) : Prop :=
  s.prepared = true →
    ∀ k, (s.tbl.get k).map Prod.fst = List.range (s.par.tableSize + 1)
      ∧ tblRead s k s.par.tableSize = tblRead s k 0

/-- The real number a finite `NUM_F32` number is (R11). -/
noncomputable def f32Value (x : NumWord) : ℝ := (F32.value x.bits : ℝ) / (F32.one : ℝ)

/-- A number lies between two bounds, under `NUM_F32`. -/
def Between (lo x hi : NumWord) : Prop := F32.le lo.bits x.bits = true ∧ F32.le x.bits hi.bits = true

/-- Under `NUM_F32`, the control registers hold legal values (R30): the counts and the envelope parameters always, the
rate and the block size while prepared. The bounds are 0.001, 2.0, 0.0, 1.0 and 5.0. -/
def ControlLegal (s : State) : Prop :=
  s.par.num = .f32 ∧ 1 ≤ s.cfg.harm.toNat ∧ s.cfg.harm.toNat ≤ 16 ∧ s.cfg.sub.toNat ≤ 8
    ∧ Between (.f32 0x3A83126F#32) s.cfg.a (.f32 0x40000000#32)
    ∧ Between (.f32 0x3A83126F#32) s.cfg.d (.f32 0x40000000#32)
    ∧ Between (.f32 0x00000000#32) s.cfg.s (.f32 0x3F800000#32)
    ∧ Between (.f32 0x3A83126F#32) s.cfg.r (.f32 0x40A00000#32)
    ∧ (s.prepared = true →
        F32.isFinite s.cfg.fs.bits = true ∧ F32.lt 0#32 s.cfg.fs.bits = true
          ∧ 1 ≤ s.cfg.maxblk.toNat ∧ s.cfg.maxblk.toNat ≤ s.par.bufLen)

/-- The registers of a voice agree with each other and with `PREPARED` (R37 (b), R38 (a), R38 (b)). -/
def VoiceConsistent (prepared : Bool) (x : Voice) : Prop :=
  (x.busy = true ↔ x.env.stage ≠ .idle)
    ∧ (∀ sl ∈ x.subs, sl.live = true → x.busy = true)
    ∧ (x.busy = true → prepared = true)

/-- Every voice is consistent, and no internal operation is requested from outside a command. -/
def VoicesConsistent (s : State) : Prop := s.uops = [] ∧ ∀ x ∈ s.voices, VoiceConsistent s.prepared x

/-- There are `P` voices of eight slots each (R22, R23). -/
def ShapeLegal (s : State) : Prop := s.voices.length = s.par.poolSize ∧ ∀ x ∈ s.voices, x.subs.length = 8

/-- A phase lies in the table: `0 <= PHASE < num(N)` (R25). -/
def PhaseInTable (tableSize : Nat) (o : Osc) : Prop :=
  F32.le 0#32 o.phase.bits = true ∧ F32.lt o.phase.bits (F32.ofInt tableSize) = true

/-- The increment meets the documented precondition: `0 <= INC < num(N)` (R25, R161). -/
def IncrementLegal (tableSize : Nat) (o : Osc) : Prop :=
  F32.le 0#32 o.inc.bits = true ∧ F32.lt o.inc.bits (F32.ofInt tableSize) = true

/-- R38 (d) for one oscillator: the phase is in range provided the increment met its precondition. -/
def OscInRange (tableSize : Nat) (o : Osc) : Prop :=
  F32.le 0#32 o.inc.bits = true ∧ (F32.lt o.inc.bits (F32.ofInt tableSize) = true → PhaseInTable tableSize o)

/-- R38 (d), under `NUM_F32`: the oscillators of every busy voice, and what it rests on: every draw offered is legal
(R15), the table length is one the format holds exactly, the sample rate is positive while prepared, and no internal
operation is requested from outside a command. -/
def PhasesInRange (s : State) : Prop :=
  s.par.num = .f32 ∧ s.uops = [] ∧ s.par.tableSize ≤ 2 ^ 24
    ∧ (∀ r ∈ s.rnd.offered, drawLegal numF32 s.par.tableSize r = true)
    ∧ (s.prepared = true → F32.isFinite s.cfg.fs.bits = true ∧ F32.lt 0#32 s.cfg.fs.bits = true)
    ∧ ∀ x ∈ s.voices, x.busy = true →
        OscInRange s.par.tableSize x.main
          ∧ ∀ sl ∈ x.subs, sl.live = true → OscInRange s.par.tableSize sl.osc

/-- R38 (e), under `NUM_F32`: every level lies in 0 to 1, and what it rests on: consistent voices, legal control
registers, shared rates that are not negative while prepared and a latched release step that is not negative. -/
def LevelsInRange (s : State) : Prop :=
  VoicesConsistent s ∧ ControlLegal s
    ∧ (s.prepared = true → F32.le 0#32 s.atkInc.bits = true ∧ F32.le 0#32 s.decDec.bits = true)
    ∧ ∀ x ∈ s.voices,
        Between (.f32 0x00000000#32) x.env.level (.f32 0x3F800000#32)
          ∧ (x.env.stage = .release → F32.le 0#32 x.env.relDec.bits = true)

/-! ### Conditions -/

/-- Operands on which no intermediate of `build` leaves `NUM_F32` (entry U4): at most 65536 samples, a finite rate, and
a fundamental whose 31st multiple the format holds. -/
def BuildInRange (tableSize : Nat) (f0 fs : NumWord) : Prop :=
  0 < tableSize ∧ tableSize ≤ 65536 ∧ F32.isFinite fs.bits = true ∧ F32.isFinite f0.bits = true
    ∧ F32.isFinite (F32.mul f0.bits (F32.ofInt 31)) = true

/-- Every oscillator of a voice that a render reads has its phase and its increment in range. -/
def VoiceRenderable (tableSize : Nat) (x : Voice) : Prop :=
  (PhaseInTable tableSize x.main ∧ IncrementLegal tableSize x.main)
    ∧ ∀ sl ∈ x.subs, sl.live = true → PhaseInTable tableSize sl.osc ∧ IncrementLegal tableSize sl.osc

/-- A table read at a phase stays in the table (R181, R63). -/
def PhaseReadable (s : State) (phase : NumWord) : Prop :=
  s.par.fmt.isFinite phase = true ∧ 0 ≤ s.par.fmt.floor phase ∧ s.par.fmt.floor phase ≤ (s.par.tableSize : Int) - 1

/-- A table read at a phase is the `CV5` of R181. -/
def PhaseOutside (s : State) (phase : NumWord) : Prop :=
  s.par.fmt.isFinite phase = true ∧ (s.par.fmt.floor phase < 0 ∨ (s.par.tableSize : Int) - 1 < s.par.fmt.floor phase)

/-- Every phase one sample of a voice reads at can be read. -/
def VoiceReadable (s : State) (x : Voice) : Prop :=
  PhaseReadable s x.main.phase ∧ ∀ sl ∈ x.subs, sl.live = true → PhaseReadable s sl.osc.phase

/-- The first phase outside the table that one sample of a voice meets: the main oscillator's, else that of the live slot
of least index (R225, R304). -/
def FirstPhaseOutside (s : State) (x : Voice) (phase : NumWord) : Prop :=
  (phase = x.main.phase ∧ PhaseOutside s phase) ∨
    (PhaseReadable s x.main.phase ∧ ∃ (i : Nat) (sl : Slot), x.subs[i]? = some sl ∧ sl.live = true ∧
      phase = sl.osc.phase ∧ PhaseOutside s phase ∧
      ∀ (j : Nat) (sl' : Slot), j < i → x.subs[j]? = some sl' → sl'.live = true → PhaseReadable s sl'.osc.phase)

/-- The voice's registers are those `voice_reset` leaves: idle, level 0, no live slot (R227). -/
def VoiceAtRest (F : NumFmt NumWord) (x : Voice) : Prop :=
  x.busy = false ∧ x.env.stage = .idle ∧ x.env.level = F.ofInt 0 ∧ ∀ sl ∈ x.subs, sl.live = false

/-! ### What stays -/

/-- Two states differ at most in their voices and in the sample buffer. -/
def SameButVoicesAndBuf (s t : State) : Prop := t = { s with voices := t.voices, buf := t.buf }

/-- Two states differ at most in one voice. -/
def SameButVoice (s t : State) (v : Nat) : Prop :=
  t = { s with voices := t.voices } ∧ t.voices.length = s.voices.length ∧ ∀ u, u ≠ v → t.voices[u]? = s.voices[u]?

/-- Two voices differ at most in the phase and increment of one oscillator. -/
def SameButOsc (x y : Voice) (o : OscSel) : Prop :=
  y.busy = x.busy ∧ y.note = x.note ∧ y.gain = x.gain ∧ y.kind = x.kind ∧ y.env = x.env
    ∧ y.subs.length = x.subs.length ∧ y.subs.map Slot.live = x.subs.map Slot.live
    ∧ ∀ o', o' ≠ o → y.osc o' = x.osc o'

/-- Every word of the sample buffer outside frames `lo` to `hi - 1` reads as before. -/
def BufSameOutside (s t : State) (lo hi : Nat) : Prop :=
  ∀ c a, c < s.par.channels → a < s.par.bufLen → ¬ (lo ≤ a ∧ a < hi) → bufRead t t.buf c a = bufRead s s.buf c a

/-! ### One sample of a voice -/

/-- The value read at a phase in the table: `a + frac * (b - a)` (R181). -/
def readAt (s : State) (k : Kind) (phase : NumWord) : NumWord :=
  lerp s.par.fmt (tblRead s k (s.par.fmt.floor phase).toNat) (tblRead s k ((s.par.fmt.floor phase).toNat + 1))
    (s.par.fmt.sub phase (s.par.fmt.ofInt (s.par.fmt.floor phase)))

/-- The sum of the live slots' values in ascending index, slot `i` weighted by `0.5 / num(i + 2)` (R225). -/
def slotsSum (s : State) (x : Voice) : NumWord :=
  x.subs.zipIdx.foldl
    (fun acc p =>
      if p.1.live then
        s.par.fmt.add acc (s.par.fmt.mul (readAt s x.kind p.1.osc.phase)
          (s.par.fmt.div (s.par.fmt.lit 5 1) (s.par.fmt.ofInt ((p.2 : Int) + 2))))
      else acc)
    (s.par.fmt.ofInt 0)

/-- The sample a busy voice contributes: `((m + s) * e) * GAIN` (R225). -/
def voiceOutput (s : State) (x : Voice) : NumWord :=
  s.par.fmt.mul
    (s.par.fmt.mul (s.par.fmt.add (readAt s x.kind x.main.phase) (slotsSum s x))
      (envNext s.par.fmt s.atkInc s.decDec s.cfg.s x.env).2)
    x.gain

/-- A list of slots one sample later: dead slots as they were, live slots advanced (R163, R225). -/
def advanceSlots (F : NumFmt NumWord) (tableSize : Nat) (subs : List Slot) : List Slot :=
  subs.map fun sl => if sl.live then { sl with osc := advance F tableSize sl.osc } else sl

/-- A busy voice one sample later, freed when its envelope has finished (R225). -/
def voiceLater (s : State) (x : Voice) : Voice :=
  let y : Voice :=
    { x with
      main := advance s.par.fmt s.par.tableSize x.main
      subs := advanceSlots s.par.fmt s.par.tableSize x.subs
      env := (envNext s.par.fmt s.atkInc s.decDec s.cfg.s x.env).1 }
  if y.env.stage = .idle then { y with busy := false, subs := y.subs.map fun sl => { sl with live := false } } else y

/-! ### The builder's formula over the reals -/

/-- The phase multiplier of ordinal `n` (R132 to R135). -/
noncomputable def realMultiplier (k : Kind) (n : Nat) : ℝ :=
  match k with
  | .sine => n
  | .saw => n * (1 + 5 / 100 * n)
  | .square | .triangle => 2 * n - 1

/-- The amplitude of ordinal `n` (R132 to R135). -/
noncomputable def realAmplitude (k : Kind) (n : Nat) : ℝ :=
  match k with
  | .sine | .saw => 1 / n
  | .square => 4 / Real.pi * (1 / (2 * n - 1))
  | .triangle => 8 / (Real.pi * Real.pi) * ((-1) ^ (n + 1) / ((2 * n - 1) * (2 * n - 1)))

/-- The sum of the first `count` partials at index `i` of `tableSize` (R131). -/
noncomputable def realSum (k : Kind) (tableSize count i : Nat) : ℝ :=
  ((List.range count).map fun j =>
    realAmplitude k (j + 1) * Real.sin (realMultiplier k (j + 1) * (2 * Real.pi * i / tableSize))).sum

/-- An envelope after `j` calls of `env_next` (R194). -/
def envAfter {α : Type} (F : NumFmt α) (atkInc decDec sus : α) (e : EnvOf α) : Nat → EnvOf α
  | 0 => e
  | j + 1 => (envNext F atkInc decDec sus (envAfter F atkInc decDec sus e j)).1

end Sys2Proof.Machine
end

