-- ==== Sys2Proof/Certificates/Slice0/Obligations.lean ====
section
/-! DEFINITION. The statements for the provers, each a Prop. A docstring names the rule of spec/ a statement
formalises, or the log entry of the model's choice it rests on. -/

open Sys2Proof Sys2Proof.Machine

/-! ### Encoding and decoding -/

/-- Decoding what `encode` writes gives the instruction back, every operand at every value the encoding admits
(R91 to R98; the request form of the internal operations is the model's, log entry 2). -/
def Obligations.DecodeOfEncodeIsTheInstruction : Prop :=
  ∀ i : Instr, i.encodable = true → decodeEncoded (encode i) = some i

/-- The other direction: the words a port's command was read from are the ones `encode` writes, so the decoder drops
no bit (R91, R101). -/
def Obligations.EncodeOfDecodeIsTheWords : Prop :=
  ∀ (ws : List Word) (i : Instr) (rest : List Word),
    decode ws = .ok (i, rest) → ∃ pre, encode i = .words pre ∧ ws = pre ++ rest

/-- No header selects two rows of the opcode map (R100). -/
def Obligations.HeaderSelectsAtMostOneRow : Prop :=
  ∀ (w : Word) (r r' : OpcodeRow), r ∈ opcodeMap → r' ∈ opcodeMap →
    w &&& r.mask = r.pattern → w &&& r'.mask = r'.pattern → r = r'

/-- A command takes as many words as its opcode, bits 31:24 of its header, says (R92), and no command words select an
internal operation (R106). -/
def Obligations.LengthIsAFunctionOfTheOpcode : Prop :=
  (∀ (w : Word) (ws : List Word) (i : Instr) (rest : List Word), decode (w :: ws) = .ok (i, rest) →
      (w :: ws).length = commandLength w + rest.length ∧ i.isInternal = false) ∧
    ∀ w w' : Word, (rowOf w).isSome = true → (rowOf w').isSome = true →
      w.extractLsb' 24 8 = w'.extractLsb' 24 8 → commandLength w = commandLength w'

/-- Words written out from the encodings of R93 to R98 decode to the commands they stand for. -/
def Obligations.WrittenOutWordsDecode : Prop :=
  decode [0x01000200#32, 0x472C4400#32] = .ok (.prepare 512#16 0x472C4400#32, []) ∧
    decode [0x02000000#32] = .ok (.release, []) ∧
    decode [0x10000002#32] = .ok (.setWave .square, []) ∧
    decode [0x1100FFFD#32] = .ok (.setHarm (-3), []) ∧
    decode [0x12000009#32] = .ok (.setSub 9#16, []) ∧
    decode [0x13000000#32, 1#32, 2#32, 3#32, 4#32] = .ok (.setAdsr 1#32 2#32 3#32 4#32, []) ∧
    decode [0x20000045#32, 0x3F800000#32] = .ok (.noteOn 69#7 0x3F800000#32, []) ∧
    decode [0x21000145#32, 0x00000000#32] = .ok (.noteOff true 69#7 0x00000000#32, []) ∧
    decode [0x30000200#32, 0x00000100#32] = .ok (.render 256#16 512#16, [])

/-- Words sent least significant byte first over a byte-wide transport are received unchanged (R67, R108). -/
def Obligations.ByteTransportKeepsTheWords : Prop :=
  (∀ ws : List Word, wordsOfBytes (ws.flatMap bytesOfWord) = ws) ∧
    [0x20000045#32, 0x3F800000#32].flatMap bytesOfWord
      = [0x45#8, 0x00#8, 0x00#8, 0x20#8, 0x00#8, 0x00#8, 0x80#8, 0x3F#8]

/-! ### One step -/

/-- A step opens a slot and runs exactly the instruction decoded: the waiting request first (the model's choice, log
entry 2), else `RT`'s command, else `CTL`'s; its words are taken and nothing else changes around it (R71, R72, R278).
That `CTL` goes while `RT` holds a partly received command, and not only while `RT` holds nothing, is the model's choice
and no rule of the spec (log entry 11). With no complete command at either port the block waits: only the host's doings
of the slot happen (R331). -/
def Obligations.StepRunsTheDecodedInstruction : Prop :=
  ∀ s : State, paramsLegal s.par = true → (openSlot s).par = s.par ∧
    (∀ r rest i, (openSlot s).uops = r :: rest → decodeUop r = .ok i →
        step s = exec i { openSlot s with uops := rest }) ∧
    (∀ i rest, (openSlot s).uops = [] → decode (openSlot s).rt = .ok (i, rest) →
        step s = exec i { openSlot s with rt := rest }) ∧
    (∀ i rest, (openSlot s).uops = [] → decode (openSlot s).rt = .error .incomplete →
        decode (openSlot s).ctl = .ok (i, rest) → step s = exec i { openSlot s with ctl := rest }) ∧
    ((openSlot s).uops = [] → decode (openSlot s).rt = .error .incomplete →
        decode (openSlot s).ctl = .error .incomplete → step s = .next (openSlot s))

/-- A reserved encoding stops the run with `CV1`, the offending word and the port (R101, R302): a header that matches
no row, or a RENDER operand word with any of bits 31:16 set. The order between the ports is the model's choice where
`RT` holds no complete command (log entry 11): a reserved encoding at `RT` stops the run whatever `CTL` holds, and one
at `CTL` stops it also while `RT` holds a partly received command. -/
def Obligations.ReservedEncodingIsCV1 : Prop :=
  ∀ s : State, paramsLegal s.par = true → (openSlot s).uops = [] →
    (∀ w rest, (openSlot s).rt = w :: rest → (∀ r ∈ opcodeMap, w &&& r.mask ≠ r.pattern) →
        step s = .fault (.reservedEncoding w .rt)) ∧
    (∀ w a rest, (openSlot s).rt = w :: a :: rest → w &&& 0xFFFF0000#32 = 0x30000000#32 →
        a &&& 0xFFFF0000#32 ≠ 0#32 → step s = .fault (.reservedEncoding a .rt)) ∧
    (∀ w rest, decode (openSlot s).rt = .error .incomplete → (openSlot s).ctl = w :: rest →
        (∀ r ∈ opcodeMap, w &&& r.mask ≠ r.pattern) → step s = .fault (.reservedEncoding w .ctl)) ∧
    (∀ w a rest, decode (openSlot s).rt = .error .incomplete → (openSlot s).ctl = w :: a :: rest →
        w &&& 0xFFFF0000#32 = 0x30000000#32 → a &&& 0xFFFF0000#32 ≠ 0#32 →
        step s = .fault (.reservedEncoding a .ctl))

/-! ### Reset -/

/-- What reset leaves, as far as R40 gives it: the source's parameter defaults, not prepared, every voice idle at level
0 with no live slot, the status outputs all zero; and asserting the reset input in any state gives the same again,
whatever was running or being received (R331, R332). What the host sees while `core_busy` is 0: the outputs are
PREPARED and BUSY, and a read of a word that exists is BufRead (R35, R66). That `core_busy` is 0 exactly when no word
and no request waits is the model's reading of R35 (log entry 17). -/
def Obligations.ResetLeavesTheDefaults : Prop :=
  (∀ s t : State, t = State.reset ∨ t = hostDoes s .reset →
    t.cfg.wave = .sine ∧ t.cfg.harm = 1#5 ∧ t.cfg.sub = 0#4 ∧ t.cfg.a = t.par.fmt.lit 1 2 ∧
      t.cfg.d = t.par.fmt.lit 1 1 ∧ t.cfg.s = t.par.fmt.lit 8 1 ∧ t.cfg.r = t.par.fmt.lit 3 1 ∧
      t.prepared = false ∧ t.voices.length = t.par.poolSize ∧
      (∀ x ∈ t.voices, VoiceAtRest t.par.fmt x) ∧ t.rt = [] ∧ t.ctl = [] ∧ t.uops = [] ∧
      coreBusy t = false ∧ preparedOut t = false ∧ ∀ v, voiceBusyOut t v = false) ∧
    State.reset.par = Params.default ∧ (∀ s : State, (hostDoes s .reset).par = s.par) ∧
    ∀ s : State, (coreBusy s = false ↔ s.rt = [] ∧ s.ctl = [] ∧ s.uops = []) ∧
      (coreBusy s = false →
        preparedOut s = s.prepared ∧
          (∀ (v : Nat) (x : Voice), s.voices[v]? = some x → voiceBusyOut s v = x.busy) ∧
          ∀ c a, c < s.par.channels → a < s.par.bufLen → hostRead s c a = bufRead s s.buf c a)

/-! ### Parameter commands -/

/-- SET_WAVE stores the kind and changes nothing else (R272). -/
def Obligations.SetWaveStoresTheKind : Prop :=
  ∀ (s : State) (k : Kind), exec (.setWave k) s = .next { s with cfg := { s.cfg with wave := k } }

/-- SET_SUB stores the signed count clamped to 0 to 8 and changes nothing else (R274). -/
def Obligations.SetSubStoresTheClampedCount : Prop :=
  ∀ (s : State) (n : BitVec 16), ∃ t, exec (.setSub n) s = .next t ∧
    (t.cfg.sub.toNat : Int) = max 0 (min 8 n.toInt) ∧ t = { s with cfg := { s.cfg with sub := t.cfg.sub } }

/-- SET_HARM before PREPARE stores the signed count clamped to 1 to 16; no table is built (R273). -/
def Obligations.SetHarmUnpreparedStoresTheClampedCount : Prop :=
  ∀ (s : State) (n : BitVec 16), s.prepared = false → ∃ t, exec (.setHarm n) s = .next t ∧
    (t.cfg.harm.toNat : Int) = max 1 (min 16 n.toInt) ∧ t = { s with cfg := { s.cfg with harm := t.cfg.harm } }

/-- Under `NUM_F32`, on operands of entry U4's range, SET_HARM while prepared stores the clamped count and rebuilds
the four tables, whatever the old count was; no voice, no sample and no other register changes (R273, R140, R62). -/
def Obligations.SetHarmPreparedRebuildsTheTables : Prop :=
  ∀ (s : State) (n : BitVec 16), s.par.num = .f32 → s.prepared = true →
    BuildInRange s.par.tableSize s.par.fBuild s.cfg.fs → ∃ t, exec (.setHarm n) s = .next t ∧
      (t.cfg.harm.toNat : Int) = max 1 (min 16 n.toInt) ∧
      (∀ k, ∃ words,
        buildWords numF32 s.par.tableSize k t.cfg.harm.toNat s.par.fBuild s.cfg.fs = .ok words ∧
          t.tbl.get k = Mem.fromWords 0 words ∧ t.tblAttr.get k = { h := t.cfg.harm, fs := s.cfg.fs }) ∧
      t = { s with cfg := { s.cfg with harm := t.cfg.harm }, tbl := t.tbl, tblAttr := t.tblAttr }

/-- SET_ADSR clamps its four numbers to 0.001 to 2.0, 0.001 to 2.0, 0.0 to 1.0 and 0.001 to 5.0, recomputes the shared
rates while prepared, and changes nothing else, in every number format (R275, R191). That the decay step is `1 - S`
itself where that is zero, whatever `D * FS` rounds to, is R191's corner case as the model reads it (log entry 22). -/
def Obligations.SetAdsrClampsAndRecomputesTheRates : Prop :=
  ∀ (s : State) (wa wd wu wr : Word) (F : NumFmt NumWord) (a d u r : NumWord), F = s.par.fmt →
    a = numword s.par wa → d = numword s.par wd → u = numword s.par wu → r = numword s.par wr →
    F.isFinite a = true → F.isFinite d = true → F.isFinite u = true → F.isFinite r = true →
    ∃ t, exec (.setAdsr wa wd wu wr) s = .next t ∧
      t.cfg.a = (if F.lt a (F.lit 1 3) then F.lit 1 3 else if F.gt a (F.lit 2 0) then F.lit 2 0 else a) ∧
      t.cfg.d = (if F.lt d (F.lit 1 3) then F.lit 1 3 else if F.gt d (F.lit 2 0) then F.lit 2 0 else d) ∧
      t.cfg.s = (if F.lt u (F.lit 0 0) then F.lit 0 0 else if F.gt u (F.lit 1 0) then F.lit 1 0 else u) ∧
      t.cfg.r = (if F.lt r (F.lit 1 3) then F.lit 1 3 else if F.gt r (F.lit 5 0) then F.lit 5 0 else r) ∧
      (s.prepared = true →
        t.atkInc = F.div (F.ofInt 1) (F.mul t.cfg.a s.cfg.fs) ∧
          t.decDec
            = if F.eq (F.sub (F.ofInt 1) t.cfg.s) (F.ofInt 0) then F.sub (F.ofInt 1) t.cfg.s
              else F.div (F.sub (F.ofInt 1) t.cfg.s) (F.mul t.cfg.d s.cfg.fs)) ∧
      (s.prepared = false → t.atkInc = s.atkInc ∧ t.decDec = s.decDec) ∧
      t = { s with
            cfg := { s.cfg with a := t.cfg.a, d := t.cfg.d, s := t.cfg.s, r := t.cfg.r }
            atkInc := t.atkInc
            decDec := t.decDec }

/-! ### Lifecycle commands -/

/-- Under `NUM_F32`, on operands of entry U4's range, PREPARE with a finite positive rate and a block size of 1 to
`BUFLEN` keeps both, rebuilds the four tables, makes every voice idle, recomputes the rates and sets PREPARED; the seven
configuration registers and the sample buffer keep their values (R270, R227; log entry 22 for the decay step at sustain
level 1). -/
def Obligations.PrepareBuildsAndResets : Prop :=
  ∀ (s : State) (mb : BitVec 16) (fs : Word), s.par.num = .f32 → F32.lt 0#32 fs = true → 1 ≤ mb.toNat →
    mb.toNat ≤ s.par.bufLen → s.cfg.harm.toNat ≤ 16 → BuildInRange s.par.tableSize s.par.fBuild (.f32 fs) →
    ∃ t, exec (.prepare mb fs) s = .next t ∧ t.prepared = true ∧
      (∀ k, ∃ words,
        buildWords numF32 s.par.tableSize k s.cfg.harm.toNat s.par.fBuild (.f32 fs) = .ok words ∧
          t.tbl.get k = Mem.fromWords 0 words ∧ t.tblAttr.get k = { h := s.cfg.harm, fs := .f32 fs }) ∧
      t.voices.length = s.voices.length ∧ (∀ x ∈ t.voices, VoiceAtRest numF32 x) ∧
      t.atkInc = .f32 (F32.div (F32.ofInt 1) (F32.mul s.cfg.a.bits fs)) ∧
      t.decDec
        = .f32 (if F32.eq (F32.sub (F32.ofInt 1) s.cfg.s.bits) 0x00000000#32 then F32.sub (F32.ofInt 1) s.cfg.s.bits
          else F32.div (F32.sub (F32.ofInt 1) s.cfg.s.bits) (F32.mul s.cfg.d.bits fs)) ∧
      t = { s with
            cfg := { s.cfg with fs := .f32 fs, maxblk := mb }
            prepared := true
            tbl := t.tbl
            tblAttr := t.tblAttr
            voices := t.voices
            atkInc := t.atkInc
            decDec := t.decDec }

/-- PREPARE with a finite rate that is not above zero, or a block size of 0 or above `BUFLEN`, is `CV3` with both
operands (R270, R302). -/
def Obligations.PrepareWithIllegalOperandsIsCV3 : Prop :=
  ∀ (s : State) (mb : BitVec 16) (fs : Word), s.par.fmt.isFinite (numword s.par fs) = true →
    s.par.fmt.gt (numword s.par fs) (s.par.fmt.ofInt 0) = false ∨ mb.toNat = 0 ∨ s.par.bufLen < mb.toNat →
    exec (.prepare mb fs) s = .fault (.badPrepare (numword s.par fs) mb)

/-- RELEASE while prepared: every voice idle, not prepared; the configuration registers WAVE, HARM, SUB, A, D, S and R
keep their values (R271). That no word of TBL or BUF is listed any more is the model's form of the contents R271 calls
unspecified: an unlisted word reads as a free value (log entries 7 and 8). -/
def Obligations.ReleaseEndsThePreparedState : Prop :=
  ∀ s : State, s.prepared = true → ∃ t, exec .release s = .next t ∧ t.prepared = false ∧
    t.voices.length = s.voices.length ∧ (∀ x ∈ t.voices, VoiceAtRest s.par.fmt x) ∧
    t.cfg.wave = s.cfg.wave ∧ t.cfg.harm = s.cfg.harm ∧ t.cfg.sub = s.cfg.sub ∧ t.cfg.a = s.cfg.a ∧
    t.cfg.d = s.cfg.d ∧ t.cfg.s = s.cfg.s ∧ t.cfg.r = s.cfg.r ∧
    (∀ k i, (t.tbl.get k).get? i = none) ∧ (∀ a, t.buf.get? a = none) ∧
    t.par = s.par ∧ t.rt = s.rt ∧ t.ctl = s.ctl ∧ t.arrivals = s.arrivals ∧ t.rnd = s.rnd ∧ t.uops = s.uops ∧
    t.ret = s.ret ∧ t.slots = s.slots

/-- RELEASE while not prepared has no effect (R280): with every voice at rest, as the voices of an unprepared block
are, the state is unchanged. -/
def Obligations.ReleaseUnpreparedHasNoEffect : Prop :=
  ∀ s : State, s.prepared = false → (∀ x ∈ s.voices, VoiceAtRest s.par.fmt x) → exec .release s = .next s

/-- A number that is not finite is `CV6`. As an operand word of a command: before any state is changed and before any
other violation (R99, R278, R304). Inside `build`: whatever intermediate value the builder stops at is not finite and
is recorded (R131, R302; log entry 19 says which values are checked). Under `NUM_F32` a rate or a fundamental that is
not finite is such a case for `build`, and an infinite `F_BUILD`, which R8 allows, for `rebuild_all`, SET_HARM while
prepared and PREPARE. -/
def Obligations.NonFiniteOperandIsCV6 : Prop :=
  ∀ s : State,
    (∀ mb fs, s.par.fmt.isFinite (numword s.par fs) = false →
      exec (.prepare mb fs) s = .fault (.numInvalid [numword s.par fs])) ∧
    (∀ a d u r,
        s.par.fmt.isFinite (numword s.par a) = false ∨ s.par.fmt.isFinite (numword s.par d) = false ∨
          s.par.fmt.isFinite (numword s.par u) = false ∨ s.par.fmt.isFinite (numword s.par r) = false →
        exec (.setAdsr a d u r) s
          = .fault (.numInvalid [numword s.par a, numword s.par d, numword s.par u, numword s.par r])) ∧
    (∀ note vel, s.par.fmt.isFinite (numword s.par vel) = false →
      exec (.noteOn note vel) s = .fault (.numInvalid [numword s.par vel])) ∧
    (∀ t note vel, s.par.fmt.isFinite (numword s.par vel) = false →
      exec (.noteOff t note vel) s = .fault (.numInvalid [numword s.par vel])) ∧
    (∀ k h f0 fs x,
      buildWords s.par.fmt s.par.tableSize k h.toNat (numword s.par f0) (numword s.par fs) = .error x →
        s.par.fmt.isFinite x = false ∧ exec (.build k h f0 fs) s = .fault (.numInvalid [x])) ∧
    (s.par.num = .f32 →
      (∀ k h f0 fs, F32.isFinite fs = false →
        exec (.build k h f0 fs) s = .fault (.numInvalid [.f32 (F32.div fs (F32.ofInt 2))])) ∧
      (∀ k h f0 fs, F32.isFinite fs = true → 1 ≤ h.toNat → F32.isFinite f0 = false →
        exec (.build k h f0 fs) s = .fault (.numInvalid [.f32 (F32.mul f0 (F32.ofInt 1))])) ∧
      (s.par.fBuild = .f32 0x7F800000#32 →
        (F32.isFinite s.cfg.fs.bits = true → 1 ≤ s.cfg.harm.toNat →
          exec .rebuildAll s = .fault (.numInvalid [.f32 0x7F800000#32])) ∧
        (F32.isFinite s.cfg.fs.bits = true → s.prepared = true → ∀ n,
          exec (.setHarm n) s = .fault (.numInvalid [.f32 0x7F800000#32])) ∧
        ∀ mb fs, F32.isFinite fs = true → F32.lt 0#32 fs = true → 1 ≤ mb.toNat → mb.toNat ≤ s.par.bufLen →
          1 ≤ s.cfg.harm.toNat → exec (.prepare mb fs) s = .fault (.numInvalid [.f32 0x7F800000#32])))

/-! ### Note commands -/

/-- NOTE_ON while prepared takes the first idle voice and starts it as `voice_note_on` says: the note, the gain, the
kind, the increments, the live slots and the attack stage; every other voice and every other register is unchanged, in
every number format (R276, R223, R281 (b)). -/
def Obligations.NoteOnStartsTheFirstIdleVoice : Prop :=
  ∀ (s : State) (note : BitVec 7) (w : Word) (v : Nat) (x : Voice) (F : NumFmt NumWord) (vel : NumWord),
    F = s.par.fmt → vel = numword s.par w → F.isFinite vel = true → s.prepared = true →
    s.voices[v]? = some x → x.busy = false → x.subs.length = 8 →
    (∀ u y, u < v → s.voices[u]? = some y → y.busy = true) →
    ∃ t y, exec (.noteOn note w) s = .next t ∧ t.voices = s.voices.set v y ∧
      t = { s with voices := t.voices, rnd := t.rnd } ∧
      y.busy = true ∧ y.note = note ∧ y.kind = s.cfg.wave ∧
      y.gain = F.mul (if F.lt vel (F.lit 0 0) then F.lit 0 0 else if F.gt vel (F.lit 1 0) then F.lit 1 0 else vel)
        (F.lit 15 2) ∧
      y.env = { stage := .attack, level := F.ofInt 0, relDec := x.env.relDec } ∧
      y.main.inc = F.mul (F.midi note) (F.div (F.ofInt s.par.tableSize) s.cfg.fs) ∧
      y.main.phase = (s.rnd.draw F s.par.tableSize).1 ∧ y.subs.length = 8 ∧
      t.rnd.taken = s.rnd.taken + 1 + (y.subs.filter Slot.live).length ∧
      ∀ i : BitVec 3,
        (y.subs.getD i.toNat default).live
            = (decide (i.toNat < s.cfg.sub.toNat)
                && F.lt (F.div (F.midi note) (F.ofInt ((i.toNat : Int) + 2))) (F.div s.cfg.fs (F.ofInt 2))) ∧
          ((y.subs.getD i.toNat default).live = true →
            (y.osc (.sub i)).inc
              = F.mul (F.div (F.midi note) (F.ofInt ((i.toNat : Int) + 2)))
                  (F.div (F.ofInt s.par.tableSize) s.cfg.fs)) ∧
          ((y.subs.getD i.toNat default).live = false → y.osc (.sub i) = x.osc (.sub i))

/-- NOTE_ON and RENDER while not prepared are `CV2`, whatever the frames asked for; RENDER while prepared of a region
that leaves the buffer or is longer than the prepared block size is `CV4` (R252, R276, R280, R302, R304). -/
def Obligations.CommandsOutsideTheContractStop : Prop :=
  ∀ s : State,
    (s.prepared = false →
      (∀ note vel, s.par.fmt.isFinite (numword s.par vel) = true →
        exec (.noteOn note vel) s = .fault (.notPrepared .noteOn)) ∧
      ∀ start num, exec (.render start num) s = .fault (.notPrepared .render)) ∧
    (s.prepared = true → ∀ start num : BitVec 16,
      s.par.bufLen < start.toNat + num.toNat ∨ s.cfg.maxblk.toNat < num.toNat →
      exec (.render start num) s = .fault (.renderRange start num))

/-- NOTE_OFF releases the first busy voice that holds the note, whatever its stage: a release step is latched from the
level held and the stage becomes release, unless it is release already; neither the velocity nor T matters, and
nothing else changes (R277, R224, R193). That the step is the level itself where that is zero, whatever `R * FS` rounds
to, is R193's corner case as the model reads it (log entry 22). -/
def Obligations.NoteOffReleasesTheFirstHolder : Prop :=
  ∀ (s : State) (t : Bool) (note : BitVec 7) (vel : Word) (v : Nat) (x : Voice) (F : NumFmt NumWord),
    F = s.par.fmt → F.isFinite (numword s.par vel) = true →
    s.voices[v]? = some x → x.busy = true → x.note = note →
    (∀ u y, u < v → s.voices[u]? = some y → ¬ (y.busy = true ∧ y.note = note)) →
    (x.env.stage = .attack ∨ x.env.stage = .decay ∨ x.env.stage = .sustain →
      exec (.noteOff t note vel) s = .next { s with
        voices := s.voices.set v { x with
          env := { stage := .release, level := x.env.level
                   relDec := if F.eq x.env.level (F.ofInt 0) then x.env.level
                     else F.div x.env.level (F.mul s.cfg.r s.cfg.fs) } } }) ∧
    (x.env.stage = .release ∨ x.env.stage = .idle → exec (.noteOff t note vel) s = .next s)

/-- NOTE_ON with no idle voice is dropped, and NOTE_OFF of a note no busy voice holds is a no-op, prepared or not:
nothing changes and no draw is consumed (R276, R277, R281 (a)). -/
def Obligations.NotesWithNoVoiceToTakeChangeNothing : Prop :=
  ∀ (s : State) (note : BitVec 7) (vel : Word), s.par.fmt.isFinite (numword s.par vel) = true →
    (s.prepared = true → (∀ x ∈ s.voices, x.busy = true) → exec (.noteOn note vel) s = .next s) ∧
    ∀ t, (∀ x ∈ s.voices, ¬ (x.busy = true ∧ x.note = note)) → exec (.noteOff t note vel) s = .next s

/-! ### RENDER -/

/-- RENDER inside the contract runs to its end whenever every busy voice's phases and increments are in range (under
`NUM_F32`). Only voices and the frames of the region change; a voice keeps its note, gain, kind and increments, an idle
voice keeps everything, and no voice becomes busy (R252, R225, R65, R164, R228 (a)). When a busy voice's first
read is out of the table, RENDER of at least one frame is `CV5` with its kind and that phase, provided the busy voices
before it can be rendered (under `NUM_F32`) or there are none (in every format) (R181, R302, R304). -/
def Obligations.RenderRunsToItsEnd : Prop :=
  ∀ (s : State) (start num : BitVec 16), s.prepared = true →
    start.toNat + num.toNat ≤ s.par.bufLen → num.toNat ≤ s.cfg.maxblk.toNat →
    (s.par.num = .f32 → 0 < s.par.tableSize → s.par.tableSize ≤ 2 ^ 24 →
      (∀ x ∈ s.voices, x.busy = true → VoiceRenderable s.par.tableSize x) →
      ∃ t, exec (.render start num) s = .next t ∧ SameButVoicesAndBuf s t ∧
        BufSameOutside s t start.toNat (start.toNat + num.toNat) ∧ t.voices.length = s.voices.length ∧
        ∀ (v : Nat) (x y : Voice), s.voices[v]? = some x → t.voices[v]? = some y →
          y.note = x.note ∧ y.gain = x.gain ∧ y.kind = x.kind ∧ y.main.inc = x.main.inc ∧
            y.subs.map (fun sl => sl.osc.inc) = x.subs.map (fun sl => sl.osc.inc) ∧
            (x.busy = false → y = x) ∧ (y.busy = true → x.busy = true)) ∧
    (s.par.num = .f32 → 0 < s.par.tableSize → s.par.tableSize ≤ 2 ^ 24 → 0 < num.toNat →
      ∀ (v : Nat) (x : Voice) (phase : NumWord), s.voices[v]? = some x → x.busy = true →
        FirstPhaseOutside s x phase →
        (∀ u y, u < v → s.voices[u]? = some y → y.busy = true → VoiceRenderable s.par.tableSize y) →
        exec (.render start num) s = .fault (.phaseRange x.kind phase)) ∧
    (0 < num.toNat → ∀ (v : Nat) (x : Voice) (phase : NumWord), s.voices[v]? = some x → x.busy = true →
        FirstPhaseOutside s x phase → (∀ u y, u < v → s.voices[u]? = some y → y.busy = false) →
        exec (.render start num) s = .fault (.phaseRange x.kind phase))

/-- RENDER with no busy voice clears the region to zero in every channel and changes nothing else; RENDER of no frames
with a legal start changes nothing at all, whatever the voices do (R252, R251). -/
def Obligations.RenderOfSilenceClearsTheRegion : Prop :=
  (∀ (s : State) (start num : BitVec 16), s.prepared = true → start.toNat + num.toNat ≤ s.par.bufLen →
    num.toNat ≤ s.cfg.maxblk.toNat → (∀ x ∈ s.voices, x.busy = false) →
    ∃ t, exec (.render start num) s = .next t ∧ t = { s with buf := t.buf } ∧
      BufSameOutside s t start.toNat (start.toNat + num.toNat) ∧
      ∀ c a, c < s.par.channels → start.toNat ≤ a → a < start.toNat + num.toNat →
        bufRead t t.buf c a = s.par.fmt.ofInt 0) ∧
  ∀ (s : State) (start : BitVec 16), s.prepared = true → start.toNat ≤ s.par.bufLen →
    exec (.render start 0#16) s = .next s

/-- After a RENDER all channels of the region are identical (R255). -/
def Obligations.RenderLeavesAllChannelsIdentical : Prop :=
  ∀ (s t : State) (start num : BitVec 16), exec (.render start num) s = .next t →
    ∀ c a, c < s.par.channels → start.toNat ≤ a → a < start.toNat + num.toNat →
      bufRead t t.buf c a = bufRead t t.buf 0 a

/-- Successive renders continue each voice where the last one left it: rendering `m` frames and then the next `n`
leaves the voices and every word of the buffer as one render of `m + n` frames does (R252, R343). -/
def Obligations.SplitRenderEqualsOneRender : Prop :=
  ∀ (s t u : State) (start m n : BitVec 16), start.toNat + m.toNat + n.toNat < 2 ^ 16 →
    m.toNat + n.toNat ≤ s.cfg.maxblk.toNat →
    exec (.render start m) s = .next t → exec (.render (start + m) n) t = .next u →
    ∃ w, exec (.render start (m + n)) s = .next w ∧ w.voices = u.voices ∧
      (∀ c a, c < s.par.channels → a < s.par.bufLen → bufRead w w.buf c a = bufRead u u.buf c a) ∧
      w = { u with buf := w.buf }

/-- What one rendered frame holds in every channel: the outputs of the busy voices, added to the cleared word in
ascending index (R252, R253, R254), each `((m + s) * e) * GAIN` with `m` the interpolated word of the main oscillator,
`s` the sum of the live slots' words in ascending index with the weights `0.5 / (i + 2)`, and `e` the envelope's next
value (R225, R181, R194). Each busy voice advances by exactly one sample and is freed if its envelope finished, and an
idle voice is unchanged. With one busy voice in the pool the frame is that voice's output alone. -/
def Obligations.RenderOfOneFrameSumsTheBusyVoices : Prop :=
  ∀ (s : State) (start : BitVec 16), s.prepared = true → start.toNat < s.par.bufLen → 1 ≤ s.cfg.maxblk.toNat →
    (∀ x ∈ s.voices, x.busy = true → VoiceReadable s x) →
    ∃ t, exec (.render start 1#16) s = .next t ∧ SameButVoicesAndBuf s t ∧
      BufSameOutside s t start.toNat (start.toNat + 1) ∧
      t.voices = s.voices.map (fun x => if x.busy then voiceLater s x else x) ∧
      (∀ c, c < s.par.channels →
        bufRead t t.buf c start.toNat
          = (s.voices.filter Voice.busy).foldl (fun acc x => s.par.fmt.add acc (voiceOutput s x))
              (s.par.fmt.ofInt 0)) ∧
      ∀ (v : Nat) (x : Voice), s.voices[v]? = some x → x.busy = true →
        (∀ u y, u ≠ v → s.voices[u]? = some y → y.busy = false) →
        t.voices = s.voices.set v (voiceLater s x) ∧
          ∀ c, c < s.par.channels →
            bufRead t t.buf c start.toNat = s.par.fmt.add (s.par.fmt.ofInt 0) (voiceOutput s x)

/-! ### wavetable_builder -/

/-- Under `NUM_F32`, on operands of entry U4's range, the operation `build` replaces one table as a whole: `N + 1`
words at indices 0 to `N`, the guard a copy of index 0, and the attributes; every other table, register and sample is
unchanged (R131, R138, R62). The operation `rebuild_all` builds the four kinds with `CFG.HARM`, `F_BUILD` and `CFG.FS`
(R140). -/
def Obligations.BuildReplacesOneWholeTable : Prop :=
  (∀ (s : State) (k : Kind) (h : BitVec 5) (f0 fs : Word), s.par.num = .f32 → h.toNat ≤ 16 →
    BuildInRange s.par.tableSize (.f32 f0) (.f32 fs) →
    ∃ t words, exec (.build k h f0 fs) s = .next t ∧
      buildWords numF32 s.par.tableSize k h.toNat (.f32 f0) (.f32 fs) = .ok words ∧ words.length = s.par.tableSize + 1 ∧
      (∀ i x, words[i]? = some x → tblRead t k i = x) ∧
      tblRead t k s.par.tableSize = tblRead t k 0 ∧ t.tblAttr.get k = { h := h, fs := .f32 fs } ∧
      (∀ k', k' ≠ k → t.tbl.get k' = s.tbl.get k' ∧ t.tblAttr.get k' = s.tblAttr.get k') ∧
      t = { s with tbl := t.tbl, tblAttr := t.tblAttr }) ∧
  ∀ s : State, s.par.num = .f32 → s.cfg.harm.toNat ≤ 16 → BuildInRange s.par.tableSize s.par.fBuild s.cfg.fs →
    ∃ t, exec .rebuildAll s = .next t ∧
      (∀ k, ∃ words,
        buildWords numF32 s.par.tableSize k s.cfg.harm.toNat s.par.fBuild s.cfg.fs = .ok words ∧
          t.tbl.get k = Mem.fromWords 0 words ∧ t.tblAttr.get k = { h := s.cfg.harm, fs := s.cfg.fs }) ∧
      t = { s with tbl := t.tbl, tblAttr := t.tblAttr }

/-- A table built under `NUM_F32` is all zero or has peak exactly 1: no word's magnitude is above 1.0 and some word
below the guard is exactly 1 or exactly -1; its first word, and so its guard, is zero (R137, R138, R38 (c)). -/
def Obligations.BuiltTableIsSilentOrPeaksAtExactlyOne : Prop :=
  ∀ (tableSize : Nat) (k : Kind) (harm : Nat) (f0 fs : NumWord) (words : List NumWord), 0 < tableSize →
    buildWords numF32 tableSize k harm f0 fs = .ok words →
    words.length = tableSize + 1 ∧ words[tableSize]? = words[0]? ∧
      (∀ w, words[0]? = some w → F32.eq w.bits 0x00000000#32 = true) ∧
      ((∀ w ∈ words, F32.eq w.bits 0x00000000#32 = true) ∨
        ((∀ w ∈ words, F32.le (F32.abs w.bits) 0x3F800000#32 = true) ∧
          ∃ i w, i < tableSize ∧ words[i]? = some w ∧ (w = .f32 0x3F800000#32 ∨ w = .f32 0xBF800000#32)))

/-- A fundamental at or above half the rate gives a silent table of every kind, guard included, under `NUM_F32`
(R139 (a), R136). -/
def Obligations.FundamentalAtNyquistGivesASilentTable : Prop :=
  ∀ (tableSize : Nat) (k : Kind) (harm : Nat) (f0 fs : NumWord), 0 < tableSize → F32.isFinite f0.bits = true →
    F32.isFinite fs.bits = true → F32.le (F32.div fs.bits (F32.ofInt 2)) f0.bits = true →
    buildWords numF32 tableSize k harm f0 fs = .ok (List.replicate (tableSize + 1) (.f32 0x00000000#32))

/-- Under `NUM_REAL` a table is the sum of the partials below Nyquist, an initial run of the ordinals, divided by its
peak when that is above 0 (R131 to R138). The last clause is the model's and no part of those rules: a format of number
words that is `NUM_REAL` builds those very values, such formats being how the model holds `NUM_REAL` (log entry 1). -/
def Obligations.RealTableIsTheNormalizedPartialSum : Prop :=
  (∀ (tableSize : Nat) (k : Kind) (harm : Nat) (f0 fs : ℝ), 0 < tableSize →
    ∃ (words : List ℝ) (count : Nat) (peak : ℝ),
      buildWords numReal tableSize k harm f0 fs = .ok words ∧ words.length = tableSize + 1 ∧ count ≤ harm ∧
      (∀ n, 1 ≤ n → n ≤ count → f0 * (harmonicNumber k n : ℝ) < fs / 2) ∧
      (count < harm → fs / 2 ≤ f0 * (harmonicNumber k (count + 1) : ℝ)) ∧
      (∀ i, i < tableSize → |realSum k tableSize count i| ≤ peak) ∧
      (∃ i, i < tableSize ∧ |realSum k tableSize count i| = peak) ∧
      (∀ i, i < tableSize →
        words[i]? = some (if 0 < peak then realSum k tableSize count i / peak else realSum k tableSize count i)) ∧
      words[tableSize]? = words[0]?) ∧
  ∀ (F : NumFmt NumWord) (val : NumWord → ℝ), ReadsReal F val →
    ∀ (tableSize : Nat) (k : Kind) (harm : Nat) (f0 fs : NumWord), ∃ words : List NumWord,
      buildWords F tableSize k harm f0 fs = .ok words ∧
        buildWords numReal tableSize k harm (val f0) (val fs) = .ok (words.map val)

/-! ### phase_accumulator and interpolating_table_reader -/

/-- Four oscillator register operations complete on every voice that exists and write what their rules say, in the one
oscillator named and in every number format: `osc_set_freq` the increment, `osc_advance` the phase with at most one
subtraction, `osc_stop` a zero increment, `osc_reset` a zero phase (R161, R163, R165, R166). -/
def Obligations.OscillatorOperationsWriteOneOscillator : Prop :=
  ∀ (s : State) (v : Nat) (o : OscSel) (x : Voice) (F : NumFmt NumWord), F = s.par.fmt → s.voices[v]? = some x →
    x.subs.length = 8 →
    (∀ freq fs, ∃ y, exec (.oscSetFreq v o freq fs) s = .next { s with voices := s.voices.set v y } ∧
        SameButOsc x y o ∧
        y.osc o
          = { phase := (x.osc o).phase
              inc := F.mul (numword s.par freq) (F.div (F.ofInt s.par.tableSize) (numword s.par fs)) }) ∧
    (∃ y, exec (.oscAdvance v o) s = .next { s with voices := s.voices.set v y } ∧ SameButOsc x y o ∧
        (y.osc o).inc = (x.osc o).inc ∧
        (y.osc o).phase
          = if F.ge (F.add (x.osc o).phase (x.osc o).inc) (F.ofInt s.par.tableSize) then
              F.sub (F.add (x.osc o).phase (x.osc o).inc) (F.ofInt s.par.tableSize)
            else F.add (x.osc o).phase (x.osc o).inc) ∧
    (∃ y, exec (.oscStop v o) s = .next { s with voices := s.voices.set v y } ∧ SameButOsc x y o ∧
        y.osc o = { phase := (x.osc o).phase, inc := F.ofInt 0 }) ∧
    ∃ y, exec (.oscReset v o) s = .next { s with voices := s.voices.set v y } ∧ SameButOsc x y o ∧
        y.osc o = { phase := F.ofInt 0, inc := (x.osc o).inc }

/-- Under `NUM_F32` the operation `osc_set_random_phase` takes one draw (R162, R15); the increment is unchanged. That
the phase is the oldest value offered on `rnd_data`, taken as it stands even outside the range R15 requires of it, and
any number of the range `0 <= r < num(N)` when none is offered, is the model's form of the draws (log entry 6, entry
U16). -/
def Obligations.RandomPhaseTakesOneDraw : Prop :=
  ∀ (s : State) (v : Nat) (o : OscSel) (x : Voice), s.par.num = .f32 → s.voices[v]? = some x → x.subs.length = 8 →
    0 < s.par.tableSize → s.par.tableSize ≤ 2 ^ 24 →
    ∃ t y, exec (.oscSetRandomPhase v o) s = .next t ∧ t = { s with voices := s.voices.set v y, rnd := t.rnd } ∧
      SameButOsc x y o ∧ (y.osc o).inc = (x.osc o).inc ∧ t.rnd.taken = s.rnd.taken + 1 ∧
      (∀ r rest, s.rnd.offered = r :: rest → (y.osc o).phase = r ∧ t.rnd.offered = rest) ∧
      (s.rnd.offered = [] → PhaseInTable s.par.tableSize (y.osc o) ∧ t.rnd.offered = [])

/-- The range invariant of a phase (R164), under `NUM_REAL` for every table length and under `NUM_F32` for every table
length the format holds exactly: advancing keeps `0 <= PHASE < num(N)` when the increment meets its precondition;
`osc_reset` and a legal draw establish the range; `osc_set_freq`, of positive finite operands, and `osc_stop` keep
`INC >= 0`. -/
def Obligations.AdvanceKeepsThePhaseInTheTable : Prop :=
  (∀ (tableSize : Nat) (o : OscOf ℝ), 0 < tableSize →
    (0 ≤ o.phase → o.phase < tableSize → 0 ≤ o.inc → o.inc < tableSize →
      0 ≤ (advance numReal tableSize o).phase ∧ (advance numReal tableSize o).phase < tableSize) ∧
    (resetOsc numReal o).phase = 0 ∧ (stopOsc numReal o).inc = 0 ∧
    ∀ freq fs : ℝ, 0 < freq → 0 < fs → 0 ≤ (setFreq numReal tableSize o freq fs).inc) ∧
  ∀ (tableSize : Nat) (o : Osc), 0 < tableSize → tableSize ≤ 2 ^ 24 →
    (PhaseInTable tableSize o → IncrementLegal tableSize o → PhaseInTable tableSize (advance numF32 tableSize o)) ∧
    PhaseInTable tableSize (resetOsc numF32 o) ∧
    (∀ r, drawLegal numF32 tableSize r = true → PhaseInTable tableSize { o with phase := r }) ∧
    F32.le 0#32 (stopOsc numF32 o).inc.bits = true ∧
    ∀ freq fs : NumWord, F32.isFinite freq.bits = true → F32.isFinite fs.bits = true → F32.lt 0#32 freq.bits = true →
      F32.lt 0#32 fs.bits = true → F32.le 0#32 (setFreq numF32 tableSize o freq fs).inc.bits = true

/-- The operation `tbl_interp` on a finite phase, in every number format: with a whole part that is a table index below
`N` it answers the linear interpolant of the two words around it and writes no state of the block; else it is `CV5` with
the kind and the phase (R181, R302). That the answer goes to the register `ret` is the model's, which R181 does not have
(log entry 2). -/
def Obligations.TableReadInterpolatesOrIsCV5 : Prop :=
  ∀ (s : State) (k : Kind) (w : Word) (F : NumFmt NumWord) (phase : NumWord), F = s.par.fmt →
    phase = numword s.par w → F.isFinite phase = true →
    (∀ j : Nat, F.floor phase = (j : Int) → j < s.par.tableSize →
      exec (.tblInterp k w) s = .next { s with
        ret := F.add (tblRead s k j)
          (F.mul (F.sub phase (F.ofInt j)) (F.sub (tblRead s k (j + 1)) (tblRead s k j))) }) ∧
    (F.floor phase < 0 ∨ (s.par.tableSize : Int) - 1 < F.floor phase →
      exec (.tblInterp k w) s = .fault (.phaseRange k phase))

/-- The operation `osc_next_sample` answers the value read at the phase held before the advance, then advances; a phase
outside the table is `CV5` with the kind asked for and the phase (R167, R163, R181, R302). That the answer goes to the
register `ret` is the model's (log entry 2). -/
def Obligations.NextSampleReadsThenAdvances : Prop :=
  ∀ (s : State) (v : Nat) (o : OscSel) (k : Kind) (x : Voice) (F : NumFmt NumWord), F = s.par.fmt →
    s.voices[v]? = some x →
    (∀ j : Nat, x.subs.length = 8 → F.isFinite (x.osc o).phase = true → F.floor (x.osc o).phase = (j : Int) →
      j < s.par.tableSize →
      ∃ y, exec (.oscNextSample v o k) s = .next { s with
            voices := s.voices.set v y
            ret := F.add (tblRead s k j)
              (F.mul (F.sub (x.osc o).phase (F.ofInt j)) (F.sub (tblRead s k (j + 1)) (tblRead s k j))) } ∧
        SameButOsc x y o ∧ (y.osc o).inc = (x.osc o).inc ∧
        (y.osc o).phase
          = if F.ge (F.add (x.osc o).phase (x.osc o).inc) (F.ofInt s.par.tableSize) then
              F.sub (F.add (x.osc o).phase (x.osc o).inc) (F.ofInt s.par.tableSize)
            else F.add (x.osc o).phase (x.osc o).inc) ∧
    (PhaseOutside s (x.osc o).phase →
      exec (.oscNextSample v o k) s = .fault (.phaseRange k (x.osc o).phase))

/-- Under `NUM_REAL` the interpolant with a fraction of 0 to 1 lies between its two words, so for a built table every
value the reader returns, at every phase in the table, has absolute value at most 1 (R182). -/
def Obligations.RealInterpolantLiesBetweenItsWords : Prop :=
  (∀ a b frac : ℝ, 0 ≤ frac → frac < 1 → min a b ≤ lerp numReal a b frac ∧ lerp numReal a b frac ≤ max a b) ∧
    ∀ (tableSize : Nat) (k : Kind) (harm : Nat) (f0 fs : ℝ), 0 < tableSize →
      ∃ words : List ℝ, buildWords numReal tableSize k harm f0 fs = .ok words ∧
        ∀ phase : ℝ, 0 ≤ phase → phase < tableSize →
          ∃ (j : Nat) (a b : ℝ), numReal.floor phase = (j : Int) ∧ words[j]? = some a ∧ words[j + 1]? = some b ∧
            |lerp numReal a b (phase - (j : ℝ))| ≤ 1

/-- The interpolation is the identity at integer phases: for an index `j` below `N`, reading at `num(j)` gives the
table's own word, under `NUM_F32` for every table of numbers of magnitude at most 1 (R183). -/
def Obligations.ReadingAtAnIntegerPhaseIsTheTableWord : Prop :=
  ∀ (s : State) (k : Kind) (j : Nat), s.par.num = .f32 → j < s.par.tableSize → s.par.tableSize ≤ 2 ^ 24 →
    F32.inUnit (tblRead s k j).bits = true → F32.inUnit (tblRead s k (j + 1)).bits = true →
    ∃ t, exec (.tblInterp k (F32.ofInt j)) s = .next t ∧ F32.eq t.ret.bits (tblRead s k j).bits = true

/-! ### envelope_generator -/

/-- The operations `env_rates`, `env_trigger` and `env_reset` complete and write what their rules say, in every number
format (R191, R192, R196; log entry 22 for the decay step at sustain level 1). -/
def Obligations.EnvelopeRatesTriggerAndReset : Prop :=
  (∀ (s : State) (F : NumFmt NumWord), F = s.par.fmt → exec .envRates s = .next { s with
      atkInc := F.div (F.ofInt 1) (F.mul s.cfg.a s.cfg.fs)
      decDec := if F.eq (F.sub (F.ofInt 1) s.cfg.s) (F.ofInt 0) then F.sub (F.ofInt 1) s.cfg.s
        else F.div (F.sub (F.ofInt 1) s.cfg.s) (F.mul s.cfg.d s.cfg.fs) }) ∧
    ∀ (s : State) (v : Nat) (x : Voice), s.voices[v]? = some x →
      exec (.envTrigger v) s = .next { s with
        voices := s.voices.set v { x with
          env := { stage := .attack, level := s.par.fmt.ofInt 0, relDec := x.env.relDec } } } ∧
      exec (.envReset v) s = .next { s with
        voices := s.voices.set v { x with
          env := { stage := .idle, level := s.par.fmt.ofInt 0, relDec := x.env.relDec } } }

/-- The operation `env_release` latches the release step from the level held in the attack, decay and sustain stages,
and does nothing in the idle and release stages, in every number format; from level 0 the step is 0 (R193, whose corner
case says so whatever `R * FS` rounds to: log entry 22). -/
def Obligations.EnvelopeReleaseLatchesItsStep : Prop :=
  ∀ (s : State) (v : Nat) (x : Voice) (F : NumFmt NumWord), F = s.par.fmt → s.voices[v]? = some x →
    (x.env.stage = .attack ∨ x.env.stage = .decay ∨ x.env.stage = .sustain →
      exec (.envRelease v) s = .next { s with
        voices := s.voices.set v { x with
          env := { stage := .release, level := x.env.level
                   relDec := if F.eq x.env.level (F.ofInt 0) then x.env.level
                     else F.div x.env.level (F.mul s.cfg.r s.cfg.fs) } } }) ∧
    (x.env.stage = .idle ∨ x.env.stage = .release → exec (.envRelease v) s = .next s)

/-- The operation `env_next`, stage by stage and in every number format: the level after one sample, the stage after it,
and the value returned, which is the level after the update, and zero while idle (R194). That it goes to the register
`ret` is the model's (log entry 2). -/
def Obligations.EnvelopeNextFollowsTheRampLaw : Prop :=
  ∀ (s : State) (v : Nat) (x : Voice) (F : NumFmt NumWord), F = s.par.fmt → s.voices[v]? = some x →
    ∃ stage level, exec (.envNext v) s = .next { s with
        voices := s.voices.set v { x with env := { stage := stage, level := level, relDec := x.env.relDec } }
        ret := if x.env.stage = .idle then F.ofInt 0 else level } ∧
      (x.env.stage = .idle → stage = .idle ∧ level = x.env.level) ∧
      (x.env.stage = .attack →
        if F.ge (F.add x.env.level s.atkInc) (F.ofInt 1) then stage = .decay ∧ level = F.ofInt 1
        else stage = .attack ∧ level = F.add x.env.level s.atkInc) ∧
      (x.env.stage = .decay →
        if F.le (F.sub x.env.level s.decDec) s.cfg.s then stage = .sustain ∧ level = s.cfg.s
        else stage = .decay ∧ level = F.sub x.env.level s.decDec) ∧
      (x.env.stage = .sustain → stage = .sustain ∧ level = s.cfg.s) ∧
      (x.env.stage = .release →
        if F.le (F.sub x.env.level x.env.relDec) (F.ofInt 0) then stage = .idle ∧ level = F.ofInt 0
        else stage = .release ∧ level = F.sub x.env.level x.env.relDec)

/-- Segment lengths under `NUM_REAL`, in calls of `env_next` (R197): the attack leaves on call `ceil(A * FS)` at level
1; the decay takes `ceil(D * FS)` calls from 1 to a sustain level below 1, and one call for a sustain level of 1; the
sustain holds; the release from a level above 0 takes `ceil(R * FS)` calls, and one call from level 0. The last clause is
the model's and no part of R197: a format of number words that is `NUM_REAL` goes through the same stages and levels, such
formats being how the model holds `NUM_REAL` (log entry 1). -/
def Obligations.RealSegmentLengths : Prop :=
  (∀ a d sus r fs rel : ℝ, 0 < a → 0 < d → 0 ≤ sus → sus ≤ 1 → 0 < r → 0 < fs →
    let run := envAfter numReal (attackRate numReal a fs) (decayRate numReal d sus fs) sus
    (∀ j, j < ⌈a * fs⌉₊ → (run (envTrigger numReal ⟨.idle, 0, rel⟩) j).stage = .attack) ∧
    run (envTrigger numReal ⟨.idle, 0, rel⟩) ⌈a * fs⌉₊ = ⟨.decay, 1, rel⟩ ∧
    (sus < 1 → (∀ j, j < ⌈d * fs⌉₊ → (run ⟨.decay, 1, rel⟩ j).stage = .decay) ∧
      run ⟨.decay, 1, rel⟩ ⌈d * fs⌉₊ = ⟨.sustain, sus, rel⟩) ∧
    (sus = 1 → run ⟨.decay, 1, rel⟩ 1 = ⟨.sustain, 1, rel⟩) ∧
    (∀ j, run ⟨.sustain, sus, rel⟩ j = ⟨.sustain, sus, rel⟩) ∧
    ∀ level, 0 ≤ level → ∀ stage, stage = .attack ∨ stage = .decay ∨ stage = .sustain →
      (0 < level → (∀ j, j < ⌈r * fs⌉₊ → (run (envRelease numReal r fs ⟨stage, level, rel⟩) j).stage = .release) ∧
        (run (envRelease numReal r fs ⟨stage, level, rel⟩) ⌈r * fs⌉₊).stage = .idle ∧
        (run (envRelease numReal r fs ⟨stage, level, rel⟩) ⌈r * fs⌉₊).level = 0) ∧
      (level = 0 → (run (envRelease numReal r fs ⟨stage, level, rel⟩) 1).stage = .idle)) ∧
  ∀ (F : NumFmt NumWord) (val : NumWord → ℝ), ReadsReal F val → ∀ (inc dec sus : NumWord) (e : Env) (j : Nat),
    let r := envAfter F inc dec sus e j
    let q := envAfter numReal (val inc) (val dec) (val sus) ⟨e.stage, val e.level, val e.relDec⟩ j
    r.stage = q.stage ∧ val r.level = q.level

/-! ### Voice control, mixer and buffer -/

/-- The operation `voice_note_on` completes on every voice that exists, busy or not, and starts it (R223): it becomes
busy in the attack stage with the note, the kind and the gain given, and only that voice and the random source
change, in every number format. -/
def Obligations.VoiceNoteOnStartsTheVoice : Prop :=
  ∀ (s : State) (v : Nat) (note : BitVec 7) (vel : Word) (k : Kind) (sc : BitVec 16) (x : Voice) (F : NumFmt NumWord),
    F = s.par.fmt → s.voices[v]? = some x → ∃ t y, exec (.voiceNoteOn v note vel k sc) s = .next t ∧
      t = { s with voices := s.voices.set v y, rnd := t.rnd } ∧ y.busy = true ∧ y.note = note ∧ y.kind = k ∧
      y.gain = F.mul (numword s.par vel) (F.lit 15 2) ∧
      y.env = { stage := .attack, level := F.ofInt 0, relDec := x.env.relDec } ∧
      y.main.inc = F.mul (F.midi note) (F.div (F.ofInt s.par.tableSize) s.cfg.fs) ∧
      y.main.phase = (s.rnd.draw F s.par.tableSize).1 ∧ y.subs.length = x.subs.length ∧
      (∀ (i : Nat) (sl : Slot), y.subs[i]? = some sl →
        (sl.live = true ↔
          (i : Int) < max 0 (min 8 sc.toInt) ∧
            F.lt (F.div (F.midi note) (F.ofInt ((i : Int) + 2))) (F.div s.cfg.fs (F.ofInt 2)) = true)) ∧
      t.rnd.taken = s.rnd.taken + 1 + (y.subs.filter Slot.live).length

/-- The draws of a started voice are taken from what the environment offers in the order of R348: the main oscillator's
first, then the live slots' in ascending index, one each. -/
def Obligations.DrawsGoToMainThenLiveSlotsInOrder : Prop :=
  ∀ (s t : State) (v : Nat) (note : BitVec 7) (vel : Word) (k : Kind) (sc : BitVec 16) (y : Voice),
    exec (.voiceNoteOn v note vel k sc) s = .next t → t.voices[v]? = some y → 9 ≤ s.rnd.offered.length →
    s.rnd.offered = y.main.phase :: ((y.subs.filter Slot.live).map (fun sl => sl.osc.phase) ++ t.rnd.offered)

/-- The operations `voice_note_off` and `voice_reset` complete on every voice that exists: the first changes only the
envelope as `env_release` does, whatever the velocity and the flag; the second makes the voice idle at level 0 with
no live slot and keeps its other registers (R224, R227). -/
def Obligations.VoiceNoteOffAndReset : Prop :=
  ∀ (s : State) (v : Nat) (x : Voice), s.voices[v]? = some x →
    (∀ vel t, exec (.voiceNoteOff v vel t) s = exec (.envRelease v) s ∧
      ∃ e, exec (.voiceNoteOff v vel t) s = .next { s with voices := s.voices.set v { x with env := e } } ∧
        e.level = x.env.level) ∧
    ∃ y, exec (.voiceReset v) s = .next { s with voices := s.voices.set v y } ∧ VoiceAtRest s.par.fmt y ∧
      y.note = x.note ∧ y.gain = x.gain ∧ y.kind = x.kind ∧ y.main = x.main ∧ y.env.relDec = x.env.relDec ∧
      y.subs.map Slot.osc = x.subs.map Slot.osc

/-- The operation `voice_render` of an existing voice inside the buffer runs to its end when the voice's phases and
increments are in range (under `NUM_F32`), and changes only that voice and the frames of its region; an idle voice reads
and writes nothing; a busy voice whose first read is out of the table is `CV5` with its kind and that phase as soon as
there is a frame to render (R225, R181, R302). -/
def Obligations.VoiceRenderRunsToItsEnd : Prop :=
  ∀ (s : State) (v : Nat) (start num : BitVec 16) (x : Voice), s.voices[v]? = some x →
    (x.busy = false → exec (.voiceRender v start num) s = .next s) ∧
    (s.par.num = .f32 → 0 < s.par.tableSize → s.par.tableSize ≤ 2 ^ 24 → start.toNat + num.toNat ≤ s.par.bufLen →
      x.busy = true → VoiceRenderable s.par.tableSize x →
      ∃ t, exec (.voiceRender v start num) s = .next t ∧ SameButVoicesAndBuf s t ∧
        t.voices.length = s.voices.length ∧ (∀ u, u ≠ v → t.voices[u]? = s.voices[u]?) ∧
        BufSameOutside s t start.toNat (start.toNat + num.toNat)) ∧
    ∀ phase, x.busy = true → 0 < num.toNat → FirstPhaseOutside s x phase →
      exec (.voiceRender v start num) s = .fault (.phaseRange x.kind phase)

/-- The operation `buf_clear` inside the buffer zeroes exactly its region in every channel (R251). -/
def Obligations.BufClearZeroesItsRegion : Prop :=
  ∀ (s : State) (start num : BitVec 16), start.toNat + num.toNat ≤ s.par.bufLen →
    ∃ t, exec (.bufClear start num) s = .next t ∧ t = { s with buf := t.buf } ∧
      BufSameOutside s t start.toNat (start.toNat + num.toNat) ∧
      ∀ c a, c < s.par.channels → start.toNat ≤ a → a < start.toNat + num.toNat →
        bufRead t t.buf c a = s.par.fmt.ofInt 0

/-- The operation `mix_acc` adds the sample to the frame's word in every channel and leaves every other word (R253). -/
def Obligations.MixAccAddsToEveryChannel : Prop :=
  ∀ (s : State) (a : Nat) (y : Word), a < s.par.bufLen →
    ∃ t, exec (.mixAcc a y) s = .next t ∧ t = { s with buf := t.buf } ∧ BufSameOutside s t a (a + 1) ∧
      ∀ c, c < s.par.channels → bufRead t t.buf c a = s.par.fmt.add (bufRead s s.buf c a) (numword s.par y)

/-- The model's choice, not a rule of the spec (log entries 5 and 14): an internal operation asked to act on a voice or
a frame that does not exist stops by name, and a table read at a phase that is no finite number is `CV5`. -/
def Obligations.MissingVoiceFrameOrPhaseStops : Prop :=
  ∀ s : State,
    (∀ v, s.voices[v]? = none → ∀ i : Instr,
      i ∈ [.envTrigger v, .envRelease v, .envNext v, .envReset v, .voiceReset v] ∨
        (∃ o, i ∈ [.oscAdvance v o, .oscStop v o, .oscReset v o, .oscSetRandomPhase v o]) ∨
        (∃ o f fs, i = .oscSetFreq v o f fs) ∨ (∃ o k, i = .oscNextSample v o k) ∨
        (∃ note vel k sc, i = .voiceNoteOn v note vel k sc) ∨ (∃ vel t, i = .voiceNoteOff v vel t) ∨
        (∃ start num, i = .voiceRender v start num) →
      exec i s = .fault (.noSuchVoice v)) ∧
    (∀ a y, s.par.bufLen ≤ a → exec (.mixAcc a y) s = .fault (.noSuchFrame a)) ∧
    (∀ start num : BitVec 16, 0 < num.toNat → s.par.bufLen ≤ start.toNat →
      exec (.bufClear start num) s = .fault (.noSuchFrame start.toNat)) ∧
    ∀ k phase, s.par.fmt.isFinite (numword s.par phase) = false →
      exec (.tblInterp k phase) s = .fault (.phaseRange k (numword s.par phase))

/-- `MIDI_FREQ` (R222): in every configuration entry 69 is the format's 440, which for a format other than `NUM_F32` is a
law the model deduced (log entry 1). Under `NUM_F32` every entry is a finite number than which no finite number lies
nearer to the tempered pitch, and every entry an octave above another is exactly twice it. -/
def Obligations.MidiFreqIsNearestTheTemperedPitch : Prop :=
  (∀ p : Params, p.fmt.midi 69#7 = p.fmt.lit 440 0) ∧
    (∀ n : BitVec 7, F32.isFinite (numF32.midi n).bits = true ∧
      ∀ x : NumWord, F32.isFinite x.bits = true →
        |f32Value (numF32.midi n) - numReal.midi n| ≤ |f32Value x - numReal.midi n|) ∧
    ∀ n : BitVec 7, n.toNat + 12 < 128 →
      numF32.midi (n + 12#7) = numF32.mul (numF32.ofInt 2) (numF32.midi n)

/-! ### Invariants every step keeps -/

/-- Every step keeps both memories within the addresses that exist (R61, R64) and in the model's canonical form,
strictly rising addresses (log entry 7). -/
def Obligations.StepKeepsMemoriesLegal : Prop :=
  ∀ s t : State, MemoriesLegal s → step s = .next t → MemoriesLegal t

/-- Every step keeps: while prepared, every table is whole and its guard equals index 0 (R33, R38 (c)). -/
def Obligations.StepKeepsTablesClosed : Prop :=
  ∀ s t : State, TablesClosed s → step s = .next t → TablesClosed t

/-- Under `NUM_F32` every step keeps the control registers legal (R30, R37 (d), R281 (d)). -/
def Obligations.StepKeepsControlLegal : Prop :=
  ∀ s t : State, ControlLegal s → step s = .next t → ControlLegal t

/-- Every step keeps: a voice is busy exactly when its envelope is not idle, a live slot's voice is busy, and a busy
voice means prepared (R37 (b), R38 (a), R38 (b)). -/
def Obligations.StepKeepsVoicesConsistent : Prop :=
  ∀ s t : State, VoicesConsistent s → step s = .next t → VoicesConsistent t

/-- Under `NUM_F32` every step keeps the phases of busy voices in the table, provided the increments met their
precondition (R38 (d)). -/
def Obligations.StepKeepsPhasesInRange : Prop :=
  ∀ s t : State, PhasesInRange s → step s = .next t → PhasesInRange t

/-- Under `NUM_F32` every step keeps every envelope level in 0 to 1 (R38 (e)), with the latched and shared steps it rests
on; at the least legal rates that needs the corner cases of R191 and R193 as the model reads them (log entry 22). -/
def Obligations.StepKeepsLevelsInRange : Prop :=
  ∀ s t : State, LevelsInRange s → step s = .next t → LevelsInRange t

/-- Every step keeps the parameters, the `P` voices and their eight slots each (R20, R22, R23). -/
def Obligations.StepKeepsParametersAndShape : Prop :=
  ∀ s t : State, step s = .next t → t.par = s.par ∧ (ShapeLegal s → ShapeLegal t)

/-- The state after reset meets every invariant. -/
def Obligations.ResetMeetsTheInvariants : Prop :=
  MemoriesLegal State.reset ∧ TablesClosed State.reset ∧ ControlLegal State.reset ∧ VoicesConsistent State.reset ∧
    PhasesInRange State.reset ∧ LevelsInRange State.reset ∧ ShapeLegal State.reset

/-! ### Rules of the whole command set -/

/-- What only some commands do: BUF is written by RENDER alone (and forgotten by RELEASE), the tables are replaced by
PREPARE and SET_HARM alone (and forgotten by RELEASE), a voice becomes busy only by NOTE_ON, and only NOTE_ON consumes
draws (R62, R65, R228 (a), R348). -/
def Obligations.OnlyTheseCommandsDoThat : Prop :=
  ∀ (i : Instr) (s t : State), i.isInternal = false → exec i s = .next t →
    (t.buf = s.buf ∨ i = .release ∨ ∃ start num, i = .render start num) ∧
    (t.tbl = s.tbl ∨ i = .release ∨ (∃ mb fs, i = .prepare mb fs) ∨ ∃ n, i = .setHarm n) ∧
    ((∀ (v : Nat) (x y : Voice), s.voices[v]? = some x → t.voices[v]? = some y → y.busy = true → x.busy = true) ∨
      ∃ note vel, i = .noteOn note vel) ∧
    (t.rnd = s.rnd ∨ ∃ note vel, i = .noteOn note vel)
end

