-- ==== Sys2Proof/Laws/Float32.lean ====
section
/-! SUPPORT. The rounding of `NUM_F32` (00_scope.md R11): it is exact on what the format holds, monotone, and so keeps
every bound the format holds; the magnitude bits order the magnitudes. -/

namespace Sys2Proof.Machine

theorem F32.unitsOf_small {m : Nat} (h : m < 2 ^ 23) : F32.unitsOf m = m := if_pos h

theorem F32.unitsOf_normal {k f : Nat} (hf : f < 2 ^ 23) :
    F32.unitsOf (k * 2 ^ 23 + (2 ^ 23 + f)) = (2 ^ 23 + f) * 2 ^ k := by
  have h1 : ¬ (k * 2 ^ 23 + (2 ^ 23 + f) < 2 ^ 23) := by omega
  have h2 : (k * 2 ^ 23 + (2 ^ 23 + f)) % 2 ^ 23 = f := by omega
  have h3 : (k * 2 ^ 23 + (2 ^ 23 + f)) / 2 ^ 23 - 1 = k := by omega
  rw [F32.unitsOf, if_neg h1, h2, h3]

/-- Every set of magnitude bits is subnormal or normal. -/
theorem F32.mag_cases (m : Nat) :
    m < 2 ^ 23 ∨ ∃ k f, f < 2 ^ 23 ∧ m = k * 2 ^ 23 + (2 ^ 23 + f) := by
  rcases Nat.lt_or_ge m (2 ^ 23) with h | h
  · exact .inl h
  · exact .inr ⟨m / 2 ^ 23 - 1, m % 2 ^ 23, by omega, by omega⟩

theorem F32.nearestEven_exact {q d : Nat} (hd : 0 < d) : F32.nearestEven (q * d) d = q := by
  have h1 : q * d % d = 0 := Nat.mul_mod_left q d
  have h2 : q * d / d = q := Nat.mul_div_cancel q hd
  simp [F32.nearestEven, h1, h2, hd]

theorem F32.le_nearestEven (n d : Nat) : n / d ≤ F32.nearestEven n d := by
  unfold F32.nearestEven; split_ifs <;> omega

theorem F32.nearestEven_le (n d : Nat) : F32.nearestEven n d ≤ n / d + 1 := by
  unfold F32.nearestEven; split_ifs <;> omega

/-- Rounding to a whole number is monotone in the quotient. -/
theorem F32.nearestEven_mono {n d n' d' : Nat} (hd : 0 < d) (hd' : 0 < d') (h : n * d' ≤ n' * d) :
    F32.nearestEven n d ≤ F32.nearestEven n' d' := by
  have e := Nat.div_add_mod n d
  have e' := Nat.div_add_mod n' d'
  have hq : n / d ≤ n' / d' := by
    rw [Nat.le_div_iff_mul_le hd']
    have : n / d * d * d' ≤ n' * d := le_trans (Nat.mul_le_mul_right _ (Nat.div_mul_le_self n d)) h
    nlinarith
  rcases Nat.lt_or_ge (n / d) (n' / d') with hlt | hge
  · calc F32.nearestEven n d ≤ n / d + 1 := F32.nearestEven_le n d
      _ ≤ n' / d' := hlt
      _ ≤ _ := F32.le_nearestEven n' d'
  · have hqe : n / d = n' / d' := le_antisymm hq hge
    have hr : n % d * d' ≤ n' % d' * d := by
      have e1 : n * d' = n / d * (d * d') + n % d * d' := by nlinarith [e]
      have e2 : n' * d = n' / d' * (d * d') + n' % d' * d := by nlinarith [e']
      rw [hqe] at e1; omega
    have up : d < 2 * (n % d) → d' < 2 * (n' % d') := by
      intro h1; by_contra h2
      have h3 : 2 * (n' % d') * d ≤ d' * d := Nat.mul_le_mul_right _ (by omega)
      have h4 : d * d' < 2 * (n % d) * d' := Nat.mul_lt_mul_of_pos_right h1 hd'
      nlinarith
    have eq : d ≤ 2 * (n % d) → d' ≤ 2 * (n' % d') := by
      intro h1; by_contra h2
      have h3 : 2 * (n' % d') * d < d' * d := Nat.mul_lt_mul_of_pos_right (by omega) hd
      have h4 : d * d' ≤ 2 * (n % d) * d' := Nat.mul_le_mul_right _ h1
      nlinarith
    unfold F32.nearestEven
    rw [hqe]
    split_ifs <;> omega

/-- The spacing exponent of the format at a quotient. -/
def F32.spacing (num den : Nat) : Nat := Nat.log2 (num / den) - 23

theorem F32.roundUnits_eq (num den : Nat) :
    F32.roundUnits num den
      = min (F32.spacing num den * 2 ^ 23 + F32.nearestEven num (den * 2 ^ F32.spacing num den)) F32.infMag := rfl

theorem F32.roundUnits_le (num den : Nat) : F32.roundUnits num den ≤ F32.infMag := by
  rw [F32.roundUnits_eq]; exact min_le_right _ _

theorem F32.log2_lt_succ_pow (q : Nat) : q < 2 ^ (Nat.log2 q + 1) := by
  rcases Nat.eq_zero_or_pos q with h | h
  · subst h; positivity
  · exact (Nat.log2_lt (by omega)).1 (Nat.lt_succ_self _)

theorem F32.pow_log2_le {q : Nat} (h : q ≠ 0) : 2 ^ Nat.log2 q ≤ q := (Nat.le_log2 h).1 le_rfl

/-- At its own spacing a quotient is below 2^24. -/
theorem F32.spacing_below (num den : Nat) : num / den / 2 ^ F32.spacing num den < 2 ^ 24 := by
  rw [Nat.div_lt_iff_lt_mul (by positivity), ← pow_add]
  refine lt_of_lt_of_le (F32.log2_lt_succ_pow _) (Nat.pow_le_pow_right (by norm_num) ?_)
  unfold F32.spacing; omega

/-- With a spacing above one unit, a quotient is at least 2^23 of its spacings. -/
theorem F32.spacing_above {num den : Nat} (h : 0 < F32.spacing num den) :
    2 ^ 23 ≤ num / den / 2 ^ F32.spacing num den := by
  rw [Nat.le_div_iff_mul_le (by positivity), ← pow_add]
  unfold F32.spacing at *
  have hq : num / den ≠ 0 := by intro h0; rw [h0] at h; simp at h
  exact le_trans (Nat.pow_le_pow_right (by norm_num) (by omega)) (F32.pow_log2_le hq)

theorem F32.log2_mono {a b : Nat} (h : a ≤ b) : Nat.log2 a ≤ Nat.log2 b := by
  rcases Nat.eq_zero_or_pos a with h0 | h0
  · subst h0; simp
  · rw [Nat.le_log2 (by omega)]; exact le_trans (F32.pow_log2_le (by omega)) h

/-- Rounding is monotone (R11: correctly rounded). -/
theorem F32.roundUnits_mono {n d n' d' : Nat} (hd : 0 < d) (hd' : 0 < d') (h : n * d' ≤ n' * d) :
    F32.roundUnits n d ≤ F32.roundUnits n' d' := by
  have hq : n / d ≤ n' / d' := by
    rw [Nat.le_div_iff_mul_le hd']
    have : n / d * d * d' ≤ n' * d := le_trans (Nat.mul_le_mul_right _ (Nat.div_mul_le_self n d)) h
    nlinarith
  have hk : F32.spacing n d ≤ F32.spacing n' d' := Nat.sub_le_sub_right (F32.log2_mono hq) 23
  rw [F32.roundUnits_eq, F32.roundUnits_eq]
  refine min_le_min_right _ ?_
  rcases Nat.eq_or_lt_of_le hk with he | hlt
  · rw [← he]
    refine Nat.add_le_add_left (F32.nearestEven_mono (by positivity) (by positivity) ?_) _
    calc n * (d' * 2 ^ F32.spacing n d) = n * d' * 2 ^ F32.spacing n d := by ring
      _ ≤ n' * d * 2 ^ F32.spacing n d := Nat.mul_le_mul_right _ h
      _ = _ := by ring
  · have h1 : F32.nearestEven n (d * 2 ^ F32.spacing n d) ≤ 2 ^ 24 := by
      have := F32.spacing_below n d
      have h2 := F32.nearestEven_le n (d * 2 ^ F32.spacing n d)
      rw [← Nat.div_div_eq_div_mul] at h2; omega
    have h3 : 2 ^ 23 ≤ F32.nearestEven n' (d' * 2 ^ F32.spacing n' d') := by
      have := F32.spacing_above (num := n') (den := d') (by omega)
      have h2 := F32.le_nearestEven n' (d' * 2 ^ F32.spacing n' d')
      rw [← Nat.div_div_eq_div_mul] at h2; omega
    have : (F32.spacing n d + 1) * 2 ^ 23 ≤ F32.spacing n' d' * 2 ^ 23 := Nat.mul_le_mul_right _ hlt
    omega

/-- Rounding is exact on the magnitudes the format holds. -/
theorem F32.roundUnits_exact {m d : Nat} (hd : 0 < d) (hm : m ≤ F32.infMag) :
    F32.roundUnits (F32.unitsOf m * d) d = m := by
  have hq : F32.unitsOf m * d / d = F32.unitsOf m := Nat.mul_div_cancel _ hd
  rw [F32.roundUnits_eq]
  rcases F32.mag_cases m with h | ⟨k, f, hf, rfl⟩
  · have hs : F32.spacing (F32.unitsOf m * d) d = 0 := by
      rw [F32.spacing, hq, F32.unitsOf_small h]
      rcases Nat.eq_zero_or_pos m with h0 | h0
      · subst h0; simp
      · have := (Nat.log2_lt (by omega)).2 h; omega
    rw [hs, F32.unitsOf_small h, pow_zero, mul_one, F32.nearestEven_exact hd]
    simpa using hm
  · have hu := F32.unitsOf_normal (k := k) hf
    have hs : F32.spacing (F32.unitsOf (k * 2 ^ 23 + (2 ^ 23 + f)) * d) d = k := by
      rw [F32.spacing, hq, hu]
      have h1 : Nat.log2 ((2 ^ 23 + f) * 2 ^ k) = 23 + k := by
        rw [Nat.log2_eq_iff (by positivity)]
        constructor
        · rw [pow_add]; exact Nat.mul_le_mul_right _ (by omega)
        · calc (2 ^ 23 + f) * 2 ^ k < 2 ^ 24 * 2 ^ k := Nat.mul_lt_mul_of_pos_right (by omega) (by positivity)
            _ = 2 ^ (23 + k + 1) := by rw [← pow_add]; congr 1; omega
      omega
    rw [hs, hu]
    have : (2 ^ 23 + f) * 2 ^ k * d = (2 ^ 23 + f) * (d * 2 ^ k) := by ring
    rw [this, F32.nearestEven_exact (by positivity)]
    exact min_eq_left hm

/-- A bound the format holds is kept by rounding, from above. -/
theorem F32.roundUnits_le_of_le {n d m : Nat} (hd : 0 < d) (hm : m ≤ F32.infMag) (h : n ≤ F32.unitsOf m * d) :
    F32.roundUnits n d ≤ m := by
  have := F32.roundUnits_mono (n := n) (d := d) (n' := F32.unitsOf m * d) (d' := d) hd hd (Nat.mul_le_mul_right _ h)
  rwa [F32.roundUnits_exact hd hm] at this

/-- A bound the format holds is kept by rounding, from below. -/
theorem F32.le_roundUnits_of_le {n d m : Nat} (hd : 0 < d) (hm : m ≤ F32.infMag) (h : F32.unitsOf m * d ≤ n) :
    m ≤ F32.roundUnits n d := by
  have := F32.roundUnits_mono (n := F32.unitsOf m * d) (d := d) (n' := n) (d' := d) hd hd (Nat.mul_le_mul_right _ h)
  rwa [F32.roundUnits_exact hd hm] at this

/-- Magnitude bits order the magnitudes. -/
theorem F32.unitsOf_lt {m m' : Nat} (hm' : m' ≤ F32.infMag) (h : m < m') : F32.unitsOf m < F32.unitsOf m' := by
  by_contra hc
  have := F32.roundUnits_mono (n := F32.unitsOf m' * 1) (d := 1) (n' := F32.unitsOf m * 1) (d' := 1)
    one_pos one_pos (by omega)
  rw [F32.roundUnits_exact one_pos hm', F32.roundUnits_exact one_pos (by omega)] at this
  omega

theorem F32.unitsOf_le_iff {m m' : Nat} (hm : m ≤ F32.infMag) (hm' : m' ≤ F32.infMag) :
    F32.unitsOf m ≤ F32.unitsOf m' ↔ m ≤ m' := by
  constructor
  · intro h; by_contra hc; exact absurd h (by have := F32.unitsOf_lt hm (by omega : m' < m); omega)
  · intro h; rcases Nat.eq_or_lt_of_le h with rfl | h
    · exact le_rfl
    · exact (F32.unitsOf_lt hm' h).le

@[simp] theorem F32.unitsOf_zero : F32.unitsOf 0 = 0 := rfl

theorem F32.unitsOf_eq_zero {m : Nat} (h : F32.unitsOf m = 0) : m = 0 := by
  rcases F32.mag_cases m with h1 | ⟨k, f, hf, rfl⟩
  · rwa [F32.unitsOf_small h1] at h
  · rw [F32.unitsOf_normal hf] at h
    have : 0 < (2 ^ 23 + f) * 2 ^ k := by positivity
    omega

/-- A whole number of units at most 2^24 spacings wide is what rounding answers. -/
theorem F32.unitsOf_roundUnits {q k : Nat} (hq : 2 ^ 23 ≤ q) (hq' : q ≤ 2 ^ 24) (hk : k * 2 ^ 23 + q < F32.infMag) :
    F32.roundUnits (q * 2 ^ k) 1 = k * 2 ^ 23 + q ∧ F32.unitsOf (k * 2 ^ 23 + q) = q * 2 ^ k := by
  have key : F32.unitsOf (k * 2 ^ 23 + q) = q * 2 ^ k := by
    rcases Nat.lt_or_ge q (2 ^ 24) with h | h
    · obtain ⟨f, rfl⟩ := Nat.exists_eq_add_of_le hq
      exact F32.unitsOf_normal (by omega)
    · have hq2 : q = 2 ^ 24 := le_antisymm hq' h
      subst hq2
      have := F32.unitsOf_normal (k := k + 1) (f := 0) (by norm_num)
      have e : k * 2 ^ 23 + 2 ^ 24 = (k + 1) * 2 ^ 23 + (2 ^ 23 + 0) := by ring
      rw [e, this, pow_succ]; ring
  refine ⟨?_, key⟩
  have := F32.roundUnits_exact (d := 1) one_pos hk.le
  rwa [key, mul_one] at this

/-! ### Words -/

@[simp] theorem F32.mag_lt (w : Word) : F32.mag w < 2 ^ 31 := Nat.mod_lt _ (by norm_num)

theorem F32.mag_pack (neg : Bool) {m : Nat} (h : m ≤ F32.infMag) : F32.mag (F32.pack neg m) = m := by
  unfold F32.infMag at h
  unfold F32.mag F32.pack
  rw [BitVec.toNat_ofNat]
  cases neg <;> simp <;> omega

theorem F32.msb_pack (neg : Bool) {m : Nat} (h : m ≤ F32.infMag) : (F32.pack neg m).msb = neg := by
  unfold F32.infMag at h
  unfold F32.pack
  rw [BitVec.msb_eq_decide, BitVec.toNat_ofNat]
  cases neg <;> simp <;> omega

/-- A word is its sign and its magnitude bits. -/
theorem F32.pack_self (w : Word) : F32.pack w.msb (F32.mag w) = w := by
  apply BitVec.eq_of_toNat_eq
  unfold F32.pack F32.mag
  rw [BitVec.toNat_ofNat, BitVec.msb_eq_decide]
  have := w.isLt
  by_cases h : 2 ^ 31 ≤ w.toNat
  · rw [decide_eq_true h, if_pos rfl]; omega
  · rw [decide_eq_false h, if_neg (by simp)]; omega

theorem F32.finite_iff (w : Word) : F32.isFinite w = true ↔ F32.mag w < F32.infMag := by simp [F32.isFinite]

theorem F32.not_nan_of_finite {w : Word} (h : F32.isFinite w = true) : F32.isNaN w = false := by
  rw [F32.finite_iff] at h; simp [F32.isNaN]; omega

theorem F32.not_inf_of_finite {w : Word} (h : F32.isFinite w = true) : F32.isInf w = false := by
  rw [F32.finite_iff] at h; simp [F32.isInf]; omega

/-- For finite words the order of the keys is the order of the values. -/
theorem F32.key_le_iff {a b : Word} (ha : F32.isFinite a = true) (hb : F32.isFinite b = true) :
    F32.key a ≤ F32.key b ↔ F32.value a ≤ F32.value b := by
  rw [F32.finite_iff] at ha hb
  have hu := F32.unitsOf_le_iff ha.le hb.le
  have hu' := F32.unitsOf_le_iff hb.le ha.le
  have z1 : F32.unitsOf (F32.mag a) = 0 → F32.mag a = 0 := F32.unitsOf_eq_zero
  have z2 : F32.unitsOf (F32.mag b) = 0 → F32.mag b = 0 := F32.unitsOf_eq_zero
  have y1 : F32.mag a = 0 → F32.unitsOf (F32.mag a) = 0 := by intro h; rw [h]; rfl
  have y2 : F32.mag b = 0 → F32.unitsOf (F32.mag b) = 0 := by intro h; rw [h]; rfl
  unfold F32.key F32.value F32.units
  cases a.msb <;> cases b.msb <;> simp <;> omega

theorem F32.key_lt_iff {a b : Word} (ha : F32.isFinite a = true) (hb : F32.isFinite b = true) :
    F32.key a < F32.key b ↔ F32.value a < F32.value b := by
  have := F32.key_le_iff hb ha; omega

theorem F32.le_iff {a b : Word} (ha : F32.isFinite a = true) (hb : F32.isFinite b = true) :
    F32.le a b = true ↔ F32.value a ≤ F32.value b := by
  simp [F32.le, F32.not_nan_of_finite ha, F32.not_nan_of_finite hb, F32.key_le_iff ha hb]

theorem F32.lt_iff {a b : Word} (ha : F32.isFinite a = true) (hb : F32.isFinite b = true) :
    F32.lt a b = true ↔ F32.value a < F32.value b := by
  simp [F32.lt, F32.not_nan_of_finite ha, F32.not_nan_of_finite hb, F32.key_lt_iff ha hb]

/-- A finite sum of finite words: the exact sum, rounded once. -/
theorem F32.add_of_finite {a b : Word} (ha : F32.isFinite a = true) (hb : F32.isFinite b = true) :
    F32.add a b
      = if F32.value a + F32.value b = 0 then F32.pack (a.msb && b.msb) 0
        else F32.ofValue (F32.value a + F32.value b) := by
  simp [F32.add, F32.not_nan_of_finite ha, F32.not_nan_of_finite hb, F32.not_inf_of_finite ha,
    F32.not_inf_of_finite hb]

/-- A difference of finite words: the exact difference, rounded once. -/
theorem F32.sub_of_finite {a b : Word} (ha : F32.isFinite a = true) (hb : F32.isFinite b = true) :
    F32.sub a b
      = if F32.value a - F32.value b = 0 then F32.pack (a.msb && !b.msb) 0
        else F32.ofValue (F32.value a - F32.value b) := by
  simp [F32.sub, F32.not_nan_of_finite ha, F32.not_nan_of_finite hb, F32.not_inf_of_finite ha,
    F32.not_inf_of_finite hb]

/-- A product of finite words: the exact product, rounded once. -/
theorem F32.mul_of_finite {a b : Word} (ha : F32.isFinite a = true) (hb : F32.isFinite b = true) :
    F32.mul a b = F32.pack (a.msb != b.msb) (F32.roundUnits (F32.units a * F32.units b) F32.one) := by
  simp [F32.mul, F32.not_nan_of_finite ha, F32.not_nan_of_finite hb, F32.not_inf_of_finite ha,
    F32.not_inf_of_finite hb]

/-- A quotient of finite words by one that is not zero: the exact quotient, rounded once. -/
theorem F32.div_of_finite {a b : Word} (ha : F32.isFinite a = true) (hb : F32.isFinite b = true)
    (h0 : F32.mag b ≠ 0) :
    F32.div a b = F32.pack (a.msb != b.msb) (F32.roundUnits (F32.units a * F32.one) (F32.units b)) := by
  simp [F32.div, F32.not_nan_of_finite ha, F32.not_nan_of_finite hb, F32.not_inf_of_finite ha,
    F32.not_inf_of_finite hb, h0]

/-! ### Bounds of results -/

/-- Both zeros are finite and have the value 0. -/
theorem F32.pack_zero (b : Bool) :
    F32.isFinite (F32.pack b 0) = true ∧ F32.value (F32.pack b 0) = 0 ∧ F32.mag (F32.pack b 0) = 0 := by
  cases b <;> exact ⟨rfl, rfl, rfl⟩

theorem F32.mag_abs (w : Word) : F32.mag (F32.abs w) = F32.mag w := by
  have e : (F32.abs w).toNat = w.toNat % 2 ^ 31 := by
    rw [F32.abs, BitVec.toNat_and, ← Nat.and_two_pow_sub_one_eq_mod]; rfl
  unfold F32.mag; rw [e]; omega

theorem F32.msb_abs (w : Word) : (F32.abs w).msb = false := by
  simp only [F32.abs, BitVec.msb_and, Bool.and_eq_false_imp]; intro _; rfl

theorem F32.mag_neg (w : Word) : F32.mag (F32.neg w) = F32.mag w := by
  have h : F32.abs (F32.neg w) = F32.abs w := by
    apply BitVec.eq_of_toNat_eq
    simp only [F32.abs, F32.neg, BitVec.toNat_and, BitVec.toNat_xor, Nat.and_xor_distrib_right]
    exact Nat.xor_zero _
  rw [← F32.mag_abs, h, F32.mag_abs]

theorem F32.isFinite_abs (w : Word) : F32.isFinite (F32.abs w) = F32.isFinite w := by
  simp [F32.isFinite, F32.mag_abs]

theorem F32.isFinite_neg (w : Word) : F32.isFinite (F32.neg w) = F32.isFinite w := by
  simp [F32.isFinite, F32.mag_neg]

/-- The magnitude of a finite word's value is its units. -/
theorem F32.natAbs_value (w : Word) : (F32.value w).natAbs = F32.unitsOf (F32.mag w) := by
  unfold F32.value F32.units; split_ifs <;> simp

theorem F32.finite_of_mag_le {w : Word} {m : Nat} (hm : m < F32.infMag) (h : F32.mag w ≤ m) : F32.isFinite w = true :=
  (F32.finite_iff w).2 (lt_of_le_of_lt h hm)

/-- A rounded whole number of units keeps a bound of the format. -/
theorem F32.mag_ofValue_le {v : Int} {m : Nat} (hm : m ≤ F32.infMag) (h : v.natAbs ≤ F32.unitsOf m) :
    F32.mag (F32.ofValue v) ≤ m := by
  unfold F32.ofValue
  rw [F32.mag_pack _ (F32.roundUnits_le _ _)]
  exact F32.roundUnits_le_of_le one_pos hm (by omega)

/-- A sum keeps a bound of the format. -/
theorem F32.mag_add_le {a b : Word} {m : Nat} (ha : F32.isFinite a = true) (hb : F32.isFinite b = true)
    (hm : m ≤ F32.infMag) (h : (F32.value a + F32.value b).natAbs ≤ F32.unitsOf m) : F32.mag (F32.add a b) ≤ m := by
  rw [F32.add_of_finite ha hb]
  split_ifs
  · rw [(F32.pack_zero _).2.2]; exact Nat.zero_le m
  · exact F32.mag_ofValue_le hm h

/-- A difference keeps a bound of the format. -/
theorem F32.mag_sub_le {a b : Word} {m : Nat} (ha : F32.isFinite a = true) (hb : F32.isFinite b = true)
    (hm : m ≤ F32.infMag) (h : (F32.value a - F32.value b).natAbs ≤ F32.unitsOf m) : F32.mag (F32.sub a b) ≤ m := by
  rw [F32.sub_of_finite ha hb]
  split_ifs
  · rw [(F32.pack_zero _).2.2]; exact Nat.zero_le m
  · exact F32.mag_ofValue_le hm h

theorem F32.one_pos : 0 < F32.one := by unfold F32.one; positivity

/-- A product keeps a bound of the format. -/
theorem F32.mag_mul_le {a b : Word} {m : Nat} (ha : F32.isFinite a = true) (hb : F32.isFinite b = true)
    (hm : m ≤ F32.infMag) (h : F32.units a * F32.units b ≤ F32.unitsOf m * F32.one) :
    F32.mag (F32.mul a b) ≤ m := by
  rw [F32.mul_of_finite ha hb, F32.mag_pack _ (F32.roundUnits_le _ _)]
  exact F32.roundUnits_le_of_le F32.one_pos hm h

theorem F32.units_pos {w : Word} (h : F32.mag w ≠ 0) : 0 < F32.units w :=
  Nat.pos_of_ne_zero fun h0 => h (F32.unitsOf_eq_zero h0)

/-- A quotient keeps a bound of the format. -/
theorem F32.mag_div_le {a b : Word} {m : Nat} (ha : F32.isFinite a = true) (hb : F32.isFinite b = true)
    (h0 : F32.mag b ≠ 0) (hm : m ≤ F32.infMag) (h : F32.units a * F32.one ≤ F32.unitsOf m * F32.units b) :
    F32.mag (F32.div a b) ≤ m := by
  rw [F32.div_of_finite ha hb h0, F32.mag_pack _ (F32.roundUnits_le _ _)]
  exact F32.roundUnits_le_of_le (F32.units_pos h0) hm h

theorem F32.unitsOf_one : F32.unitsOf 0x3F800000 = F32.one := by
  have := F32.unitsOf_normal (k := 126) (f := 0) (by norm_num)
  rw [show 126 * 2 ^ 23 + (2 ^ 23 + 0) = 0x3F800000 from by norm_num] at this
  rw [this, F32.one]; norm_num

/-- A word divided by one of the same magnitude is 1 with the sign of the quotient. -/
theorem F32.div_same_mag {a b : Word} (ha : F32.isFinite a = true) (hb : F32.isFinite b = true) (h : F32.mag a = F32.mag b)
    (h0 : F32.mag b ≠ 0) : F32.div a b = F32.pack (a.msb != b.msb) 0x3F800000 := by
  have e : F32.units a * F32.one = F32.unitsOf 0x3F800000 * F32.units b := by
    rw [F32.unitsOf_one, F32.units, F32.units, h, Nat.mul_comm]
  rw [F32.div_of_finite ha hb h0, e, F32.roundUnits_exact (F32.units_pos h0) (by unfold F32.infMag; norm_num)]

/-- Rounding a non-negative whole number of units keeps the bounds 0 and a value the format holds. -/
theorem F32.ofValue_bounds {v : Int} {w : Word} (hw : F32.isFinite w = true) (h0 : 0 ≤ v) (h : v ≤ F32.value w) :
    F32.isFinite (F32.ofValue v) = true ∧ 0 ≤ F32.value (F32.ofValue v)
      ∧ F32.value (F32.ofValue v) ≤ F32.value w := by
  have hw' := (F32.finite_iff w).1 hw
  have hun : v.natAbs ≤ F32.unitsOf (F32.mag w) * 1 := by
    unfold F32.value F32.units at h
    split_ifs at h <;> omega
  have hr := F32.roundUnits_le_of_le Nat.one_pos hw'.le hun
  have hneg : ¬ v < 0 := by omega
  have e : F32.ofValue v = F32.pack false (F32.roundUnits v.natAbs 1) := by
    unfold F32.ofValue; simp [hneg]
  have hinf := hr.trans hw'.le
  have hmono := (F32.unitsOf_le_iff hinf hw'.le).2 hr
  rw [e]
  refine ⟨?_, ?_, ?_⟩
  · rw [F32.finite_iff, F32.mag_pack _ hinf]; omega
  · rw [F32.value, F32.msb_pack _ hinf]; simp
  · rw [F32.value, F32.msb_pack _ hinf, F32.units, F32.mag_pack _ hinf]
    simp only [Bool.false_eq_true, if_false]
    unfold F32.value F32.units at *
    split_ifs at h ⊢
    · have : F32.unitsOf (F32.mag w) = 0 := by omega
      omega
    · exact_mod_cast hmono

/-- A finite word of no sign below the largest exponent has a word of twice its value. -/
theorem F32.exists_double {c : Word} (h : F32.mag c < 254 * 2 ^ 23) (hn : c.msb = false) :
    ∃ w, F32.isFinite w = true ∧ F32.value w = 2 * F32.value c := by
  have key : ∃ m, m < F32.infMag ∧ F32.unitsOf m = 2 * F32.unitsOf (F32.mag c) := by
    generalize F32.mag c = m at *
    rcases F32.mag_cases m with h1 | ⟨k, f, hf, rfl⟩
    · rcases Nat.lt_or_ge m (2 ^ 22) with h2 | h2
      · exact ⟨2 * m, by unfold F32.infMag; omega, by rw [F32.unitsOf_small (by omega), F32.unitsOf_small h1]⟩
      · refine ⟨2 * m, by unfold F32.infMag; omega, ?_⟩
        have := F32.unitsOf_normal (k := 0) (f := 2 * m - 2 ^ 23) (by omega)
        rw [F32.unitsOf_small h1]
        have e : 0 * 2 ^ 23 + (2 ^ 23 + (2 * m - 2 ^ 23)) = 2 * m := by omega
        rw [e] at this; rw [this]; omega
    · have hb : (k + 1) * 2 ^ 23 + (2 ^ 23 + f) < 255 * 2 ^ 23 := by
        calc (k + 1) * 2 ^ 23 + (2 ^ 23 + f) = k * 2 ^ 23 + (2 ^ 23 + f) + 2 ^ 23 := by ring
          _ < 254 * 2 ^ 23 + 2 ^ 23 := Nat.add_lt_add_right h _
          _ = _ := by norm_num
      refine ⟨(k + 1) * 2 ^ 23 + (2 ^ 23 + f), lt_of_lt_of_eq hb (by norm_num [F32.infMag]), ?_⟩
      rw [F32.unitsOf_normal hf, F32.unitsOf_normal hf, pow_succ]; ring
  obtain ⟨m, hm, hu⟩ := key
  refine ⟨F32.pack false m, by rw [F32.finite_iff, F32.mag_pack _ hm.le]; exact hm, ?_⟩
  rw [F32.value, F32.msb_pack _ hm.le, F32.units, F32.mag_pack _ hm.le, hu, F32.value, hn, F32.units]; simp

/-- The format holds the whole numbers up to 2^24 exactly. -/
theorem F32.ofInt_nat {n : Nat} (h0 : 0 < n) (h : n ≤ 2 ^ 24) :
    F32.isFinite (F32.ofInt n) = true ∧ F32.value (F32.ofInt n) = (n * F32.one : Nat) := by
  obtain ⟨l, hl⟩ : ∃ l, Nat.log2 n = l := ⟨_, rfl⟩
  have h1 : 2 ^ l ≤ n := hl ▸ F32.pow_log2_le (by omega)
  have h2 : n < 2 ^ (l + 1) := hl ▸ F32.log2_lt_succ_pow n
  have hl24 : l ≤ 24 := by
    by_contra hc
    have : 2 ^ 25 ≤ 2 ^ l := Nat.pow_le_pow_right (by norm_num) (by omega)
    omega
  obtain ⟨q, hq1, hq2, hq3⟩ : ∃ q, 2 ^ 23 ≤ q ∧ q ≤ 2 ^ 24 ∧ n * 2 ^ 149 = q * 2 ^ (126 + l) := by
    rcases Nat.lt_or_ge l 24 with h3 | h3
    · refine ⟨n * 2 ^ (23 - l), ?_, ?_, ?_⟩
      · calc 2 ^ 23 = 2 ^ l * 2 ^ (23 - l) := by rw [← pow_add]; congr 1; omega
          _ ≤ _ := Nat.mul_le_mul_right _ h1
      · calc n * 2 ^ (23 - l) ≤ 2 ^ (l + 1) * 2 ^ (23 - l) := Nat.mul_le_mul_right _ h2.le
          _ = 2 ^ 24 := by rw [← pow_add]; congr 1; omega
      · rw [mul_assoc, ← pow_add]; congr 2; omega
    · have hl' : l = 24 := by omega
      subst hl'
      have hn : n = 2 ^ 24 := by omega
      subst hn
      exact ⟨2 ^ 23, le_rfl, Nat.pow_le_pow_right (by norm_num) (by norm_num), by rw [← pow_add, ← pow_add]⟩
  have hk : (126 + l) * 2 ^ 23 + q < F32.infMag := by
    unfold F32.infMag
    have : (126 + l) * 2 ^ 23 ≤ 150 * 2 ^ 23 := Nat.mul_le_mul_right _ (by omega)
    omega
  obtain ⟨r1, r2⟩ := F32.unitsOf_roundUnits hq1 hq2 hk
  have e : F32.ofInt n = F32.pack false ((126 + l) * 2 ^ 23 + q) := by
    unfold F32.ofInt
    rw [Int.natAbs_natCast, F32.one, hq3, r1, decide_eq_false (by omega)]
  rw [e]
  refine ⟨?_, ?_⟩
  · rw [F32.finite_iff, F32.mag_pack _ hk.le]; exact hk
  · rw [F32.value, F32.msb_pack _ hk.le, F32.units, F32.mag_pack _ hk.le, r2, F32.one, hq3]; simp

/-- A word between 0 and a finite word is finite. -/
theorem F32.finite_of_between {w b : Word} (hb : F32.isFinite b = true) (h1 : F32.le 0#32 w = true)
    (h2 : F32.lt w b = true) : F32.isFinite w = true := by
  simp only [F32.le, F32.lt, Bool.and_eq_true, decide_eq_true_eq] at h1 h2
  have hk := h2.2
  have hk' : (0 : Int) ≤ F32.key w := h1.2
  rw [F32.finite_iff] at hb ⊢
  unfold F32.key at hk hk'
  split_ifs at hk hk' <;> omega

/-- `sin` of a finite word is finite and at most 1 in magnitude (entry U3). -/
theorem F32.mag_sin {a : Word} (h : F32.isFinite a = true) : F32.mag (F32.sin a) ≤ 0x3F800000 := by
  unfold F32.sin
  split_ifs with h0 h1
  · exact Nat.zero_le _
  · exact Nat.zero_le _
  · simp only [h, Bool.true_and, Bool.not_eq_true', Bool.not_eq_false] at h1
    simpa [F32.inUnit] using h1

/-! ### The machine's format, field by field -/

@[simp] theorem NumWord.bits_f32 (w : Word) : (NumWord.f32 w).bits = w := rfl

@[simp] theorem numF32_ofInt (k : Int) : numF32.ofInt k = .f32 (F32.ofInt k) := rfl
@[simp] theorem numF32_lit (m d : Nat) : numF32.lit m d = .f32 (F32.lit m d) := rfl
@[simp] theorem numF32_add (a b : NumWord) : numF32.add a b = .f32 (F32.add a.bits b.bits) := rfl
@[simp] theorem numF32_sub (a b : NumWord) : numF32.sub a b = .f32 (F32.sub a.bits b.bits) := rfl
@[simp] theorem numF32_mul (a b : NumWord) : numF32.mul a b = .f32 (F32.mul a.bits b.bits) := rfl
@[simp] theorem numF32_div (a b : NumWord) : numF32.div a b = .f32 (F32.div a.bits b.bits) := rfl
@[simp] theorem numF32_neg (a : NumWord) : numF32.neg a = .f32 (F32.neg a.bits) := rfl
@[simp] theorem numF32_abs (a : NumWord) : numF32.abs a = .f32 (F32.abs a.bits) := rfl
@[simp] theorem numF32_sin (a : NumWord) : numF32.sin a = .f32 (F32.sin a.bits) := rfl
@[simp] theorem numF32_lt (a b : NumWord) : numF32.lt a b = F32.lt a.bits b.bits := rfl
@[simp] theorem numF32_le (a b : NumWord) : numF32.le a b = F32.le a.bits b.bits := rfl
@[simp] theorem numF32_eq (a b : NumWord) : numF32.eq a b = F32.eq a.bits b.bits := rfl
@[simp] theorem numF32_gt (a b : NumWord) : numF32.gt a b = F32.lt b.bits a.bits := rfl
@[simp] theorem numF32_ge (a b : NumWord) : numF32.ge a b = F32.le b.bits a.bits := rfl
@[simp] theorem numF32_floor (a : NumWord) : numF32.floor a = F32.floor a.bits := rfl
@[simp] theorem numF32_isFinite (a : NumWord) : numF32.isFinite a = F32.isFinite a.bits := rfl
@[simp] theorem numF32_pi : numF32.pi = .f32 F32.pi := rfl
@[simp] theorem numF32_midi (note : BitVec 7) : numF32.midi note = .f32 (midiFreq note) := rfl
@[simp] theorem ofInt_zero : F32.ofInt 0 = 0x00000000#32 := by decide

/-- The format of a configuration that chooses `NUM_F32` (R8). -/
@[simp] theorem fmt_f32 {p : Params} (h : p.num = .f32) : p.fmt = numF32 := by unfold Params.fmt; rw [h]

/-- The format of any other configuration (R8). -/
theorem fmt_other {p : Params} {n : Nat} (h : p.num = .other n) : p.fmt = (Config.otherNum n).ops := by
  unfold Params.fmt; rw [h]

/-- The format of any other configuration meets R11's laws. -/
theorem fmt_lawful {p : Params} (h : p.num ≠ .f32) : ∃ val, LawfulNum p.fmt val := by
  cases hn : p.num with
  | f32 => exact absurd hn h
  | other n => rw [fmt_other hn]; exact (Config.otherNum n).lawful

/-- An operand word under `NUM_F32` is the number's own bit pattern (R11, R99). -/
@[simp] theorem numword_f32 {p : Params} (h : p.num = .f32) (w : Word) : numword p w = .f32 w := by
  unfold numword; rw [fmt_f32 h]; rfl

/-- A comparison with a NaN is false (R11). -/
theorem F32.not_nan_of_le {a b : Word} (h : F32.le a b = true) : F32.isNaN a = false ∧ F32.isNaN b = false := by
  simp only [F32.le, Bool.and_eq_true, Bool.not_eq_true'] at h
  exact h.1

end Sys2Proof.Machine
end

