-- ==== Sys2Proof/Laws/Memory.lean ====
section
/-! SUPPORT. The two number-word memories: reading after writing, the canonical form and its preservation, the
addresses listed, and whole tables (20_memory.md R61 to R66). -/

namespace Sys2Proof.Machine

/-- Reading after writing: the word written at its address, every other address as before. -/
theorem Mem.get?_put (m : Mem) (a b : Nat) (x : NumWord) :
    (m.put a x).get? b = if b = a then some x else m.get? b := by
  induction m with
  | nil => simp only [Mem.put, Mem.get?]; split_ifs <;> first | rfl | omega
  | cons c rest ih =>
    simp only [Mem.put]
    split_ifs with h1 h2 h3 h4 h5
    · subst h2; simp [Mem.get?]
    · simp only [Mem.get?]; rw [if_neg (by omega)]
    · subst h4; simp [Mem.get?]
    · simp only [Mem.get?]; rw [if_neg (by omega), if_neg (by omega)]
    · simp only [Mem.get?]; rw [if_neg (by omega), ih, if_pos h5]
    · simp only [Mem.get?]; rw [ih, if_neg h5]

theorem Mem.get?_put_same (m : Mem) (a : Nat) (x : NumWord) : (m.put a x).get? a = some x := by simp [Mem.get?_put]

theorem Mem.get?_put_other (m : Mem) {a b : Nat} (x : NumWord) (h : b ≠ a) : (m.put a x).get? b = m.get? b := by
  simp [Mem.get?_put, h]

/-- The addresses a write lists are the old ones and its own. -/
theorem Mem.mem_put {m : Mem} {a : Nat} {x : NumWord} {c : Nat × NumWord} (h : c ∈ m.put a x) : c = (a, x) ∨ c ∈ m := by
  induction m with
  | nil => simpa [Mem.put] using h
  | cons d rest ih =>
    simp only [Mem.put] at h
    split_ifs at h with h1 h2
    · simpa using h
    · rcases List.mem_cons.1 h with h | h
      · exact .inl h
      · exact .inr (List.mem_cons_of_mem _ h)
    · rcases List.mem_cons.1 h with h | h
      · exact .inr (h ▸ List.mem_cons_self)
      · rcases ih h with h | h
        · exact .inl h
        · exact .inr (List.mem_cons_of_mem _ h)

theorem Mem.above_put {m : Mem} {lo a : Nat} (x : NumWord) (h : Mem.above lo m = true) (ha : lo < a) :
    Mem.above lo (m.put a x) = true := by
  induction m generalizing lo with
  | nil => simp [Mem.put, Mem.above, ha]
  | cons c rest ih =>
    simp only [Mem.above, Bool.and_eq_true, decide_eq_true_eq] at h
    simp only [Mem.put]
    split_ifs with h1 h2
    · simp [Mem.above, ha, h1, h.2]
    · subst h2; simp [Mem.above, ha, h.2]
    · simp only [Mem.above, Bool.and_eq_true, decide_eq_true_eq]
      exact ⟨h.1, ih h.2 (by omega)⟩

/-- A write keeps the canonical form. -/
theorem Mem.wf_put {m : Mem} (a : Nat) (x : NumWord) (h : Mem.wf m = true) : Mem.wf (m.put a x) = true := by
  cases m with
  | nil => rfl
  | cons c rest =>
    simp only [Mem.wf] at h
    simp only [Mem.put]
    split_ifs with h1 h2
    · simp [Mem.wf, Mem.above, h1, h]
    · subst h2; exact h
    · exact Mem.above_put x h (by omega)

theorem Mem.above_fromWords (ws : List NumWord) {lo a : Nat} (h : lo < a) : Mem.above lo (Mem.fromWords a ws) = true := by
  induction ws generalizing lo a with
  | nil => rfl
  | cons x rest ih => simp [Mem.fromWords, Mem.above, h, ih (Nat.lt_succ_self a)]

/-- A whole table is in canonical form. -/
theorem Mem.wf_fromWords (a : Nat) (ws : List NumWord) : Mem.wf (Mem.fromWords a ws) = true := by
  cases ws with
  | nil => rfl
  | cons x rest => exact Mem.above_fromWords rest (Nat.lt_succ_self a)

theorem Mem.get?_fromWords_below (ws : List NumWord) {a b : Nat} (h : b < a) : (Mem.fromWords a ws).get? b = none := by
  induction ws generalizing a with
  | nil => rfl
  | cons x rest ih => rw [Mem.fromWords, Mem.get?, if_neg (by simp; omega), ih (by omega)]

/-- A whole table lists its words at consecutive addresses. -/
theorem Mem.get?_fromWords (ws : List NumWord) (a i : Nat) : (Mem.fromWords a ws).get? (a + i) = ws[i]? := by
  induction ws generalizing a i with
  | nil => rfl
  | cons x rest ih =>
    rw [Mem.fromWords, Mem.get?]
    cases i with
    | zero => simp
    | succ i =>
      rw [if_neg (by simp), show a + (i + 1) = a + 1 + i by omega, ih]
      simp

theorem Mem.map_fst_fromWords (ws : List NumWord) (a : Nat) :
    (Mem.fromWords a ws).map Prod.fst = List.range' a ws.length := by
  induction ws generalizing a with
  | nil => rfl
  | cons x rest ih => simp [Mem.fromWords, ih, List.range'_succ]

theorem Mem.mem_fromWords {ws : List NumWord} {a : Nat} {c : Nat × NumWord} (h : c ∈ Mem.fromWords a ws) :
    a ≤ c.1 ∧ c.1 < a + ws.length := by
  have : c.1 ∈ (Mem.fromWords a ws).map Prod.fst := List.mem_map_of_mem h
  rw [Mem.map_fst_fromWords, List.mem_range'] at this
  obtain ⟨i, hi, he⟩ := this
  omega

/-- Different channels and frames have different addresses. -/
theorem bufAddr_inj {p : Params} {c a c' a' : Nat} (ha : a < p.bufLen) (ha' : a' < p.bufLen)
    (h : bufAddr p c a = bufAddr p c' a') : c = c' ∧ a = a' := by
  unfold bufAddr at h
  have hb : 0 < p.bufLen := by omega
  have h1 : (c * p.bufLen + a) / p.bufLen = c := by
    rw [Nat.mul_comm, Nat.mul_add_div hb, Nat.div_eq_of_lt ha, Nat.add_zero]
  have h2 : (c' * p.bufLen + a') / p.bufLen = c' := by
    rw [Nat.mul_comm, Nat.mul_add_div hb, Nat.div_eq_of_lt ha', Nat.add_zero]
  have : c = c' := by rw [← h1, h, h2]
  subst this
  exact ⟨rfl, by omega⟩

/-- An existing channel and frame have an address within the buffer. -/
theorem bufAddr_lt {p : Params} {c a : Nat} (hc : c < p.channels) (ha : a < p.bufLen) :
    bufAddr p c a < p.channels * p.bufLen := by
  unfold bufAddr
  calc c * p.bufLen + a < c * p.bufLen + p.bufLen := by omega
    _ = (c + 1) * p.bufLen := by ring
    _ ≤ _ := Nat.mul_le_mul_right _ hc

end Sys2Proof.Machine
end

