-- ==== Sys2Proof/Laws/State.lean ====
section
/-! SUPPORT. One lemma for each field of State after each named update of it, and the laws of the per-kind storage. -/

namespace Sys2Proof.Machine

@[simp] theorem setVoice_par (s : State) (v : Nat) (x : Voice) : (setVoice s v x).par = s.par := rfl
@[simp] theorem setVoice_cfg (s : State) (v : Nat) (x : Voice) : (setVoice s v x).cfg = s.cfg := rfl
@[simp] theorem setVoice_prepared (s : State) (v : Nat) (x : Voice) : (setVoice s v x).prepared = s.prepared := rfl
@[simp] theorem setVoice_atkInc (s : State) (v : Nat) (x : Voice) : (setVoice s v x).atkInc = s.atkInc := rfl
@[simp] theorem setVoice_decDec (s : State) (v : Nat) (x : Voice) : (setVoice s v x).decDec = s.decDec := rfl
@[simp] theorem setVoice_tblAttr (s : State) (v : Nat) (x : Voice) : (setVoice s v x).tblAttr = s.tblAttr := rfl
@[simp] theorem setVoice_voices (s : State) (v : Nat) (x : Voice) : (setVoice s v x).voices = s.voices.set v x := rfl
@[simp] theorem setVoice_tbl (s : State) (v : Nat) (x : Voice) : (setVoice s v x).tbl = s.tbl := rfl
@[simp] theorem setVoice_buf (s : State) (v : Nat) (x : Voice) : (setVoice s v x).buf = s.buf := rfl
@[simp] theorem setVoice_rt (s : State) (v : Nat) (x : Voice) : (setVoice s v x).rt = s.rt := rfl
@[simp] theorem setVoice_ctl (s : State) (v : Nat) (x : Voice) : (setVoice s v x).ctl = s.ctl := rfl
@[simp] theorem setVoice_arrivals (s : State) (v : Nat) (x : Voice) : (setVoice s v x).arrivals = s.arrivals := rfl
@[simp] theorem setVoice_rnd (s : State) (v : Nat) (x : Voice) : (setVoice s v x).rnd = s.rnd := rfl
@[simp] theorem setVoice_uops (s : State) (v : Nat) (x : Voice) : (setVoice s v x).uops = s.uops := rfl
@[simp] theorem setVoice_ret (s : State) (v : Nat) (x : Voice) : (setVoice s v x).ret = s.ret := rfl
@[simp] theorem setVoice_era (s : State) (v : Nat) (x : Voice) : (setVoice s v x).era = s.era := rfl
@[simp] theorem setVoice_slots (s : State) (v : Nat) (x : Voice) : (setVoice s v x).slots = s.slots := rfl

@[simp] theorem tblReplace_par (s : State) (k : Kind) (ws : List NumWord) : (tblReplace s k ws).par = s.par := rfl
@[simp] theorem tblReplace_cfg (s : State) (k : Kind) (ws : List NumWord) : (tblReplace s k ws).cfg = s.cfg := rfl
@[simp] theorem tblReplace_prepared (s : State) (k : Kind) (ws : List NumWord) : (tblReplace s k ws).prepared = s.prepared := rfl
@[simp] theorem tblReplace_atkInc (s : State) (k : Kind) (ws : List NumWord) : (tblReplace s k ws).atkInc = s.atkInc := rfl
@[simp] theorem tblReplace_decDec (s : State) (k : Kind) (ws : List NumWord) : (tblReplace s k ws).decDec = s.decDec := rfl
@[simp] theorem tblReplace_tblAttr (s : State) (k : Kind) (ws : List NumWord) : (tblReplace s k ws).tblAttr = s.tblAttr := rfl
@[simp] theorem tblReplace_voices (s : State) (k : Kind) (ws : List NumWord) : (tblReplace s k ws).voices = s.voices := rfl
@[simp] theorem tblReplace_tbl (s : State) (k : Kind) (ws : List NumWord) : (tblReplace s k ws).tbl = s.tbl.set k (Mem.fromWords 0 ws) := rfl
@[simp] theorem tblReplace_buf (s : State) (k : Kind) (ws : List NumWord) : (tblReplace s k ws).buf = s.buf := rfl
@[simp] theorem tblReplace_rt (s : State) (k : Kind) (ws : List NumWord) : (tblReplace s k ws).rt = s.rt := rfl
@[simp] theorem tblReplace_ctl (s : State) (k : Kind) (ws : List NumWord) : (tblReplace s k ws).ctl = s.ctl := rfl
@[simp] theorem tblReplace_arrivals (s : State) (k : Kind) (ws : List NumWord) : (tblReplace s k ws).arrivals = s.arrivals := rfl
@[simp] theorem tblReplace_rnd (s : State) (k : Kind) (ws : List NumWord) : (tblReplace s k ws).rnd = s.rnd := rfl
@[simp] theorem tblReplace_uops (s : State) (k : Kind) (ws : List NumWord) : (tblReplace s k ws).uops = s.uops := rfl
@[simp] theorem tblReplace_ret (s : State) (k : Kind) (ws : List NumWord) : (tblReplace s k ws).ret = s.ret := rfl
@[simp] theorem tblReplace_era (s : State) (k : Kind) (ws : List NumWord) : (tblReplace s k ws).era = s.era := rfl
@[simp] theorem tblReplace_slots (s : State) (k : Kind) (ws : List NumWord) : (tblReplace s k ws).slots = s.slots := rfl

@[simp] theorem State.answer_par (s : State) (x : NumWord) : (s.answer x).par = s.par := rfl
@[simp] theorem State.answer_cfg (s : State) (x : NumWord) : (s.answer x).cfg = s.cfg := rfl
@[simp] theorem State.answer_prepared (s : State) (x : NumWord) : (s.answer x).prepared = s.prepared := rfl
@[simp] theorem State.answer_atkInc (s : State) (x : NumWord) : (s.answer x).atkInc = s.atkInc := rfl
@[simp] theorem State.answer_decDec (s : State) (x : NumWord) : (s.answer x).decDec = s.decDec := rfl
@[simp] theorem State.answer_tblAttr (s : State) (x : NumWord) : (s.answer x).tblAttr = s.tblAttr := rfl
@[simp] theorem State.answer_voices (s : State) (x : NumWord) : (s.answer x).voices = s.voices := rfl
@[simp] theorem State.answer_tbl (s : State) (x : NumWord) : (s.answer x).tbl = s.tbl := rfl
@[simp] theorem State.answer_buf (s : State) (x : NumWord) : (s.answer x).buf = s.buf := rfl
@[simp] theorem State.answer_rt (s : State) (x : NumWord) : (s.answer x).rt = s.rt := rfl
@[simp] theorem State.answer_ctl (s : State) (x : NumWord) : (s.answer x).ctl = s.ctl := rfl
@[simp] theorem State.answer_arrivals (s : State) (x : NumWord) : (s.answer x).arrivals = s.arrivals := rfl
@[simp] theorem State.answer_rnd (s : State) (x : NumWord) : (s.answer x).rnd = s.rnd := rfl
@[simp] theorem State.answer_uops (s : State) (x : NumWord) : (s.answer x).uops = s.uops := rfl
@[simp] theorem State.answer_ret (s : State) (x : NumWord) : (s.answer x).ret = x := rfl
@[simp] theorem State.answer_era (s : State) (x : NumWord) : (s.answer x).era = s.era := rfl
@[simp] theorem State.answer_slots (s : State) (x : NumWord) : (s.answer x).slots = s.slots := rfl

@[simp] theorem envRates_par (s : State) : (envRates s).par = s.par := rfl
@[simp] theorem envRates_cfg (s : State) : (envRates s).cfg = s.cfg := rfl
@[simp] theorem envRates_prepared (s : State) : (envRates s).prepared = s.prepared := rfl
@[simp] theorem envRates_atkInc (s : State) : (envRates s).atkInc = attackRate s.par.fmt s.cfg.a s.cfg.fs := rfl
@[simp] theorem envRates_decDec (s : State) : (envRates s).decDec = decayRate s.par.fmt s.cfg.d s.cfg.s s.cfg.fs := rfl
@[simp] theorem envRates_tblAttr (s : State) : (envRates s).tblAttr = s.tblAttr := rfl
@[simp] theorem envRates_voices (s : State) : (envRates s).voices = s.voices := rfl
@[simp] theorem envRates_tbl (s : State) : (envRates s).tbl = s.tbl := rfl
@[simp] theorem envRates_buf (s : State) : (envRates s).buf = s.buf := rfl
@[simp] theorem envRates_rt (s : State) : (envRates s).rt = s.rt := rfl
@[simp] theorem envRates_ctl (s : State) : (envRates s).ctl = s.ctl := rfl
@[simp] theorem envRates_arrivals (s : State) : (envRates s).arrivals = s.arrivals := rfl
@[simp] theorem envRates_rnd (s : State) : (envRates s).rnd = s.rnd := rfl
@[simp] theorem envRates_uops (s : State) : (envRates s).uops = s.uops := rfl
@[simp] theorem envRates_ret (s : State) : (envRates s).ret = s.ret := rfl
@[simp] theorem envRates_era (s : State) : (envRates s).era = s.era := rfl
@[simp] theorem envRates_slots (s : State) : (envRates s).slots = s.slots := rfl

@[simp] theorem resetVoices_par (s : State) : (resetVoices s).par = s.par := rfl
@[simp] theorem resetVoices_cfg (s : State) : (resetVoices s).cfg = s.cfg := rfl
@[simp] theorem resetVoices_prepared (s : State) : (resetVoices s).prepared = s.prepared := rfl
@[simp] theorem resetVoices_atkInc (s : State) : (resetVoices s).atkInc = s.atkInc := rfl
@[simp] theorem resetVoices_decDec (s : State) : (resetVoices s).decDec = s.decDec := rfl
@[simp] theorem resetVoices_tblAttr (s : State) : (resetVoices s).tblAttr = s.tblAttr := rfl
@[simp] theorem resetVoices_voices (s : State) : (resetVoices s).voices = s.voices.map (resetVoice s.par.fmt) := rfl
@[simp] theorem resetVoices_tbl (s : State) : (resetVoices s).tbl = s.tbl := rfl
@[simp] theorem resetVoices_buf (s : State) : (resetVoices s).buf = s.buf := rfl
@[simp] theorem resetVoices_rt (s : State) : (resetVoices s).rt = s.rt := rfl
@[simp] theorem resetVoices_ctl (s : State) : (resetVoices s).ctl = s.ctl := rfl
@[simp] theorem resetVoices_arrivals (s : State) : (resetVoices s).arrivals = s.arrivals := rfl
@[simp] theorem resetVoices_rnd (s : State) : (resetVoices s).rnd = s.rnd := rfl
@[simp] theorem resetVoices_uops (s : State) : (resetVoices s).uops = s.uops := rfl
@[simp] theorem resetVoices_ret (s : State) : (resetVoices s).ret = s.ret := rfl
@[simp] theorem resetVoices_era (s : State) : (resetVoices s).era = s.era := rfl
@[simp] theorem resetVoices_slots (s : State) : (resetVoices s).slots = s.slots := rfl

@[simp] theorem forgetPrepared_par (s : State) : (forgetPrepared s).par = s.par := rfl
@[simp] theorem forgetPrepared_cfg (s : State) : (forgetPrepared s).cfg = { s.cfg with fs := Config.releasedNum s.era 0, maxblk := Config.releasedMaxblk s.era } := rfl
@[simp] theorem forgetPrepared_prepared (s : State) : (forgetPrepared s).prepared = s.prepared := rfl
@[simp] theorem forgetPrepared_voices (s : State) : (forgetPrepared s).voices = s.voices := rfl
@[simp] theorem forgetPrepared_tbl (s : State) : (forgetPrepared s).tbl = PerKind.all [] := rfl
@[simp] theorem forgetPrepared_buf (s : State) : (forgetPrepared s).buf = [] := rfl
@[simp] theorem forgetPrepared_rt (s : State) : (forgetPrepared s).rt = s.rt := rfl
@[simp] theorem forgetPrepared_ctl (s : State) : (forgetPrepared s).ctl = s.ctl := rfl
@[simp] theorem forgetPrepared_arrivals (s : State) : (forgetPrepared s).arrivals = s.arrivals := rfl
@[simp] theorem forgetPrepared_rnd (s : State) : (forgetPrepared s).rnd = s.rnd := rfl
@[simp] theorem forgetPrepared_uops (s : State) : (forgetPrepared s).uops = s.uops := rfl
@[simp] theorem forgetPrepared_ret (s : State) : (forgetPrepared s).ret = s.ret := rfl
@[simp] theorem forgetPrepared_era (s : State) : (forgetPrepared s).era = s.era + 1 := rfl
@[simp] theorem forgetPrepared_slots (s : State) : (forgetPrepared s).slots = s.slots := rfl

@[simp] theorem applyReset_par (s : State) : (applyReset s).par = s.par := rfl
@[simp] theorem applyReset_cfg (s : State) : (applyReset s).cfg = Ctrl.atReset s.par.fmt := rfl
@[simp] theorem applyReset_prepared (s : State) : (applyReset s).prepared = false := rfl
@[simp] theorem applyReset_atkInc (s : State) : (applyReset s).atkInc = s.par.fmt.ofInt 0 := rfl
@[simp] theorem applyReset_decDec (s : State) : (applyReset s).decDec = s.par.fmt.ofInt 0 := rfl
@[simp] theorem applyReset_tblAttr (s : State) : (applyReset s).tblAttr = PerKind.all { h := 0#5, fs := s.par.fmt.ofInt 0 } := rfl
@[simp] theorem applyReset_voices (s : State) : (applyReset s).voices = List.replicate s.par.poolSize (Voice.atReset s.par.fmt) := rfl
@[simp] theorem applyReset_tbl (s : State) : (applyReset s).tbl = PerKind.all [] := rfl
@[simp] theorem applyReset_buf (s : State) : (applyReset s).buf = [] := rfl
@[simp] theorem applyReset_rt (s : State) : (applyReset s).rt = [] := rfl
@[simp] theorem applyReset_ctl (s : State) : (applyReset s).ctl = [] := rfl
@[simp] theorem applyReset_arrivals (s : State) : (applyReset s).arrivals = s.arrivals := rfl
@[simp] theorem applyReset_rnd (s : State) : (applyReset s).rnd = s.rnd := rfl
@[simp] theorem applyReset_uops (s : State) : (applyReset s).uops = [] := rfl
@[simp] theorem applyReset_ret (s : State) : (applyReset s).ret = s.par.fmt.ofInt 0 := rfl
@[simp] theorem applyReset_era (s : State) : (applyReset s).era = s.era + 1 := rfl
@[simp] theorem applyReset_slots (s : State) : (applyReset s).slots = s.slots := rfl

@[simp] theorem PerKind.get_set_same {α : Type} (p : PerKind α) (k : Kind) (x : α) : (p.set k x).get k = x := by
  cases k <;> rfl

theorem PerKind.get_set_other {α : Type} (p : PerKind α) {k k' : Kind} (x : α) (h : k' ≠ k) :
    (p.set k x).get k' = p.get k' := by
  cases k <;> cases k' <;> first | rfl | exact absurd rfl h

@[simp] theorem PerKind.get_all {α : Type} (x : α) (k : Kind) : (PerKind.all x).get k = x := by cases k <;> rfl

/-- Two per-kind stores that agree at every kind are equal. -/
theorem PerKind.ext_get {α : Type} {p q : PerKind α} (h : ∀ k, p.get k = q.get k) : p = q := by
  cases p; cases q
  have h1 := h .sine
  have h2 := h .saw
  have h3 := h .square
  have h4 := h .triangle
  simp only [PerKind.get] at h1 h2 h3 h4
  subst h1; subst h2; subst h3; subst h4; rfl

end Sys2Proof.Machine
end

