-- ==== Sys2Proof/Laws/Ops.lean ====
section
/-! SUPPORT. What each shared operation over the voices, the random source and the status can do (00_scope.md R12 to
R15): one lemma each, cited instead of unfolding the operation. -/

namespace Sys2Proof.Machine

/-! ### Outcomes -/

/-- An operation's step goes on exactly when it answers a state. -/
@[simp] theorem finish_eq_next (r : Res State) (t : State) : finish r = .next t ↔ r = .ok t := by
  cases r <;> simp [finish]

/-- An operation's step stops exactly when it raises. -/
@[simp] theorem finish_eq_fault (r : Res State) (f : Fault) : finish r = .fault f ↔ r = .error f := by
  cases r <;> simp [finish]

/-- No operation refuses. -/
@[simp] theorem finish_ne_refused (r : Res State) (x : Refusal) : finish r ≠ .refused x := by
  cases r <;> simp [finish]

@[simp] theorem finish_ok (t : State) : finish (.ok t) = .next t := rfl

@[simp] theorem finish_error (f : Fault) : finish (.error f) = .fault f := rfl

@[simp] theorem raise_ne_ok {α : Type} (f : Fault) (x : α) : raise f ≠ .ok x := by simp [raise]

@[simp] theorem raise_eq {α : Type} (f : Fault) : (raise f : Res α) = .error f := rfl

/-- What a sequence of two operations answers, the first must have answered for. -/
theorem bind_eq_ok {ε α β : Type} (m : Except ε α) (f : α → Except ε β) (y : β) :
    (m >>= f) = .ok y ↔ ∃ x, m = .ok x ∧ f x = .ok y := by
  cases m with
  | error e => simp [bind, Except.bind]
  | ok x => simp [bind, Except.bind]

@[simp] theorem ok_bind {ε α β : Type} (x : α) (f : α → Except ε β) : ((Except.ok x : Except ε α) >>= f) = f x := rfl

@[simp] theorem error_bind {ε α β : Type} (e : ε) (f : α → Except ε β) :
    ((Except.error e : Except ε α) >>= f) = .error e := rfl

@[simp] theorem zext16_eq (w : BitVec 16) : zext16 w = w.toNat := rfl

/-! ### Voices -/

theorem getVoice_eq_ok {s : State} {v : Nat} {x : Voice} : getVoice s v = .ok x ↔ s.voices[v]? = some x := by
  unfold getVoice; split <;> simp_all

theorem getVoice_of {s : State} {v : Nat} {x : Voice} (h : s.voices[v]? = some x) : getVoice s v = .ok x :=
  getVoice_eq_ok.2 h

theorem getVoice_none {s : State} {v : Nat} (h : s.voices[v]? = none) : getVoice s v = .error (.noSuchVoice v) := by
  unfold getVoice; rw [h]; rfl

/-- A register update of one voice: the voice exists, and it alone changes. -/
theorem onVoice_eq_ok {s t : State} {v : Nat} {f : Voice → Voice} :
    onVoice s v f = .ok t ↔ ∃ x, s.voices[v]? = some x ∧ t = setVoice s v (f x) := by
  unfold onVoice getVoice
  cases h : s.voices[v]? with
  | none => simp
  | some x => simp [eq_comm]

theorem onVoice_of {s : State} {v : Nat} {f : Voice → Voice} {x : Voice} (h : s.voices[v]? = some x) :
    onVoice s v f = .ok (setVoice s v (f x)) := onVoice_eq_ok.2 ⟨x, h, rfl⟩

theorem onVoice_none {s : State} {v : Nat} {f : Voice → Voice} (h : s.voices[v]? = none) :
    onVoice s v f = .error (.noSuchVoice v) := by
  unfold onVoice; rw [getVoice_none h]

/-- Writing a voice's own registers back changes nothing. -/
theorem setVoice_self {s : State} {v : Nat} {x : Voice} (h : s.voices[v]? = some x) : setVoice s v x = s := by
  obtain ⟨hv, hx⟩ := List.getElem?_eq_some_iff.1 h
  unfold setVoice; rw [← hx, List.set_getElem_self]

/-- A voice of the list after one was replaced is the new one or an old one. -/
theorem mem_setVoice {s : State} {v : Nat} {x y : Voice} (h : y ∈ (setVoice s v x).voices) : y = x ∨ y ∈ s.voices :=
  (List.mem_or_eq_of_mem_set h).symm

@[simp] theorem osc_withOsc_main (x : Voice) (o : Osc) : (x.withOsc .main o).osc .main = o := rfl

/-- Writing an oscillator a voice has, then reading it. -/
theorem osc_withOsc_same {x : Voice} (h : x.subs.length = 8) (sel : OscSel) (o : Osc) : (x.withOsc sel o).osc sel = o := by
  cases sel with
  | main => rfl
  | sub i =>
    have hi : i.toNat < x.subs.length := by have := i.isLt; omega
    simp [Voice.withOsc, Voice.osc, List.getD_eq_getElem?_getD, hi]

/-- Writing one oscillator leaves every other one. -/
theorem osc_withOsc_other (x : Voice) {sel sel' : OscSel} (o : Osc) (h : sel' ≠ sel) :
    (x.withOsc sel o).osc sel' = x.osc sel' := by
  cases sel with
  | main =>
    cases sel' with
    | main => exact absurd rfl h
    | sub j => rfl
  | sub i =>
    cases sel' with
    | main => rfl
    | sub j =>
      have hij : i.toNat ≠ j.toNat := fun e => h (by rw [BitVec.eq_of_toNat_eq e])
      simp [Voice.withOsc, Voice.osc, List.getD_eq_getElem?_getD, hij]

/-- Writing one oscillator keeps the rest of the voice's registers. -/
theorem withOsc_fields (x : Voice) (sel : OscSel) (o : Osc) :
    (x.withOsc sel o).busy = x.busy ∧ (x.withOsc sel o).note = x.note ∧ (x.withOsc sel o).gain = x.gain
      ∧ (x.withOsc sel o).kind = x.kind ∧ (x.withOsc sel o).env = x.env
      ∧ (x.withOsc sel o).subs.length = x.subs.length
      ∧ (x.withOsc sel o).subs.map Slot.live = x.subs.map Slot.live := by
  cases sel with
  | main => simp [Voice.withOsc]
  | sub i =>
    refine ⟨rfl, rfl, rfl, rfl, rfl, by simp [Voice.withOsc], ?_⟩
    apply List.ext_getElem?
    intro j
    simp only [Voice.withOsc, List.getElem?_map, List.getElem?_modify]
    cases x.subs[j]? with
    | none => simp
    | some sl => by_cases hj : i.toNat = j <;> simp [hj]

@[simp] theorem clearLive_length (subs : List Slot) : (clearLive subs).length = subs.length := by simp [clearLive]

theorem live_of_mem_clearLive {subs : List Slot} {sl : Slot} (h : sl ∈ clearLive subs) : sl.live = false := by
  simp only [clearLive, List.mem_map] at h
  obtain ⟨a, _, rfl⟩ := h
  rfl

theorem clearLive_osc (subs : List Slot) : (clearLive subs).map Slot.osc = subs.map Slot.osc := by
  simp [clearLive, Function.comp_def]

/-- The first voice that passes a test: it passes, and none before it does. -/
theorem firstVoice_eq_some {test : Voice → Bool} {xs : List Voice} {v : Nat} :
    firstVoice test xs = some v ↔
      (∃ x, xs[v]? = some x ∧ test x = true) ∧ ∀ u y, u < v → xs[u]? = some y → test y = false := by
  induction xs generalizing v with
  | nil => simp [firstVoice]
  | cons x rest ih =>
    unfold firstVoice
    by_cases hx : test x = true
    · rw [if_pos hx]
      constructor
      · intro h
        obtain rfl : 0 = v := Option.some.inj h
        exact ⟨⟨x, rfl, hx⟩, fun u _ hu => absurd hu (Nat.not_lt_zero u)⟩
      · rintro ⟨_, h2⟩
        cases v with
        | zero => rfl
        | succ v => exact absurd (h2 0 x (Nat.succ_pos v) rfl) (by simp [hx])
    · rw [if_neg hx]
      cases v with
      | zero => simp [hx]
      | succ v =>
        simp only [Option.map_eq_some_iff, Nat.add_right_cancel_iff, exists_eq_right, ih, List.getElem?_cons_succ]
        refine and_congr_right fun _ => ⟨fun h u y hu hy => ?_, fun h u y hu hy => h (u + 1) y (by omega) hy⟩
        cases u with
        | zero => simp at hy; subst hy; simpa using hx
        | succ u => exact h u y (by omega) hy

theorem firstVoice_eq_none {test : Voice → Bool} {xs : List Voice} :
    firstVoice test xs = none ↔ ∀ x ∈ xs, test x = false := by
  induction xs with
  | nil => simp [firstVoice]
  | cons x rest ih =>
    unfold firstVoice
    by_cases hx : test x = true <;> simp [hx, ih]

/-! ### Draws -/

/-- What a draw does: it takes the oldest offered value, and a free value of the legal range when there is none. -/
theorem draw_cases (F : NumFmt NumWord) (n : Nat) (r : Rnd) :
    (r.draw F n).2.taken = r.taken + 1 ∧ (r.draw F n).2.offered = r.offered.tail
      ∧ (r.draw F n).1 = r.offered.headD (freeDraw F n r.taken) := by
  unfold Rnd.draw; split <;> simp_all

/-- A legal draw is a phase in the table (R15, R164). -/
theorem drawLegal_iff (n : Nat) (r : NumWord) :
    drawLegal numF32 n r = true ↔ F32.le 0#32 r.bits = true ∧ F32.lt r.bits (F32.ofInt n) = true := by
  unfold drawLegal; simp

/-- The free draw is legal (R15). -/
theorem drawLegal_freeDraw {n : Nat} (h0 : 0 < n) (h : n ≤ 2 ^ 24) (k : Nat) :
    drawLegal numF32 n (freeDraw numF32 n k) = true := by
  unfold freeDraw
  split_ifs with hd
  · exact hd
  · obtain ⟨fn, vn⟩ := F32.ofInt_nat h0 h
    have z : F32.isFinite 0#32 = true := rfl
    have vz : F32.value 0#32 = 0 := rfl
    have : F32.lt 0#32 (F32.ofInt n) = true := by
      rw [F32.lt_iff z fn, vz, vn]; exact_mod_cast Nat.mul_pos h0 F32.one_pos
    rw [drawLegal_iff]
    simp only [numF32_ofInt, ofInt_zero, NumWord.bits_f32]
    exact ⟨rfl, this⟩

/-- A draw is legal when every offered value is. -/
theorem draw_legal {n : Nat} (h0 : 0 < n) (h : n ≤ 2 ^ 24) {r : Rnd}
    (hr : ∀ x ∈ r.offered, drawLegal numF32 n x = true) :
    drawLegal numF32 n (r.draw numF32 n).1 = true ∧ ∀ x ∈ (r.draw numF32 n).2.offered, drawLegal numF32 n x = true := by
  obtain ⟨-, h2, h3⟩ := draw_cases numF32 n r
  rw [h2, h3]
  cases hoff : r.offered with
  | nil => simp [drawLegal_freeDraw h0 h]
  | cons a rest => rw [hoff] at hr; simpa using hr

end Sys2Proof.Machine
end

