-- ==== Sys2Proof/Laws/Builder.lean ====
section
/-! SUPPORT. What a build answers (40_wavetable_builder.md R131 to R140): the lengths its passes keep, the guard, and
the one lemma for `build` and for `rebuild_all` that says everything they change. -/

namespace Sys2Proof.Machine

theorem finiteOr_eq_ok {α : Type} {F : NumFmt α} {x y : α} :
    finiteOr F x = .ok y ↔ F.isFinite x = true ∧ y = x := by
  unfold finiteOr; split_ifs with h <;> simp [h, eq_comm]

theorem finiteOr_of {α : Type} {F : NumFmt α} {x : α} (h : F.isFinite x = true) : finiteOr F x = .ok x := if_pos h

theorem addPartial_length {α : Type} {F : NumFmt α} {n : Nat} {m amp : α} {acc out : List α} {i : Nat}
    (h : addPartial F n m amp i acc = .ok out) : out.length = acc.length := by
  induction acc generalizing i out with
  | nil => simp [addPartial] at h; subst h; rfl
  | cons x rest ih =>
    simp only [addPartial, bind_eq_ok] at h
    obtain ⟨t, -, y, -, ys, hys, hout⟩ := h
    cases hout
    simp [ih hys]

theorem addHarmonics_length {α : Type} {F : NumFmt α} {n : Nat} {k : Kind} {f0 nyq : α} {count ord : Nat}
    {acc out : List α} (h : addHarmonics F n k f0 nyq count ord acc = .ok out) : out.length = acc.length := by
  induction count generalizing ord acc with
  | zero => cases h; rfl
  | succ count ih =>
    simp only [addHarmonics, bind_eq_ok] at h
    obtain ⟨f, -, h⟩ := h
    split_ifs at h
    · cases h; rfl
    · simp only [bind_eq_ok] at h
      obtain ⟨m, -, amp, -, acc', hacc, h⟩ := h
      rw [ih h, addPartial_length hacc]

theorem divideBy_eq_ok {α : Type} {F : NumFmt α} {peak : α} {acc out : List α} :
    divideBy F peak acc = .ok out ↔
      out = acc.map (fun x => F.div x peak) ∧ ∀ x ∈ acc, F.isFinite (F.div x peak) = true := by
  induction acc generalizing out with
  | nil => simp only [divideBy, Except.ok.injEq, List.map_nil, List.not_mem_nil, false_implies, implies_true, and_true]; exact eq_comm
  | cons x rest ih =>
    simp only [divideBy, bind_eq_ok, finiteOr_eq_ok, ih]
    constructor
    · rintro ⟨y, ⟨hy, rfl⟩, ys, ⟨rfl, hys⟩, hout⟩
      cases hout
      simp only [List.map_cons, List.mem_cons, forall_eq_or_imp]
      exact ⟨trivial, hy, hys⟩
    · rintro ⟨rfl, h⟩
      simp only [List.mem_cons, forall_eq_or_imp] at h
      exact ⟨_, ⟨h.1, rfl⟩, _, ⟨rfl, h.2⟩, rfl⟩

theorem normalize_length {α : Type} {F : NumFmt α} {acc out : List α} (h : normalize F acc = .ok out) :
    out.length = acc.length := by
  unfold normalize at h
  split_ifs at h
  · rw [(divideBy_eq_ok.1 h).1, List.length_map]
  · cases h; rfl

/-- What a whole build answers: the normalized accumulator and its guard. -/
theorem buildWords_eq_ok {α : Type} {F : NumFmt α} {n : Nat} {k : Kind} {harm : Nat} {f0 fs : α} {words : List α} :
    buildWords F n k harm f0 fs = .ok words ↔
      F.isFinite (F.div fs (F.ofInt 2)) = true ∧ ∃ acc out,
        addHarmonics F n k f0 (F.div fs (F.ofInt 2)) harm 1 (List.replicate n (F.ofInt 0)) = .ok acc
          ∧ normalize F acc = .ok out ∧ words = withGuard F out := by
  simp only [buildWords, bind_eq_ok, finiteOr_eq_ok]
  constructor
  · rintro ⟨nyq, ⟨h1, rfl⟩, acc, h2, out, h3, h4⟩
    cases h4
    exact ⟨h1, acc, out, h2, h3, rfl⟩
  · rintro ⟨h1, acc, out, h2, h3, rfl⟩
    exact ⟨_, ⟨h1, rfl⟩, acc, h2, out, h3, rfl⟩

/-- A table has `N + 1` words. -/
theorem buildWords_length {α : Type} {F : NumFmt α} {n : Nat} {k : Kind} {harm : Nat} {f0 fs : α} {words : List α}
    (h : buildWords F n k harm f0 fs = .ok words) : words.length = n + 1 := by
  obtain ⟨-, acc, out, h1, h2, rfl⟩ := buildWords_eq_ok.1 h
  simp [withGuard, normalize_length h2, addHarmonics_length h1]

/-- The guard is a copy of index 0 (R138). -/
theorem buildWords_guard {α : Type} {F : NumFmt α} {n : Nat} (hn : 0 < n) {k : Kind} {harm : Nat} {f0 fs : α}
    {words : List α} (h : buildWords F n k harm f0 fs = .ok words) : words[n]? = words[0]? := by
  obtain ⟨-, acc, out, h1, h2, rfl⟩ := buildWords_eq_ok.1 h
  have hl : out.length = n := by simp [normalize_length h2, addHarmonics_length h1]
  cases out with
  | nil => simp at hl; omega
  | cons x rest => subst hl; simp [withGuard]

/-- Everything `build` does when it answers a state. -/
theorem buildTable_eq_ok {s t : State} {k : Kind} {h : BitVec 5} {f0 fs : NumWord} :
    buildTable s k h f0 fs = .ok t ↔
      ∃ words, buildWords s.par.fmt s.par.tableSize k h.toNat f0 fs = .ok words
        ∧ t = { s with
                tbl := s.tbl.set k (Mem.fromWords 0 words)
                tblAttr := s.tblAttr.set k { h := h, fs := fs } } := by
  unfold buildTable
  split
  · simp_all
  · next w hw => simp [hw, tblReplace, eq_comm]

/-- Everything `rebuild_all` does when it answers a state. -/
theorem rebuildTables_eq_ok {s t : State} :
    rebuildTables s = .ok t ↔
      ∃ words : Kind → List NumWord,
        (∀ k, buildWords s.par.fmt s.par.tableSize k s.cfg.harm.toNat s.par.fBuild s.cfg.fs = .ok (words k))
          ∧ t = { s with
                  tbl :=
                    { sine := Mem.fromWords 0 (words .sine), saw := Mem.fromWords 0 (words .saw)
                      square := Mem.fromWords 0 (words .square), triangle := Mem.fromWords 0 (words .triangle) }
                  tblAttr := PerKind.all { h := s.cfg.harm, fs := s.cfg.fs } } := by
  simp only [rebuildTables, bind_eq_ok, buildTable_eq_ok]
  constructor
  · rintro ⟨_, ⟨w1, h1, rfl⟩, _, ⟨w2, h2, rfl⟩, _, ⟨w3, h3, rfl⟩, w4, h4, rfl⟩
    refine ⟨fun k => match k with | .sine => w1 | .saw => w2 | .square => w3 | .triangle => w4, ?_, rfl⟩
    intro k
    cases k
    · exact h1
    · exact h2
    · exact h3
    · exact h4
  · rintro ⟨w, h, rfl⟩
    exact ⟨_, ⟨_, h .sine, rfl⟩, _, ⟨_, h .saw, rfl⟩, _, ⟨_, h .square, rfl⟩, _, h .triangle, rfl⟩

/-- Reading a table that holds whole words. -/
theorem tblRead_of_fromWords {s : State} {k : Kind} {words : List NumWord} (h : s.tbl.get k = Mem.fromWords 0 words)
    {i : Nat} {x : NumWord} (hx : words[i]? = some x) : tblRead s k i = x := by
  have := Mem.get?_fromWords words 0 i
  rw [Nat.zero_add, hx] at this
  unfold tblRead; rw [h, this]

end Sys2Proof.Machine
end

