-- ==== Sys2Proof/Laws/Mixer.lean ====
section
/-! SUPPORT. What clearing and accumulating do to the sample buffer (45_voice_mixer_sample_buf.md R251, R253): every
word read after, the frames that exist, and the canonical form. -/

namespace Sys2Proof.Machine

theorem bufRead_put {s : State} {b : Mem} {c a c' a' : Nat} {x : NumWord} (ha : a < s.par.bufLen)
    (ha' : a' < s.par.bufLen) :
    bufRead s (bufWrite s.par b c a x) c' a' = if c' = c ∧ a' = a then x else bufRead s b c' a' := by
  unfold bufRead bufWrite
  rw [Mem.get?_put]
  by_cases h : c' = c ∧ a' = a
  · obtain ⟨rfl, rfl⟩ := h; simp
  · have hne : bufAddr s.par c' a' ≠ bufAddr s.par c a := fun e => h (bufAddr_inj ha' ha e)
    rw [if_neg h, if_neg hne]

/-- The buffer reads through the parameters and the era alone. -/
theorem bufRead_congr {s t : State} (hp : t.par = s.par) (he : t.era = s.era) (b : Mem) (c a : Nat) :
    bufRead t b c a = bufRead s b c a := by
  unfold bufRead; rw [hp, he]

/-- Clearing a frame in a run of channels. -/
theorem bufRead_clearFrame {s : State} {a count c : Nat} {b : Mem} {c' a' : Nat} (ha : a < s.par.bufLen)
    (ha' : a' < s.par.bufLen) :
    bufRead s (clearFrame s.par a count c b) c' a'
      = if a' = a ∧ c ≤ c' ∧ c' < c + count then s.par.fmt.ofInt 0 else bufRead s b c' a' := by
  induction count generalizing c b with
  | zero => rw [clearFrame, if_neg (by omega)]
  | succ count ih =>
    rw [clearFrame, ih, bufRead_put ha ha']
    by_cases h1 : a' = a ∧ c + 1 ≤ c' ∧ c' < c + 1 + count
    · rw [if_pos h1, if_pos (by omega)]
    · rw [if_neg h1]
      by_cases h2 : c' = c ∧ a' = a
      · rw [if_pos h2, if_pos (by omega)]
      · rw [if_neg h2, if_neg (by omega)]

/-- Everything clearing frames does when it answers: the frames exist, and exactly their words are zero. -/
theorem clearFrames_ok {s : State} {count a : Nat} {b b' : Mem} (h : clearFrames s.par count a b = .ok b') :
    (count = 0 ∨ a + count ≤ s.par.bufLen) ∧
      ∀ c' a', a' < s.par.bufLen →
        bufRead s b' c' a'
          = if a ≤ a' ∧ a' < a + count ∧ c' < s.par.channels then s.par.fmt.ofInt 0 else bufRead s b c' a' := by
  induction count generalizing a b with
  | zero =>
    cases h
    exact ⟨.inl rfl, fun c' a' _ => by rw [if_neg (by omega)]⟩
  | succ count ih =>
    unfold clearFrames at h
    split_ifs at h with ha
    · obtain ⟨h1, h2⟩ := ih h
      refine ⟨.inr (by omega), fun c' a' ha' => ?_⟩
      rw [h2 c' a' ha', bufRead_clearFrame ha ha']
      by_cases h3 : a + 1 ≤ a' ∧ a' < a + 1 + count ∧ c' < s.par.channels
      · rw [if_pos h3, if_pos (by omega)]
      · rw [if_neg h3]
        by_cases h4 : a' = a ∧ 0 ≤ c' ∧ c' < 0 + s.par.channels
        · rw [if_pos h4, if_pos (by omega)]
        · rw [if_neg h4, if_neg (by omega)]
    · simp at h

/-- Clearing frames that exist completes. -/
theorem clearFrames_completes {p : Params} {count a : Nat} (b : Mem) (h : a + count ≤ p.bufLen) :
    ∃ b', clearFrames p count a b = .ok b' := by
  induction count generalizing a b with
  | zero => exact ⟨b, rfl⟩
  | succ count ih =>
    unfold clearFrames
    rw [if_pos (by omega)]
    exact ih _ (by omega)

/-- Accumulating into a frame in a run of channels. -/
theorem bufRead_addFrame {s : State} {a count c : Nat} {y : NumWord} {b : Mem} {c' a' : Nat} (ha : a < s.par.bufLen)
    (ha' : a' < s.par.bufLen) :
    bufRead s (addFrame s a y count c b) c' a'
      = if a' = a ∧ c ≤ c' ∧ c' < c + count then s.par.fmt.add (bufRead s b c' a') y else bufRead s b c' a' := by
  induction count generalizing c b with
  | zero => rw [addFrame, if_neg (by omega)]
  | succ count ih =>
    rw [addFrame, ih, bufRead_put ha ha']
    by_cases h1 : a' = a ∧ c + 1 ≤ c' ∧ c' < c + 1 + count
    · rw [if_pos h1, if_neg (by omega), if_pos (by omega)]
    · rw [if_neg h1]
      by_cases h2 : c' = c ∧ a' = a
      · rw [if_pos h2, if_pos (by omega)]
        obtain ⟨rfl, rfl⟩ := h2; rfl
      · rw [if_neg h2, if_neg (by omega)]

/-- Everything `mix_acc` does when it answers: the frame exists, and its word in every channel alone is increased. -/
theorem mixAcc_ok {s : State} {b b' : Mem} {a : Nat} {y : NumWord} (h : mixAcc s b a y = .ok b') :
    a < s.par.bufLen ∧
      ∀ c' a', a' < s.par.bufLen →
        bufRead s b' c' a'
          = if a' = a ∧ c' < s.par.channels then s.par.fmt.add (bufRead s b c' a') y else bufRead s b c' a' := by
  unfold mixAcc at h
  split_ifs at h with ha
  · cases h
    refine ⟨ha, fun c' a' ha' => ?_⟩
    rw [bufRead_addFrame ha ha']
    simp
  · simp at h

/-- Accumulating reads the state only through its parameters and its era. -/
theorem mixAcc_congr {s t : State} (hp : t.par = s.par) (he : t.era = s.era) (b : Mem) (a : Nat) (y : NumWord) :
    mixAcc t b a y = mixAcc s b a y := by
  have key : ∀ count c b, addFrame t a y count c b = addFrame s a y count c b := by
    intro count
    induction count with
    | zero => intros; rfl
    | succ count ih => intro c b; rw [addFrame, addFrame, ih, bufRead_congr hp he, hp]
  unfold mixAcc; rw [hp, key]

/-- The buffer is canonical and lists only words that exist (20_memory.md R64). -/
def BufLegal (p : Params) (b : Mem) : Prop := b.wf = true ∧ ∀ c ∈ b, c.1 < p.channels * p.bufLen

theorem bufLegal_write {p : Params} {b : Mem} {c a : Nat} (x : NumWord) (hc : c < p.channels) (ha : a < p.bufLen)
    (h : BufLegal p b) : BufLegal p (bufWrite p b c a x) := by
  refine ⟨Mem.wf_put _ _ h.1, fun cell hcell => ?_⟩
  rcases Mem.mem_put hcell with rfl | hm
  · exact bufAddr_lt hc ha
  · exact h.2 _ hm

theorem bufLegal_clearFrame {p : Params} {a count c : Nat} {b : Mem} (hc : c + count ≤ p.channels) (ha : a < p.bufLen)
    (h : BufLegal p b) : BufLegal p (clearFrame p a count c b) := by
  induction count generalizing c b with
  | zero => exact h
  | succ count ih => exact ih (by omega) (bufLegal_write _ (by omega) ha h)

theorem bufLegal_clearFrames {p : Params} {count a : Nat} {b b' : Mem} (h : BufLegal p b)
    (hb : clearFrames p count a b = .ok b') : BufLegal p b' := by
  induction count generalizing a b with
  | zero => cases hb; exact h
  | succ count ih =>
    unfold clearFrames at hb
    split_ifs at hb with ha
    · exact ih (bufLegal_clearFrame (by omega) ha h) hb
    · simp at hb

theorem bufLegal_addFrame {s : State} {a count c : Nat} {y : NumWord} {b : Mem} (hc : c + count ≤ s.par.channels)
    (ha : a < s.par.bufLen) (h : BufLegal s.par b) : BufLegal s.par (addFrame s a y count c b) := by
  induction count generalizing c b with
  | zero => exact h
  | succ count ih => exact ih (by omega) (bufLegal_write _ (by omega) ha h)

theorem bufLegal_mixAcc {s : State} {b b' : Mem} {a : Nat} {y : NumWord} (h : BufLegal s.par b)
    (hb : mixAcc s b a y = .ok b') : BufLegal s.par b' := by
  unfold mixAcc at hb
  split_ifs at hb with ha
  · cases hb; exact bufLegal_addFrame (by omega) ha h
  · simp at hb

end Sys2Proof.Machine
end

