-- ==== Sys2Proof/Laws/Voice.lean ====
section
/-! SUPPORT. What starting a voice and rendering one can do (44_voice.md R223 to R227), and when a table read completes
(42_table_reader.md R181). -/

namespace Sys2Proof.Machine

/-! ### Reading the table -/

/-- A table read of a finite phase whose whole part is an index below `N`. -/
theorem interpolate_of_floor {s : State} {k : Kind} {phase : NumWord} {j : Nat}
    (hf : s.par.fmt.isFinite phase = true) (hj : s.par.fmt.floor phase = (j : Int)) (hlt : j < s.par.tableSize) :
    interpolate s k phase
      = .ok (lerp s.par.fmt (tblRead s k j) (tblRead s k (j + 1)) (s.par.fmt.sub phase (s.par.fmt.ofInt j))) := by
  unfold interpolate
  rw [hf, hj, if_neg (by simp), if_neg (by omega)]
  rfl

/-- Everything a table read does: it answers only on a finite phase inside the table, and stops with `CV5` else. -/
theorem interpolate_cases (s : State) (k : Kind) (phase : NumWord) :
    (∃ j : Nat, s.par.fmt.isFinite phase = true ∧ s.par.fmt.floor phase = (j : Int) ∧ j < s.par.tableSize
        ∧ interpolate s k phase
          = .ok (lerp s.par.fmt (tblRead s k j) (tblRead s k (j + 1)) (s.par.fmt.sub phase (s.par.fmt.ofInt j))))
      ∨ interpolate s k phase = .error (.phaseRange k phase) := by
  by_cases h1 : s.par.fmt.isFinite phase = true
  · by_cases h2 : s.par.fmt.floor phase < 0 ∨ (s.par.tableSize : Int) - 1 < s.par.fmt.floor phase
    · refine .inr ?_
      unfold interpolate
      rw [h1, if_neg (by simp), if_pos h2]; rfl
    · obtain ⟨j, hj⟩ := Int.eq_ofNat_of_zero_le (by omega : 0 ≤ s.par.fmt.floor phase)
      exact .inl ⟨j, h1, hj, by omega, interpolate_of_floor h1 hj (by omega)⟩
  · refine .inr ?_
    unfold interpolate
    rw [Bool.eq_false_iff.2 h1, if_pos (by simp)]; rfl

/-- A read that stays in the table answers `readAt` (R181). -/
theorem interpolate_readable {s : State} {phase : NumWord} (k : Kind) (h : PhaseReadable s phase) :
    interpolate s k phase = .ok (readAt s k phase) := by
  obtain ⟨j, hj⟩ := Int.eq_ofNat_of_zero_le h.2.1
  have hlt : j < s.par.tableSize := by have := h.2.2; omega
  rw [interpolate_of_floor h.1 hj hlt, readAt, hj]
  rfl

/-- A read outside the table is `CV5` (R181, R302). -/
theorem interpolate_outside {s : State} {phase : NumWord} (k : Kind) (h : PhaseOutside s phase) :
    interpolate s k phase = .error (.phaseRange k phase) := by
  unfold interpolate
  rw [h.1, if_neg (by simp), if_pos h.2]; rfl

/-- A phase below zero is outside the table in every format that meets R11's laws (R181; log entry 5). -/
theorem phaseOutside_of_neg {s : State} {val : NumWord → ℝ} (h : LawfulNum s.par.fmt val) {phase : NumWord}
    (hf : s.par.fmt.isFinite phase = true) (hn : val phase < 0) : PhaseOutside s phase :=
  ⟨hf, .inl (by rw [h.floor_exact phase hf]; exact Int.floor_lt_zero.2 hn)⟩

/-- A phase in the table has a table index as its whole part. -/
theorem floor_of_phaseInTable {n : Nat} (h0 : 0 < n) (h : n ≤ 2 ^ 24) {o : Osc} (ho : PhaseInTable n o) :
    F32.isFinite o.phase.bits = true ∧ ∃ j : Nat, F32.floor o.phase.bits = (j : Int) ∧ j < n := by
  obtain ⟨fn, vn⟩ := F32.ofInt_nat h0 h
  have hfin := F32.finite_of_between fn ho.1 ho.2
  have hlo := (F32.le_iff (show F32.isFinite 0#32 = true from rfl) hfin).1 ho.1
  have hhi := (F32.lt_iff hfin fn).1 ho.2
  have vz : F32.value 0#32 = 0 := rfl
  rw [vz] at hlo
  rw [vn] at hhi
  have hp : (0 : Int) < (F32.one : Int) := by exact_mod_cast F32.one_pos
  have h1 : 0 ≤ F32.floor o.phase.bits := Int.ediv_nonneg hlo hp.le
  have h2 : F32.floor o.phase.bits < n := by
    unfold F32.floor
    rw [Int.ediv_lt_iff_lt_mul hp]; exact_mod_cast hhi
  obtain ⟨j, hj⟩ := Int.eq_ofNat_of_zero_le h1
  exact ⟨hfin, j, hj, by omega⟩

/-- Under `NUM_F32` a read at a phase in the table stays in the table (R63). -/
theorem phaseReadable_of_inTable {s : State} (hn : s.par.num = .f32) (h0 : 0 < s.par.tableSize)
    (h : s.par.tableSize ≤ 2 ^ 24) {o : Osc} (ho : PhaseInTable s.par.tableSize o) : PhaseReadable s o.phase := by
  obtain ⟨hf, j, hj, hlt⟩ := floor_of_phaseInTable h0 h ho
  unfold PhaseReadable
  rw [fmt_f32 hn, numF32_isFinite, numF32_floor, hj]
  exact ⟨hf, by omega, by omega⟩

/-- A read depends on the parameters, the tables and the era alone. -/
theorem interpolate_congr {s t : State} (hp : t.par = s.par) (ht : t.tbl = s.tbl) (he : t.era = s.era) (k : Kind)
    (phase : NumWord) : interpolate t k phase = interpolate s k phase := by
  unfold interpolate tblRead; rw [hp, ht, he]

theorem nextSample_eq_ok {s : State} {o o' : Osc} {k : Kind} {y : NumWord} :
    nextSample s o k = .ok (y, o') ↔ interpolate s k o.phase = .ok y ∧ o' = advance s.par.fmt s.par.tableSize o := by
  unfold nextSample
  split
  · simp_all
  · next h => rw [h]; simp [eq_comm]

@[simp] theorem advance_inc {α : Type} (F : NumFmt α) (n : Nat) (o : OscOf α) : (advance F n o).inc = o.inc := by
  unfold advance; split_ifs <;> rfl

/-! ### Starting a voice -/

/-- Starting slots keeps their number. -/
theorem startSlots_length (F : NumFmt NumWord) (n count : Nat) (f fs : NumWord) (i : Nat) (r : Rnd) (subs : List Slot) :
    (startSlots F n count f fs i r subs).1.length = subs.length := by
  induction subs generalizing i r with
  | nil => rfl
  | cons sl rest ih => unfold startSlots; split_ifs <;> simp [ih]

/-- What starting slots does to each of them (R223). -/
theorem startSlots_get {F : NumFmt NumWord} {n count : Nat} {f fs : NumWord} {i : Nat} {r : Rnd} {subs : List Slot} {j : Nat} {sl : Slot}
    (h : subs[j]? = some sl) :
    ∃ sl', (startSlots F n count f fs i r subs).1[j]? = some sl' ∧
      (sl'.live = true ↔
        i + j < count ∧ F.lt (F.div f (F.ofInt (((i + j : Nat) : Int) + 2))) (F.div fs (F.ofInt 2)) = true) ∧
      (sl'.live = true →
        sl'.osc.inc = F.mul (F.div f (F.ofInt (((i + j : Nat) : Int) + 2))) (F.div (F.ofInt n) fs)) ∧
      (sl'.live = false → sl'.osc = sl.osc) := by
  induction subs generalizing i r j with
  | nil => simp at h
  | cons x rest ih =>
    unfold startSlots
    cases j with
    | zero =>
      obtain rfl : x = sl := Option.some.inj h
      split_ifs with hc
      · exact ⟨_, rfl, ⟨fun _ => hc, fun _ => rfl⟩, fun _ => rfl, fun hf => absurd hf (by simp)⟩
      · exact ⟨_, rfl, ⟨fun hf => absurd hf (by simp), fun hf => absurd hf hc⟩, fun hf => absurd hf (by simp),
          fun _ => rfl⟩
    | succ j =>
      have h' : rest[j]? = some sl := by simpa using h
      have e : i + (j + 1) = i + 1 + j := by omega
      rw [e]
      split_ifs
      · exact ih h'
      · exact ih h'

/-- Each live slot takes exactly one draw (R348). -/
theorem startSlots_taken (F : NumFmt NumWord) (n count : Nat) (f fs : NumWord) (i : Nat) (r : Rnd) (subs : List Slot) :
    (startSlots F n count f fs i r subs).2.taken
      = r.taken + ((startSlots F n count f fs i r subs).1.filter Slot.live).length := by
  induction subs generalizing i r with
  | nil => rfl
  | cons x rest ih =>
    unfold startSlots
    split_ifs
    · simp only [ih, (draw_cases F n r).1, List.filter_cons, if_true, List.length_cons]; omega
    · simp [ih]

/-- The draws are taken in ascending slot index from what is offered (R348). -/
theorem startSlots_offered (F : NumFmt NumWord) (n count : Nat) (f fs : NumWord) (i : Nat) (r : Rnd) (subs : List Slot)
    (h : count ≤ i + r.offered.length) :
    r.offered = ((startSlots F n count f fs i r subs).1.filter Slot.live).map (fun sl => sl.osc.phase)
      ++ (startSlots F n count f fs i r subs).2.offered := by
  induction subs generalizing i r with
  | nil => rfl
  | cons x rest ih =>
    unfold startSlots
    obtain ⟨-, h2, h3⟩ := draw_cases F n r
    split_ifs with hc
    · cases hoff : r.offered with
      | nil => rw [hoff] at h; simp at h; omega
      | cons a tl =>
        rw [hoff] at h h2 h3
        have := ih (i + 1) (r.draw F n).2 (by rw [h2]; simp at h ⊢; omega)
        rw [h2] at this
        simp only [List.tail_cons] at this
        simp only [List.filter_cons, if_true, List.map_cons, List.cons_append, h3, List.headD_cons]
        rw [← this]
    · simp only [List.filter_cons, Bool.false_eq_true, if_false]
      exact ih _ _ (by omega)

theorem slotCount_le (sc : Int) : slotCount sc ≤ 8 := by
  unfold slotCount clampInt; split_ifs <;> omega

/-- Everything `voice_note_on` does when it answers: the voice exists, and it and the random source alone change. -/
theorem voiceNoteOn_eq_ok {s t : State} {v : Nat} {note : BitVec 7} {vel : NumWord} {k : Kind} {sc : Int} :
    voiceNoteOn s v note vel k sc = .ok t ↔
      ∃ x, s.voices[v]? = some x
        ∧ t = { setVoice s v (startVoice s x note vel k sc).1 with rnd := (startVoice s x note vel k sc).2 } := by
  unfold voiceNoteOn getVoice
  cases h : s.voices[v]? with
  | none => simp
  | some x => simp [eq_comm]

/-! ### Rendering a voice -/

/-- The parts of a voice's registers no sample changes. -/
def SameVoiceSetup (x y : Voice) : Prop :=
  y.note = x.note ∧ y.gain = x.gain ∧ y.kind = x.kind ∧ y.main.inc = x.main.inc
    ∧ y.subs.map (fun sl => sl.osc.inc) = x.subs.map (fun sl => sl.osc.inc)

theorem SameVoiceSetup.refl (x : Voice) : SameVoiceSetup x x := ⟨rfl, rfl, rfl, rfl, rfl⟩

theorem SameVoiceSetup.trans {x y z : Voice} (h : SameVoiceSetup x y) (g : SameVoiceSetup y z) : SameVoiceSetup x z :=
  ⟨g.1.trans h.1, g.2.1.trans h.2.1, g.2.2.1.trans h.2.2.1, g.2.2.2.1.trans h.2.2.2.1, g.2.2.2.2.trans h.2.2.2.2⟩

/-- What summing the slots leaves of them. -/
theorem sumSlots_slots {s : State} {k : Kind} {i : Nat} {acc t : NumWord} {subs out : List Slot}
    (h : sumSlots s k i acc subs = .ok (t, out)) : out = advanceSlots s.par.fmt s.par.tableSize subs := by
  induction subs generalizing i acc t out with
  | nil => cases h; rfl
  | cons sl rest ih =>
    unfold sumSlots at h
    split_ifs at h with hl
    · simp only [bind_eq_ok] at h
      obtain ⟨⟨y, o⟩, h1, ⟨t', rest'⟩, h2, h3⟩ := h
      cases h3
      rw [ih h2, (nextSample_eq_ok.1 h1).2]
      simp [advanceSlots, hl]
    · simp only [bind_eq_ok] at h
      obtain ⟨⟨t', rest'⟩, h2, h3⟩ := h
      cases h3
      rw [ih h2]
      simp [advanceSlots, hl]

/-- With no live slot the sum is what it started from. -/
theorem sumSlots_dead {s : State} {k : Kind} {i : Nat} {acc : NumWord} {subs : List Slot}
    (h : ∀ sl ∈ subs, sl.live = false) : sumSlots s k i acc subs = .ok (acc, subs) := by
  induction subs generalizing i acc with
  | nil => rfl
  | cons sl rest ih =>
    unfold sumSlots
    rw [if_neg (by simp [h sl List.mem_cons_self]), ih fun x hx => h x (List.mem_cons_of_mem _ hx)]
    rfl

/-- What summing the slots answers when every live slot can be read: the values of R225's sum, from index `i` on. -/
theorem sumSlots_readable {s : State} {k : Kind} {i : Nat} {acc : NumWord} {subs : List Slot}
    (hs : ∀ sl ∈ subs, sl.live = true → PhaseReadable s sl.osc.phase) :
    sumSlots s k i acc subs
      = .ok ((subs.zipIdx i).foldl
          (fun acc p =>
            if p.1.live then
              s.par.fmt.add acc (s.par.fmt.mul (readAt s k p.1.osc.phase)
                (s.par.fmt.div (s.par.fmt.lit 5 1) (s.par.fmt.ofInt ((p.2 : Int) + 2))))
            else acc) acc,
          advanceSlots s.par.fmt s.par.tableSize subs) := by
  induction subs generalizing i acc with
  | nil => rfl
  | cons sl rest ih =>
    have hr : ∀ x ∈ rest, x.live = true → PhaseReadable s x.osc.phase := fun x hx => hs x (List.mem_cons_of_mem _ hx)
    unfold sumSlots
    by_cases hl : sl.live = true
    · rw [if_pos hl, nextSample_eq_ok.2 ⟨interpolate_readable k (hs sl List.mem_cons_self hl), rfl⟩]
      simp only [ok_bind, ih hr, List.zipIdx_cons, List.foldl_cons, hl, if_true, slotWeight]
      simp [advanceSlots, hl]
    · rw [if_neg hl]
      simp only [ih hr, ok_bind, List.zipIdx_cons, List.foldl_cons, hl, if_false, Bool.false_eq_true]
      simp [advanceSlots, hl]

/-- A live slot outside the table stops the sum with `CV5`, when the live slots before it can be read. -/
theorem sumSlots_outside {s : State} {k : Kind} {i : Nat} {acc : NumWord} {subs : List Slot} {j : Nat} {sl : Slot}
    (hj : subs[j]? = some sl) (hl : sl.live = true) (ho : PhaseOutside s sl.osc.phase)
    (hs : ∀ (j' : Nat) (sl' : Slot), j' < j → subs[j']? = some sl' → sl'.live = true → PhaseReadable s sl'.osc.phase) :
    sumSlots s k i acc subs = .error (.phaseRange k sl.osc.phase) := by
  induction subs generalizing i acc j with
  | nil => simp at hj
  | cons x rest ih =>
    unfold sumSlots
    cases j with
    | zero =>
      obtain rfl : x = sl := Option.some.inj hj
      rw [if_pos hl]
      unfold nextSample
      rw [interpolate_outside k ho]; rfl
    | succ j =>
      have hj' : rest[j]? = some sl := by simpa using hj
      have hr : ∀ (j' : Nat) (sl' : Slot), j' < j → rest[j']? = some sl' → sl'.live = true →
          PhaseReadable s sl'.osc.phase := fun j' sl' h1 h2 => hs (j' + 1) sl' (by omega) (by simpa using h2)
      by_cases hx : x.live = true
      · rw [if_pos hx, nextSample_eq_ok.2 ⟨interpolate_readable k (hs 0 x (by omega) rfl hx), rfl⟩]
        simp only [ok_bind, ih hj' hr, error_bind]
      · rw [if_neg hx, ih hj' hr]; rfl

/-- One sample of a voice that can be read: its output, and its registers one sample later (R225). -/
theorem voiceSample_readable {s : State} {x : Voice} (h : VoiceReadable s x) :
    voiceSample s x
      = .ok (voiceOutput s x,
          { x with
            main := advance s.par.fmt s.par.tableSize x.main
            subs := advanceSlots s.par.fmt s.par.tableSize x.subs
            env := (envStep s x.env).1 }) := by
  simp only [voiceSample, nextSample_eq_ok.2 ⟨interpolate_readable x.kind h.1, rfl⟩, ok_bind, sumSlots_readable h.2]
  rfl

/-- The first phase outside the table stops a voice's sample with `CV5` (R181, R225). -/
theorem voiceSample_outside {s : State} {x : Voice} {phase : NumWord} (h : FirstPhaseOutside s x phase) :
    voiceSample s x = .error (.phaseRange x.kind phase) := by
  rcases h with ⟨rfl, ho⟩ | ⟨hm, i, sl, hi, hl, rfl, ho, hs⟩
  · simp only [voiceSample, nextSample, interpolate_outside x.kind ho, error_bind]
  · simp only [voiceSample, nextSample_eq_ok.2 ⟨interpolate_readable x.kind hm, rfl⟩, ok_bind,
      sumSlots_outside hi hl ho hs, error_bind]

/-- Under `NUM_F32` a voice whose phases are in the table can be read. -/
theorem readable_of_renderable {s : State} (hn : s.par.num = .f32) (h0 : 0 < s.par.tableSize)
    (h : s.par.tableSize ≤ 2 ^ 24) {x : Voice} (hx : VoiceRenderable s.par.tableSize x) : VoiceReadable s x :=
  ⟨phaseReadable_of_inTable hn h0 h hx.1.1, fun sl hs hl => phaseReadable_of_inTable hn h0 h (hx.2 sl hs hl).1⟩

/-- Everything one sample of a voice does to its registers when it answers (R225). -/
theorem voiceSample_voice {s : State} {x x' : Voice} {y : NumWord} (h : voiceSample s x = .ok (y, x')) :
    x' = { x with
            main := advance s.par.fmt s.par.tableSize x.main
            subs := advanceSlots s.par.fmt s.par.tableSize x.subs
            env := (envStep s x.env).1 } := by
  simp only [voiceSample, bind_eq_ok] at h
  obtain ⟨⟨m, o⟩, h1, ⟨t, out⟩, h2, h3⟩ := h
  cases h3
  rw [(nextSample_eq_ok.1 h1).2, sumSlots_slots h2]

theorem voiceSample_setup {s : State} {x x' : Voice} {y : NumWord} (h : voiceSample s x = .ok (y, x')) :
    SameVoiceSetup x x' ∧ x'.busy = x.busy := by
  rw [voiceSample_voice h]
  refine ⟨⟨rfl, rfl, rfl, by simp, ?_⟩, rfl⟩
  simp only [advanceSlots, List.map_map]
  apply List.map_congr_left
  intro sl _
  simp only [Function.comp_apply]
  split_ifs <;> simp

/-- Everything the render loop can do in one frame: the sample, its accumulate, then on or free (R225). -/
theorem renderLoop_succ {s : State} {count a : Nat} {x x' : Voice} {b b' : Mem}
    (h : renderLoop s (count + 1) a x b = .ok (x', b')) :
    ∃ y x₁ b₁, voiceSample s x = .ok (y, x₁) ∧ mixAcc s b a y = .ok b₁ ∧
      ((envActive x₁.env = true ∧ renderLoop s count (a + 1) x₁ b₁ = .ok (x', b')) ∨
        (envActive x₁.env = false ∧ x' = freeVoice x₁ ∧ b' = b₁)) := by
  simp only [renderLoop, bind_eq_ok] at h
  obtain ⟨⟨y, x₁⟩, h1, b₁, h2, h3⟩ := h
  refine ⟨y, x₁, b₁, h1, h2, ?_⟩
  simp only at h3
  split_ifs at h3 with he
  · exact .inl ⟨he, h3⟩
  · cases h3
    exact .inr ⟨by simpa using he, rfl, rfl⟩

/-- What a render of one voice keeps: its setup, and every word outside its frames. A voice never becomes busy. -/
theorem renderLoop_frame {s : State} {count a : Nat} {x x' : Voice} {b b' : Mem}
    (h : renderLoop s count a x b = .ok (x', b')) :
    SameVoiceSetup x x' ∧ (x'.busy = true → x.busy = true) ∧
      ∀ c' a', a' < s.par.bufLen → ¬ (a ≤ a' ∧ a' < a + count) → bufRead s b' c' a' = bufRead s b c' a' := by
  induction count generalizing a x b with
  | zero => cases h; exact ⟨SameVoiceSetup.refl _, id, fun _ _ _ _ => rfl⟩
  | succ count ih =>
    obtain ⟨y, x₁, b₁, h1, h2, h3⟩ := renderLoop_succ h
    obtain ⟨hs, hb⟩ := voiceSample_setup h1
    obtain ⟨-, hm⟩ := mixAcc_ok h2
    rcases h3 with ⟨-, h4⟩ | ⟨-, rfl, rfl⟩
    · obtain ⟨i1, i2, i3⟩ := ih h4
      refine ⟨hs.trans i1, fun hx => hb ▸ i2 hx, fun c' a' ha' hn => ?_⟩
      rw [i3 c' a' ha' (by omega), hm c' a' ha', if_neg (by omega)]
    · refine ⟨hs.trans ⟨rfl, rfl, rfl, rfl, ?_⟩, fun hf => absurd hf (by simp [freeVoice]), fun c' a' ha' hn => ?_⟩
      · simp [freeVoice, clearLive, Function.comp_def]
      · rw [hm c' a' ha', if_neg (by omega)]

/-- A render of one voice keeps the buffer's form. -/
theorem bufLegal_renderLoop {s : State} {count a : Nat} {x x' : Voice} {b b' : Mem} (hl : BufLegal s.par b)
    (h : renderLoop s count a x b = .ok (x', b')) : BufLegal s.par b' := by
  induction count generalizing a x b with
  | zero => cases h; exact hl
  | succ count ih =>
    obtain ⟨y, x₁, b₁, -, h2, h3⟩ := renderLoop_succ h
    rcases h3 with ⟨-, h4⟩ | ⟨-, -, rfl⟩
    · exact ih (bufLegal_mixAcc hl h2) h4
    · exact bufLegal_mixAcc hl h2

/-- A render of one voice leaves all channels alike where they were alike (R255). -/
theorem renderLoop_channels {s : State} {count a lo hi : Nat} {x x' : Voice} {b b' : Mem}
    (hb : ∀ c a', c < s.par.channels → a' < s.par.bufLen → lo ≤ a' → a' < hi → bufRead s b c a' = bufRead s b 0 a')
    (h : renderLoop s count a x b = .ok (x', b')) :
    ∀ c a', c < s.par.channels → a' < s.par.bufLen → lo ≤ a' → a' < hi → bufRead s b' c a' = bufRead s b' 0 a' := by
  induction count generalizing a x b with
  | zero => cases h; exact hb
  | succ count ih =>
    obtain ⟨y, x₁, b₁, -, h2, h3⟩ := renderLoop_succ h
    have hm : ∀ c a', c < s.par.channels → a' < s.par.bufLen → lo ≤ a' → a' < hi →
        bufRead s b₁ c a' = bufRead s b₁ 0 a' := by
      intro c a' hc ha' h4 h5
      have h0 : 0 < s.par.channels := by omega
      rw [(mixAcc_ok h2).2 c a' ha', (mixAcc_ok h2).2 0 a' ha', hb c a' hc ha' h4 h5]
      by_cases he : a' = a
      · rw [if_pos ⟨he, hc⟩, if_pos ⟨he, h0⟩]
      · rw [if_neg (by tauto), if_neg (by tauto)]
    rcases h3 with ⟨-, h4⟩ | ⟨-, -, rfl⟩
    · exact ih hm h4
    · exact hm

/-- Rendering over no frames of a buffer is nothing. -/
@[simp] theorem renderLoop_zero (s : State) (a : Nat) (x : Voice) (b : Mem) : renderLoop s 0 a x b = .ok (x, b) := rfl

@[simp] theorem renderVoice_idle {s : State} {a count : Nat} {x : Voice} {b : Mem} (h : x.busy = false) :
    renderVoice s a count x b = .ok (x, b) := by
  unfold renderVoice; rw [h]; rfl

end Sys2Proof.Machine
end

