-- ==== Sys2Proof/Laws/Engine.lean ====
section
/-! SUPPORT. Everything each host command can do when it answers a state (46_engine_commands.md R270 to R277;
45_voice_mixer_sample_buf.md R252), said once. -/

namespace Sys2Proof.Machine

/-- What a render of one voice keeps, whether the voice is busy or not. -/
theorem renderVoice_frame {s : State} {a count : Nat} {x x' : Voice} {b b' : Mem}
    (h : renderVoice s a count x b = .ok (x', b')) :
    SameVoiceSetup x x' ∧ (x'.busy = true → x.busy = true) ∧ (x.busy = false → x' = x) ∧
      ∀ c' a', a' < s.par.bufLen → ¬ (a ≤ a' ∧ a' < a + count) → bufRead s b' c' a' = bufRead s b c' a' := by
  unfold renderVoice at h
  split_ifs at h with hb
  · obtain ⟨h1, h2, h3⟩ := renderLoop_frame h
    exact ⟨h1, h2, fun hf => absurd hb (by simp [hf]), h3⟩
  · cases h
    exact ⟨SameVoiceSetup.refl _, id, fun _ => rfl, fun _ _ _ _ => rfl⟩

/-- What a render of the voices keeps: their number, each one's setup, the idle ones, and every word outside the
frames. -/
theorem renderVoices_frame {s : State} {a count : Nat} {xs ys : List Voice} {b b' : Mem}
    (h : renderVoices s a count xs b = .ok (ys, b')) :
    ys.length = xs.length ∧
      (∀ (v : Nat) (x y : Voice), xs[v]? = some x → ys[v]? = some y →
        SameVoiceSetup x y ∧ (y.busy = true → x.busy = true) ∧ (x.busy = false → y = x)) ∧
      ∀ c' a', a' < s.par.bufLen → ¬ (a ≤ a' ∧ a' < a + count) → bufRead s b' c' a' = bufRead s b c' a' := by
  induction xs generalizing ys b with
  | nil =>
    cases h
    exact ⟨rfl, fun v x y hx => absurd hx (by simp), fun _ _ _ _ => rfl⟩
  | cons x rest ih =>
    simp only [renderVoices, bind_eq_ok] at h
    obtain ⟨⟨x', b₁⟩, h1, ⟨ys', b₂⟩, h2, h3⟩ := h
    cases h3
    obtain ⟨i1, i2, i3⟩ := ih h2
    obtain ⟨j1, j2, j3, j4⟩ := renderVoice_frame h1
    refine ⟨by simp [i1], ?_, fun c' a' ha' hn => (i3 c' a' ha' hn).trans (j4 c' a' ha' hn)⟩
    intro v x₀ y₀ hx hy
    cases v with
    | zero =>
      obtain rfl : x = x₀ := Option.some.inj hx
      obtain rfl : x' = y₀ := Option.some.inj hy
      exact ⟨j1, j2, j3⟩
    | succ v => exact i2 v x₀ y₀ (by simpa using hx) (by simpa using hy)

theorem bufLegal_renderVoices {s : State} {a count : Nat} {xs ys : List Voice} {b b' : Mem} (hl : BufLegal s.par b)
    (h : renderVoices s a count xs b = .ok (ys, b')) : BufLegal s.par b' := by
  induction xs generalizing ys b with
  | nil => cases h; exact hl
  | cons x rest ih =>
    simp only [renderVoices, bind_eq_ok] at h
    obtain ⟨⟨x', b₁⟩, h1, ⟨ys', b₂⟩, h2, h3⟩ := h
    cases h3
    refine ih ?_ h2
    unfold renderVoice at h1
    split_ifs at h1
    · exact bufLegal_renderLoop hl h1
    · cases h1; exact hl

/-- With no busy voice a render of the voices changes nothing. -/
theorem renderVoices_idle {s : State} {a count : Nat} {xs : List Voice} {b : Mem} (h : ∀ x ∈ xs, x.busy = false) :
    renderVoices s a count xs b = .ok (xs, b) := by
  induction xs with
  | nil => rfl
  | cons x rest ih =>
    simp only [renderVoices, renderVoice_idle (h x List.mem_cons_self), ok_bind,
      ih fun y hy => h y (List.mem_cons_of_mem _ hy)]

/-- Everything RENDER does when it answers a state (R252). -/
theorem renderBlock_eq_ok {s t : State} {start count : BitVec 16} :
    renderBlock s start count = .ok t ↔
      s.prepared = true ∧ start.toNat + count.toNat ≤ s.par.bufLen ∧ count.toNat ≤ s.cfg.maxblk.toNat ∧
        ∃ b ys b', clearFrames s.par count.toNat start.toNat s.buf = .ok b ∧
          renderVoices s start.toNat count.toNat s.voices b = .ok (ys, b') ∧
          t = { s with voices := ys, buf := b' } := by
  unfold renderBlock
  cases hp : s.prepared
  · simp
  · simp only [Bool.not_true, Bool.false_eq_true, if_false, true_and]
    by_cases h : s.par.bufLen < zext16 start + zext16 count ∨ zext16 s.cfg.maxblk < zext16 count
    · rw [if_pos h]
      simp only [zext16_eq] at h
      refine ⟨fun hf => absurd hf (raise_ne_ok _ _), fun hf => ?_⟩
      omega
    · rw [if_neg h]
      simp only [zext16_eq] at h ⊢
      simp only [bind_eq_ok]
      constructor
      · rintro ⟨b, h1, ⟨ys, b'⟩, h2, h3⟩
        cases h3
        exact ⟨by omega, by omega, b, ys, b', h1, h2, by rw [← hp]⟩
      · rintro ⟨-, -, b, ys, b', h1, h2, rfl⟩
        exact ⟨b, h1, (ys, b'), h2, by rw [← hp]⟩

/-- Everything PREPARE does when it answers a state (R270). -/
theorem prepareBlock_eq_ok {s t : State} {mb : BitVec 16} {fs : NumWord} :
    prepareBlock s mb fs = .ok t ↔
      s.par.fmt.isFinite fs = true ∧ s.par.fmt.gt fs (s.par.fmt.ofInt 0) = true ∧ 1 ≤ mb.toNat ∧ mb.toNat ≤ s.par.bufLen ∧
        ∃ u, rebuildTables { s with cfg := { s.cfg with fs := fs, maxblk := mb } } = .ok u ∧
          t = { envRates (resetVoices u) with prepared := true } := by
  unfold prepareBlock
  cases h1 : s.par.fmt.isFinite fs
  · simp
  · cases h2 : s.par.fmt.gt fs (s.par.fmt.ofInt 0)
    · simp
    · simp only [Bool.not_true, Bool.false_eq_true, if_false, true_and]
      by_cases h : zext16 mb = 0 ∨ s.par.bufLen < zext16 mb
      · rw [if_pos h]
        simp only [zext16_eq] at h
        refine ⟨fun hf => absurd hf (raise_ne_ok _ _), fun hf => ?_⟩
        omega
      · rw [if_neg h]
        simp only [zext16_eq] at h
        simp only [bind_eq_ok, Except.ok.injEq]
        constructor
        · rintro ⟨u, h3, rfl⟩; exact ⟨by omega, by omega, u, h3, rfl⟩
        · rintro ⟨-, -, u, h3, rfl⟩; exact ⟨u, h3, rfl⟩

/-- Everything SET_HARM does when it answers a state (R273). -/
theorem setHarmonics_eq_ok {s t : State} {n : BitVec 16} :
    setHarmonics s n = .ok t ↔
      (s.prepared = true ∧ rebuildTables { s with cfg := { s.cfg with harm := clampHarm n } } = .ok t) ∨
        (s.prepared = false ∧ t = { s with cfg := { s.cfg with harm := clampHarm n } }) := by
  unfold setHarmonics
  cases hp : s.prepared <;> simp [eq_comm]

/-- Everything NOTE_ON does when it answers a state (R276). -/
theorem noteOn_eq_ok {s t : State} {note : BitVec 7} {vel : NumWord} :
    noteOn s note vel = .ok t ↔
      s.par.fmt.isFinite vel = true ∧ s.prepared = true ∧
        ((firstVoice (fun x => !x.busy) s.voices = none ∧ t = s) ∨
          ∃ v, firstVoice (fun x => !x.busy) s.voices = some v ∧
            voiceNoteOn s v note (clampUnit s.par.fmt vel) s.cfg.wave (s.cfg.sub.toNat : Int) = .ok t) := by
  unfold noteOn
  cases h1 : s.par.fmt.isFinite vel
  · simp
  · cases h2 : s.prepared
    · simp
    · cases h3 : firstVoice (fun x => !x.busy) s.voices <;> simp [eq_comm]

/-- Everything NOTE_OFF does when it answers a state (R277). -/
theorem noteOff_eq_ok {s t : State} {tail : Bool} {note : BitVec 7} {vel : NumWord} :
    noteOff s tail note vel = .ok t ↔
      s.par.fmt.isFinite vel = true ∧
        ((firstVoice (fun x => x.busy && x.note == note) s.voices = none ∧ t = s) ∨
          ∃ v x, firstVoice (fun x => x.busy && x.note == note) s.voices = some v ∧ s.voices[v]? = some x ∧
            t = setVoice s v { x with env := envRelease s.par.fmt s.cfg.r s.cfg.fs x.env }) := by
  unfold noteOff
  cases h1 : s.par.fmt.isFinite vel
  · simp
  · cases h3 : firstVoice (fun x => x.busy && x.note == note) s.voices
    · simp [eq_comm]
    · simp [voiceNoteOff, onVoice_eq_ok]

/-- Everything SET_ADSR does when it answers a state (R275). -/
theorem setEnvelope_eq_ok {s t : State} {a d sus r : NumWord} :
    setEnvelope s a d sus r = .ok t ↔
      (s.par.fmt.isFinite a = true ∧ s.par.fmt.isFinite d = true ∧ s.par.fmt.isFinite sus = true ∧ s.par.fmt.isFinite r = true) ∧
        ∃ u : State,
          u = { s with
                cfg := { s.cfg with a := clampTime s.par.fmt a, d := clampTime s.par.fmt d, s := clampUnit s.par.fmt sus, r := clampRelease s.par.fmt r } } ∧
            t = if s.prepared then envRates u else u := by
  unfold setEnvelope
  cases s.par.fmt.isFinite a <;> cases s.par.fmt.isFinite d <;> cases s.par.fmt.isFinite sus <;> cases s.par.fmt.isFinite r <;>
    simp only [Bool.and_true, Bool.and_false, Bool.not_true, Bool.not_false, if_true, Bool.false_eq_true, if_false,
      false_and, and_false, and_self, true_and, exists_eq_left, raise_ne_ok, Except.ok.injEq, Bool.and_self]
  exact eq_comm

end Sys2Proof.Machine
end

