-- ==== Sys2Proof/Laws/NumReal.lean ====
section
/-! SUPPORT. `NUM_REAL` as a format of number words (log entry 1): a number is held as the expression that gives it, so
the reals the block can compute are plain data and the format meets R11's laws. The kernels of the sub-blocks run on such
a format as they do on the reals. -/

namespace Sys2Proof.Machine

/-- An expression for a real number the block can compute. -/
inductive RealExpr where
  | ofInt (k : Int)
  | lit (m d : Nat)
  | add (a b : RealExpr)
  | sub (a b : RealExpr)
  | mul (a b : RealExpr)
  | div (a b : RealExpr)
  | neg (a : RealExpr)
  | abs (a : RealExpr)
  | sin (a : RealExpr)
  | pi
  | midi (note : Nat)
  deriving Encodable

/-- The real number an expression gives. -/
noncomputable def RealExpr.value : RealExpr → ℝ
  | .ofInt k => numReal.ofInt k
  | .lit m d => numReal.lit m d
  | .add a b => numReal.add a.value b.value
  | .sub a b => numReal.sub a.value b.value
  | .mul a b => numReal.mul a.value b.value
  | .div a b => numReal.div a.value b.value
  | .neg a => numReal.neg a.value
  | .abs a => numReal.abs a.value
  | .sin a => numReal.sin a.value
  | .pi => numReal.pi
  | .midi note => numReal.midi (BitVec.ofNat 7 note)

/-- An expression as a number word. -/
def RealExpr.word (e : RealExpr) : NumWord := .code (Encodable.encode e)

/-- The expression a number word holds; any other word holds 0. -/
def realExpr (x : NumWord) : RealExpr :=
  match x with
  | .f32 _ => .ofInt 0
  | .code n => (Encodable.decode n).getD (.ofInt 0)

@[simp] theorem realExpr_word (e : RealExpr) : realExpr e.word = e := by simp [RealExpr.word, realExpr]

/-- The real number a number word stands for. -/
noncomputable def realOf (x : NumWord) : ℝ := (realExpr x).value

/-- `NUM_REAL` on number words. -/
noncomputable def numRealCoded : NumFmt NumWord :=
  { ofInt := fun k => (RealExpr.ofInt k).word, lit := fun m d => (RealExpr.lit m d).word
    add := fun a b => (RealExpr.add (realExpr a) (realExpr b)).word
    sub := fun a b => (RealExpr.sub (realExpr a) (realExpr b)).word
    mul := fun a b => (RealExpr.mul (realExpr a) (realExpr b)).word
    div := fun a b => (RealExpr.div (realExpr a) (realExpr b)).word
    neg := fun a => (RealExpr.neg (realExpr a)).word, abs := fun a => (RealExpr.abs (realExpr a)).word
    lt := fun a b => numReal.lt (realOf a) (realOf b), le := fun a b => numReal.le (realOf a) (realOf b)
    gt := fun a b => numReal.gt (realOf a) (realOf b), ge := fun a b => numReal.ge (realOf a) (realOf b)
    eq := fun a b => numReal.eq (realOf a) (realOf b), floor := fun a => numReal.floor (realOf a)
    sin := fun a => if a = (RealExpr.ofInt 0).word then a else (RealExpr.sin (realExpr a)).word
    pi := RealExpr.pi.word, decode := fun _ => none, encode := fun _ => none, isFinite := fun _ => true
    midi := fun note => if note = 69#7 then (RealExpr.lit 440 0).word else (RealExpr.midi note.toNat).word }

/-- The tempered pitch of note 69 is 440 (R222). -/
theorem numReal_midi_a4 : numReal.midi 69#7 = numReal.lit 440 0 := by
  norm_num [numReal]

/-- The pitch an octave above is twice the pitch (R222). -/
theorem numReal_midi_octave {note : BitVec 7} (h : note.toNat + 12 < 128) :
    numReal.midi (note + 12#7) = 2 * numReal.midi note := by
  have e : (note + 12#7).toNat = note.toNat + 12 := by
    rw [BitVec.toNat_add]; exact Nat.mod_eq_of_lt h
  have q : (((note.toNat + 12 : Nat) : ℝ) - 69) / 12 = ((note.toNat : ℝ) - 69) / 12 + 1 := by push_cast; ring
  simp only [numReal, e]
  rw [q, Real.rpow_add_one (by norm_num)]
  ring

theorem numRealCoded_readsReal : ReadsReal numRealCoded realOf := by
  constructor
  all_goals intros
  all_goals try rfl
  all_goals try (simp only [numRealCoded, realOf, realExpr_word, RealExpr.value])
  · split_ifs with h
    · subst h; simp [RealExpr.value, numReal]
    · simp [RealExpr.value]
  · next note =>
    split_ifs with h
    · subst h; rw [realExpr_word, RealExpr.value, numReal_midi_a4]
    · simp [RealExpr.value]

/-- A format that is `NUM_REAL` meets R11's laws, when it holds 0 and 440 once each. -/
theorem ReadsReal.lawful {F : NumFmt NumWord} {val : NumWord → ℝ} (h : ReadsReal F val)
    (hs : F.sin (F.ofInt 0) = F.ofInt 0) (hm : F.midi 69#7 = F.lit 440 0) : LawfulNum F val where
  ofInt_exact := fun k x _ _ => ⟨h.isFinite _, h.ofInt k⟩
  lit_nearest := fun m d _ => ⟨h.isFinite _, fun x _ => by rw [h.lit]; simp [numReal]⟩
  one_rounding := ⟨id, fun a b _ _ => ⟨fun _ => h.add a b, fun _ => h.sub a b, fun _ => h.mul a b, fun _ _ => h.div a b⟩⟩
  neg_exact := fun a _ => ⟨h.isFinite _, h.neg a⟩
  abs_exact := fun a _ => ⟨h.isFinite _, h.abs a⟩
  compares := fun a b _ _ => by
    rw [h.lt, h.le, h.gt, h.ge, h.eq]; simp [numReal]
  floor_exact := fun a _ => h.floor a
  sin_zero := hs
  sin_unit := fun a _ => ⟨h.isFinite _, by rw [h.sin]; exact Real.abs_sin_le_one _⟩
  midi_nearest := fun note => ⟨h.isFinite _, fun x _ => by rw [h.midi]; simp [numReal]⟩
  midi_octave := fun note hn x _ hx _ => by rw [hx, h.midi, h.midi, numReal_midi_octave hn]
  midi_a4 := hm

/-- Nothing known of `Config.otherNum` rules out that a configuration's `NUM` is `NUM_REAL`. -/
theorem numRealCoded_lawful : LawfulNum numRealCoded realOf :=
  numRealCoded_readsReal.lawful (by simp [numRealCoded]) (by simp [numRealCoded])

/-! ### The kernels on such a format -/

/-- The interpolant (R181). -/
theorem ReadsReal.lerp {F : NumFmt NumWord} {val : NumWord → ℝ} (h : ReadsReal F val) (a b frac : NumWord) :
    val (lerp F a b frac) = Machine.lerp numReal (val a) (val b) (val frac) := by
  simp only [Machine.lerp, h.add, h.mul, h.sub]

/-- One advance (R163). -/
theorem ReadsReal.advance {F : NumFmt NumWord} {val : NumWord → ℝ} (h : ReadsReal F val) (n : Nat) (o : Osc) :
    val (advance F n o).phase = (Machine.advance numReal n ⟨val o.phase, val o.inc⟩).phase := by
  unfold Machine.advance
  rw [h.ge, h.add, h.ofInt]
  split_ifs
  · simp only [h.sub, h.add, h.ofInt]
  · exact h.add _ _

/-- One call of `env_next` (R194): the same stage, and the values of the same level and result. -/
theorem ReadsReal.envNext {F : NumFmt NumWord} {val : NumWord → ℝ} (h : ReadsReal F val) (inc dec sus : NumWord)
    (e : Env) :
    let r := Machine.envNext F inc dec sus e
    let q := Machine.envNext numReal (val inc) (val dec) (val sus) ⟨e.stage, val e.level, val e.relDec⟩
    r.1.stage = q.1.stage ∧ val r.1.level = q.1.level ∧ val r.1.relDec = q.1.relDec ∧ val r.2 = q.2 := by
  obtain ⟨stage, level, relDec⟩ := e
  cases stage <;> simp only [Machine.envNext, h.ge, h.le, h.add, h.sub, h.ofInt]
  all_goals try split_ifs
  all_goals simp [h.ofInt, h.add, h.sub]

end Sys2Proof.Machine
end

