-- ==== Sys2Proof/Laws/PerInstr.lean ====
section
/-! SUPPORT. One fact for each instruction: the opcode byte and the number of operand words of its encoding, as the
opcode table gives them (30_encoding.md R92, R100, R106). -/

namespace Sys2Proof.Laws.OpcodeAndLength

/-- What an encoding shows: a command's opcode byte, bits 31:24 of its header, and its operand words; or the code of an
internal operation. -/
def shows (e : Encoded) (code : BitVec 8) (operands : Nat) (internal : Bool) : Prop :=
  match e with
  | .words (w :: rest) => internal = false ∧ w.extractLsb' 24 8 = code ∧ rest.length = operands
  | .words [] => False
  | .request r => internal = true ∧ r.code = code ∧ operands = 0

/-- The row of the opcode table: opcode, operand words. -/
def row : Instr → BitVec 8 × Nat
  | .prepare .. => (0x01#8, 1)
  | .release => (0x02#8, 0)
  | .setWave .. => (0x10#8, 0)
  | .setHarm .. => (0x11#8, 0)
  | .setSub .. => (0x12#8, 0)
  | .setAdsr .. => (0x13#8, 4)
  | .noteOn .. => (0x20#8, 1)
  | .noteOff .. => (0x21#8, 1)
  | .render .. => (0x30#8, 1)
  | .build .. => (0x10#8, 0)
  | .rebuildAll => (0x11#8, 0)
  | .oscSetFreq .. => (0x20#8, 0)
  | .oscSetRandomPhase .. => (0x21#8, 0)
  | .oscAdvance .. => (0x22#8, 0)
  | .oscStop .. => (0x23#8, 0)
  | .oscReset .. => (0x24#8, 0)
  | .oscNextSample .. => (0x25#8, 0)
  | .tblInterp .. => (0x30#8, 0)
  | .envRates => (0x40#8, 0)
  | .envTrigger .. => (0x41#8, 0)
  | .envRelease .. => (0x42#8, 0)
  | .envNext .. => (0x43#8, 0)
  | .envReset .. => (0x44#8, 0)
  | .voiceNoteOn .. => (0x50#8, 0)
  | .voiceNoteOff .. => (0x51#8, 0)
  | .voiceRender .. => (0x52#8, 0)
  | .voiceReset .. => (0x53#8, 0)
  | .bufClear .. => (0x60#8, 0)
  | .mixAcc .. => (0x61#8, 0)

/-- The encoding of an instruction shows the opcode and the operand words of its row. -/
def Statement (i : Instr) : Prop := shows (encode i) (row i).1 (row i).2 i.isInternal

/-- Bits 31:24 of a header are its opcode (R91). -/
theorem opcode_of_header (op : BitVec 8) (f : BitVec 24) : (header op f).extractLsb' 24 8 = op := by
  apply BitVec.eq_of_toNat_eq
  simp only [header, BitVec.extractLsb'_toNat, BitVec.toNat_append, Nat.shiftRight_eq_div_pow, Nat.shiftLeft_eq]
  have h := f.isLt
  have g := op.isLt
  rw [← Nat.shiftLeft_eq, ← Nat.shiftLeft_add_eq_or_of_lt h, Nat.shiftLeft_eq]
  omega

theorem prepare : ∀ x0 x1, Statement (.prepare x0 x1) := fun _ _ => ⟨rfl, opcode_of_header _ _, rfl⟩
theorem release : Statement .release := ⟨rfl, opcode_of_header _ _, rfl⟩
theorem setWave : ∀ x0, Statement (.setWave x0) := fun _ => ⟨rfl, opcode_of_header _ _, rfl⟩
theorem setHarm : ∀ x0, Statement (.setHarm x0) := fun _ => ⟨rfl, opcode_of_header _ _, rfl⟩
theorem setSub : ∀ x0, Statement (.setSub x0) := fun _ => ⟨rfl, opcode_of_header _ _, rfl⟩
theorem setAdsr : ∀ x0 x1 x2 x3, Statement (.setAdsr x0 x1 x2 x3) := fun _ _ _ _ => ⟨rfl, opcode_of_header _ _, rfl⟩
theorem noteOn : ∀ x0 x1, Statement (.noteOn x0 x1) := fun _ _ => ⟨rfl, opcode_of_header _ _, rfl⟩
theorem noteOff : ∀ x0 x1 x2, Statement (.noteOff x0 x1 x2) := fun _ _ _ => ⟨rfl, opcode_of_header _ _, rfl⟩
theorem render : ∀ x0 x1, Statement (.render x0 x1) := fun _ _ => ⟨rfl, opcode_of_header _ _, rfl⟩
theorem build : ∀ x0 x1 x2 x3, Statement (.build x0 x1 x2 x3) := fun _ _ _ _ => ⟨rfl, rfl, rfl⟩
theorem rebuildAll : Statement (.rebuildAll) := ⟨rfl, rfl, rfl⟩
theorem oscSetFreq : ∀ x0 x1 x2 x3, Statement (.oscSetFreq x0 x1 x2 x3) := fun _ _ _ _ => ⟨rfl, rfl, rfl⟩
theorem oscSetRandomPhase : ∀ x0 x1, Statement (.oscSetRandomPhase x0 x1) := fun _ _ => ⟨rfl, rfl, rfl⟩
theorem oscAdvance : ∀ x0 x1, Statement (.oscAdvance x0 x1) := fun _ _ => ⟨rfl, rfl, rfl⟩
theorem oscStop : ∀ x0 x1, Statement (.oscStop x0 x1) := fun _ _ => ⟨rfl, rfl, rfl⟩
theorem oscReset : ∀ x0 x1, Statement (.oscReset x0 x1) := fun _ _ => ⟨rfl, rfl, rfl⟩
theorem oscNextSample : ∀ x0 x1 x2, Statement (.oscNextSample x0 x1 x2) := fun _ _ _ => ⟨rfl, rfl, rfl⟩
theorem tblInterp : ∀ x0 x1, Statement (.tblInterp x0 x1) := fun _ _ => ⟨rfl, rfl, rfl⟩
theorem envRates : Statement (.envRates) := ⟨rfl, rfl, rfl⟩
theorem envTrigger : ∀ x0, Statement (.envTrigger x0) := fun _ => ⟨rfl, rfl, rfl⟩
theorem envRelease : ∀ x0, Statement (.envRelease x0) := fun _ => ⟨rfl, rfl, rfl⟩
theorem envNext : ∀ x0, Statement (.envNext x0) := fun _ => ⟨rfl, rfl, rfl⟩
theorem envReset : ∀ x0, Statement (.envReset x0) := fun _ => ⟨rfl, rfl, rfl⟩
theorem voiceNoteOn : ∀ x0 x1 x2 x3 x4, Statement (.voiceNoteOn x0 x1 x2 x3 x4) := fun _ _ _ _ _ => ⟨rfl, rfl, rfl⟩
theorem voiceNoteOff : ∀ x0 x1 x2, Statement (.voiceNoteOff x0 x1 x2) := fun _ _ _ => ⟨rfl, rfl, rfl⟩
theorem voiceRender : ∀ x0 x1 x2, Statement (.voiceRender x0 x1 x2) := fun _ _ _ => ⟨rfl, rfl, rfl⟩
theorem voiceReset : ∀ x0, Statement (.voiceReset x0) := fun _ => ⟨rfl, rfl, rfl⟩
theorem bufClear : ∀ x0 x1, Statement (.bufClear x0 x1) := fun _ _ => ⟨rfl, rfl, rfl⟩
theorem mixAcc : ∀ x0 x1, Statement (.mixAcc x0 x1) := fun _ _ => ⟨rfl, rfl, rfl⟩

end Sys2Proof.Laws.OpcodeAndLength
end

