-- ==== Sys2Proof/Laws/Step.lean ====
section
/-! SUPPORT. What one step can do (20_memory.md R71, R72; 46_engine_commands.md R278): the slot opens, then nothing or
one instruction runs. -/

namespace Sys2Proof.Machine

/-- What every doing of the host keeps and the opening of a slot keeps, `openSlot` keeps. -/
theorem openSlot_induct {P : State → Prop} {s : State} (hs : P s)
    (hslot : ∀ (u : State) (k : Nat) (g : List (List HostEvent)), P u → P { u with slots := k, arrivals := g })
    (hdo : ∀ (u : State) (e : HostEvent), P u → P (hostDoes u e)) : P (openSlot s) := by
  have hall : ∀ (g : List HostEvent) (u : State), P u → P (hostDoesAll u g) := by
    intro g
    induction g with
    | nil => intro u hu; exact hu
    | cons e rest ih => intro u hu; exact ih _ (hdo u e hu)
  unfold openSlot
  split
  · exact hslot s (s.slots + 1) s.arrivals hs
  · next g rest hg => exact hall g _ (hslot s (s.slots + 1) rest hs)

/-- A port's command is one of the nine host commands: no command words select an internal operation (R106). -/
theorem decode_not_internal {ws rest : List Word} {i : Instr} (h : decode ws = .ok (i, rest)) : i.isInternal = false := by
  unfold decode at h
  split at h
  · cases h
  · split at h
    · cases h
    · split at h <;> first
        | (cases h <;> rfl)
        | (split_ifs at h; cases h; rfl)

/-- Everything a step does when it goes on: it waits after the slot opened, or it runs one instruction, a waiting
request's or, with none waiting, a port's command, on the slot's state without the words taken. -/
theorem step_cases {s t : State} (h : step s = .next t) :
    paramsLegal s.par = true ∧
      (t = openSlot s ∨
        (∃ i r rest, (openSlot s).uops = r :: rest ∧ decodeUop r = .ok i ∧
          exec i { openSlot s with uops := rest } = .next t) ∨
        (∃ i rest, (openSlot s).uops = [] ∧ decode (openSlot s).rt = .ok (i, rest) ∧ i.isInternal = false ∧
          exec i { openSlot s with rt := rest } = .next t) ∨
        ∃ i rest, (openSlot s).uops = [] ∧ decode (openSlot s).ctl = .ok (i, rest) ∧ i.isInternal = false ∧
          exec i { openSlot s with ctl := rest } = .next t) := by
  unfold step at h
  split_ifs at h with hp
  refine ⟨by simpa using hp, ?_⟩
  unfold fetch at h
  cases hu : (openSlot s).uops with
  | cons r rest =>
    rw [hu] at h
    simp only at h
    cases hd : decodeUop r with
    | error e => rw [hd] at h; simp at h
    | ok i => rw [hd] at h; exact .inr (.inl ⟨i, r, rest, rfl, hd, h⟩)
  | nil =>
    rw [hu] at h
    simp only [fetchPorts] at h
    cases hd : decode (openSlot s).rt with
    | ok p =>
      obtain ⟨i, rest⟩ := p
      rw [hd] at h
      exact .inr (.inr (.inl ⟨i, rest, rfl, rfl, decode_not_internal hd, h⟩))
    | error e =>
      rw [hd] at h
      cases e with
      | reserved w => simp at h
      | incomplete =>
        simp only [fetchCtl] at h
        cases hc : decode (openSlot s).ctl with
        | ok p =>
          obtain ⟨i, rest⟩ := p
          rw [hc] at h
          exact .inr (.inr (.inr ⟨i, rest, rfl, rfl, decode_not_internal hc, h⟩))
        | error e =>
          rw [hc] at h
          cases e with
          | reserved w => simp at h
          | incomplete => exact .inl (by simpa using h.symm)

/-- A property of the state that the opening of a slot keeps, that does not depend on the words waiting, and that every
instruction keeps, every step keeps. -/
theorem step_keeps {P : State → Prop} (hopen : ∀ s, P s → P (openSlot s))
    (hu : ∀ (s : State) (l : List UopRequest), P s → P { s with uops := l })
    (hr : ∀ (s : State) (l : List Word), P s → P { s with rt := l })
    (hc : ∀ (s : State) (l : List Word), P s → P { s with ctl := l })
    (hexec : ∀ (i : Instr) (s t : State), P s → exec i s = .next t → P t) {s t : State} (hs : P s)
    (h : step s = .next t) : P t := by
  obtain ⟨-, rfl | ⟨i, r, rest, -, -, h⟩ | ⟨i, rest, -, -, -, h⟩ | ⟨i, rest, -, -, -, h⟩⟩ := step_cases h
  · exact hopen s hs
  · exact hexec i _ t (hu _ rest (hopen s hs)) h
  · exact hexec i _ t (hr _ rest (hopen s hs)) h
  · exact hexec i _ t (hc _ rest (hopen s hs)) h

end Sys2Proof.Machine
end

