-- ==== Sys2Proof/Tests/Slice0.lean ====
section
/-! SUPPORT. Checks of the model on fixed values. The expected results are those of spec/95_test_vectors.md, named by
their ids there, or are worked out by hand from the rules cited. -/

namespace Sys2Proof.Tests

open Sys2Proof Sys2Proof.Machine

/-! ### States the checks run on -/

/-- A small block: tables of 4, 2 voices, 2 channels of 8 frames, `F_BUILD` 440. -/
def small : Params := { num := .f32, tableSize := 4, poolSize := 2, channels := 2, bufLen := 8, fBuild := .f32 0x43DC0000#32 }

/-- An envelope at a stage with a level and a release step. -/
def envAt (stage : Stage) (level relDec : Word) : Env := ⟨stage, .f32 level, .f32 relDec⟩

/-- A voice after reset. -/
abbrev rest : Voice := Voice.atReset numF32

/-- The table `[0, 1, 0, -1, 0]` of vectors T1 to T5. -/
def tri : Mem := [(0, .f32 0#32), (1, .f32 0x3F800000#32), (2, .f32 0#32), (3, .f32 0xBF800000#32), (4, .f32 0#32)]

/-- The small block prepared at 44100 with the table of T1 in every kind and the rates of Y3. -/
def ready : State :=
  { State.resetWith small with
    prepared := true, tbl := PerKind.all tri, atkInc := .f32 0x3E800000#32, decDec := .f32 0x3E000000#32
    cfg := { Ctrl.atReset numF32 with fs := .f32 0x472C4400#32, maxblk := 8#16 } }

/-- A busy voice holding note 69 with gain 0.5, its main oscillator at a phase with an increment, at an envelope. -/
def busyAt (phase inc : Word) (env : Env) : Voice :=
  { rest with busy := true, note := 69#7, gain := .f32 0x3F000000#32, main := ⟨.f32 phase, .f32 inc⟩, env := env }

/-- `ready` with its first voice busy. -/
def playing (phase inc : Word) (env : Env) : State :=
  { ready with voices := [busyAt phase inc env, rest] }

/-- The envelope of an attack at level 0. -/
def atAttack : Env := envAt .attack 0#32 0#32

/-- The state an instruction goes on to, or the fallback where it stops. -/
def after (i : Instr) (s : State) : State :=
  match exec i s with
  | .next t => t
  | _ => State.reset

/-- The fault an instruction stops with. -/
def faultOf (o : StepOutcome) : Option Fault :=
  match o with
  | .fault f => some f
  | _ => none

/-- The state an outcome goes on to, if it does. -/
def nextOf (o : StepOutcome) : Option State :=
  match o with
  | .next t => some t
  | _ => none

/-- The state a step goes on to. -/
def stepped (s : State) : State :=
  match step s with
  | .next t => t
  | _ => State.reset

/-- The first voice of a state. -/
def v0 (s : State) : Voice := s.voices.headD rest

/-! ### Well-formedness: an ill-formed term for each check -/

theorem test_wf_harm : (Instr.build .saw 17#5 0#32 0#32).wellFormed small = false
    ∧ (Instr.build .saw 16#5 0#32 0#32).wellFormed small = true := by decide
theorem test_wf_voice : (Instr.envNext 2).wellFormed small = false ∧ (Instr.envNext 1).wellFormed small = true := by decide
theorem test_wf_frames : (Instr.bufClear 4#16 5#16).wellFormed small = false
    ∧ (Instr.bufClear 4#16 4#16).wellFormed small = true := by decide
theorem test_wf_voice_frames : (Instr.voiceRender 0 9#16 0#16).wellFormed small = false
    ∧ (Instr.voiceRender 0 8#16 0#16).wellFormed small = true := by decide
theorem test_wf_frame : (Instr.mixAcc 8 0#32).wellFormed small = false ∧ (Instr.mixAcc 7 0#32).wellFormed small = true := by
  decide
theorem test_wf_encodable : (Instr.build .sine 31#5 0#32 0#32).encodable = false := by decide
theorem test_params_refused : paramsLegal { small with tableSize := 0 } = false ∧ paramsLegal { small with poolSize := 0 } = false
    ∧ paramsLegal { small with channels := 0 } = false ∧ paramsLegal { small with bufLen := 65537 } = false
    ∧ paramsLegal { small with fBuild := .f32 0#32 } = false
    ∧ paramsLegal { small with fBuild := .f32 0x7FC00000#32 } = false
    ∧ paramsLegal { small with fBuild := .f32 0x7F800000#32 } = true ∧ paramsLegal { small with bufLen := 65536 } = true := by decide

/-! ### Decoding words written out from the encodings (vectors W1 to W28) -/

theorem test_decode_prepare : decode [0x01000200#32, 0x472C4400#32] = .ok (.prepare 512#16 0x472C4400#32, []) := by decide
theorem test_decode_prepare_max : decode [0x0100FFFF#32, 0x472C4400#32] = .ok (.prepare 65535#16 0x472C4400#32, []) := by
  decide
theorem test_decode_prepare_reserved : decode [0x01010200#32] = .error (.reserved 0x01010200#32) := by decide
theorem test_decode_prepare_waits : decode [0x01000200#32] = .error .incomplete := by decide
theorem test_decode_release : decode [0x02000000#32, 7#32] = .ok (.release, [7#32]) := by decide
theorem test_decode_release_reserved : decode [0x02000001#32] = .error (.reserved 0x02000001#32) := by decide
theorem test_decode_setWave : decode [0x10000000#32] = .ok (.setWave .sine, [])
    ∧ decode [0x10000001#32] = .ok (.setWave .saw, []) ∧ decode [0x10000002#32] = .ok (.setWave .square, [])
    ∧ decode [0x10000003#32] = .ok (.setWave .triangle, []) := by decide
theorem test_decode_setWave_reserved : decode [0x10000004#32] = .error (.reserved 0x10000004#32) := by decide
theorem test_decode_setHarm : decode [0x1100FFFD#32] = .ok (.setHarm (-3), []) ∧ decode [0x11008000#32] = .ok (.setHarm 0x8000#16, [])
    ∧ decode [0x11010000#32] = .error (.reserved 0x11010000#32) := by decide
theorem test_decode_setSub : decode [0x12000009#32] = .ok (.setSub 9#16, []) := by decide
theorem test_decode_setAdsr : decode [0x13000000#32, 0x3C23D70A#32, 0x3DCCCCCD#32, 0x3F4CCCCD#32, 0x3E99999A#32]
    = .ok (.setAdsr 0x3C23D70A#32 0x3DCCCCCD#32 0x3F4CCCCD#32 0x3E99999A#32, [])
    ∧ decode [0x13000001#32] = .error (.reserved 0x13000001#32)
    ∧ decode [0x13000000#32, 0#32, 0#32, 0#32] = .error .incomplete := by decide
theorem test_decode_noteOn : decode [0x2000007F#32, 0x3F000000#32] = .ok (.noteOn 127#7 0x3F000000#32, []) := by decide
theorem test_decode_noteOn_reserved : decode [0x20000080#32] = .error (.reserved 0x20000080#32)
    ∧ decode [0x20000145#32] = .error (.reserved 0x20000145#32) := by decide
theorem test_decode_noteOff : decode [0x21000045#32, 0#32] = .ok (.noteOff false 69#7 0#32, [])
    ∧ decode [0x21000145#32, 0#32] = .ok (.noteOff true 69#7 0#32, [])
    ∧ decode [0x21000245#32] = .error (.reserved 0x21000245#32) := by decide
theorem test_decode_render : decode [0x30000200#32, 0x00000100#32] = .ok (.render 256#16 512#16, []) := by decide
theorem test_decode_render_reserved : decode [0x30000004#32, 0x00010000#32] = .error (.reserved 0x00010000#32)
    ∧ decode [0x30010004#32] = .error (.reserved 0x30010004#32) := by decide
theorem test_decode_unknown : decode [0x00000000#32] = .error (.reserved 0x00000000#32)
    ∧ decode [0x03000000#32] = .error (.reserved 0x03000000#32) ∧ decode [0x14000000#32] = .error (.reserved 0x14000000#32)
    ∧ decode [0x22000000#32] = .error (.reserved 0x22000000#32) ∧ decode [0x31000000#32] = .error (.reserved 0x31000000#32)
    ∧ decode [0xFF000000#32] = .error (.reserved 0xFF000000#32) := by decide
/-- W28. -/
theorem test_byte_transport :
    wordsOfBytes [0x45#8, 0x00#8, 0x00#8, 0x20#8, 0x00#8, 0x00#8, 0x80#8, 0x3F#8] = [0x20000045#32, 0x3F800000#32] := by decide

/-! ### Decoding the codes of R106 -/

theorem test_decode_build : decodeUop { code := 0x10#8, kind := 2#2, harm := 16#5, x := 1#32, y := 2#32 }
    = .ok (.build .square 16#5 1#32 2#32)
    ∧ decodeUop { code := 0x10#8, harm := 17#5 } = .error (.harmonicCount 17#5) := by decide
theorem test_decode_rebuildAll : decodeUop { code := 0x11#8 } = .ok .rebuildAll := by decide
theorem test_decode_oscSetFreq : decodeUop { code := 0x20#8, voice := 3, osc := 8#4, x := 1#32, y := 2#32 }
    = .ok (.oscSetFreq 3 (.sub 7#3) 1#32 2#32) := by decide
theorem test_decode_oscSetRandomPhase : decodeUop { code := 0x21#8, voice := 3 } = .ok (.oscSetRandomPhase 3 .main) := by decide
theorem test_decode_oscAdvance : decodeUop { code := 0x22#8, osc := 1#4 } = .ok (.oscAdvance 0 (.sub 0#3))
    ∧ decodeUop { code := 0x22#8, osc := 9#4 } = .error (.noSuchOscillator 9#4) := by decide
theorem test_decode_oscStop : decodeUop { code := 0x23#8 } = .ok (.oscStop 0 .main) := by decide
theorem test_decode_oscReset : decodeUop { code := 0x24#8 } = .ok (.oscReset 0 .main) := by decide
theorem test_decode_oscNextSample : decodeUop { code := 0x25#8, voice := 1, kind := 3#2 }
    = .ok (.oscNextSample 1 .main .triangle) := by decide
theorem test_decode_tblInterp : decodeUop { code := 0x30#8, kind := 1#2, x := 5#32 } = .ok (.tblInterp .saw 5#32) := by decide
theorem test_decode_envRates : decodeUop { code := 0x40#8 } = .ok .envRates := by decide
theorem test_decode_envTrigger : decodeUop { code := 0x41#8, voice := 2 } = .ok (.envTrigger 2) := by decide
theorem test_decode_envRelease : decodeUop { code := 0x42#8, voice := 2 } = .ok (.envRelease 2) := by decide
theorem test_decode_envNext : decodeUop { code := 0x43#8, voice := 2 } = .ok (.envNext 2) := by decide
theorem test_decode_envReset : decodeUop { code := 0x44#8, voice := 2 } = .ok (.envReset 2) := by decide
theorem test_decode_voiceNoteOn : decodeUop { code := 0x50#8, voice := 1, note := 60#7, x := 9#32, kind := 2#2, count := 2#16 }
    = .ok (.voiceNoteOn 1 60#7 9#32 .square 2#16) := by decide
theorem test_decode_voiceNoteOff : decodeUop { code := 0x51#8, voice := 1, x := 9#32, tail := true }
    = .ok (.voiceNoteOff 1 9#32 true) := by decide
theorem test_decode_voiceRender : decodeUop { code := 0x52#8, voice := 1, start := 4#16, num := 2#16 }
    = .ok (.voiceRender 1 4#16 2#16) := by decide
theorem test_decode_voiceReset : decodeUop { code := 0x53#8, voice := 1 } = .ok (.voiceReset 1) := by decide
theorem test_decode_bufClear : decodeUop { code := 0x60#8, start := 4#16, num := 2#16 } = .ok (.bufClear 4#16 2#16) := by decide
theorem test_decode_mixAcc : decodeUop { code := 0x61#8, frame := 3, x := 9#32 } = .ok (.mixAcc 3 9#32) := by decide
theorem test_decode_unassigned : decodeUop { code := 0x12#8 } = .error (.unassigned 0x12#8)
    ∧ decodeUop { code := 0x01#8 } = .error (.unassigned 0x01#8) := by decide
theorem test_table_word_command : decodeTableWord 32 0x2000003C = some (.noteOn 60#7 0#32)
    ∧ decodeTableWord 64 0x3F8000002000003C = some (.noteOn 60#7 0x3F800000#32) ∧ decodeTableWord 32 0 = none := by decide
theorem test_table_word_uop : decodeTableWord 8 0x43 = some (.envNext 0) ∧ decodeTableWord 8 0x45 = none := by decide

/-! ### `NUM_F32` (vectors F1 to F14) -/

/-- F1. -/
theorem test_literals : F32.lit 15 2 = 0x3E19999A#32 ∧ F32.lit 5 2 = 0x3D4CCCCD#32 ∧ F32.lit 5 1 = 0x3F000000#32
    ∧ F32.lit 1 3 = 0x3A83126F#32 ∧ F32.lit 2 0 = 0x40000000#32 ∧ F32.lit 5 0 = 0x40A00000#32
    ∧ F32.lit 1 2 = 0x3C23D70A#32 ∧ F32.lit 1 1 = 0x3DCCCCCD#32 ∧ F32.lit 8 1 = 0x3F4CCCCD#32
    ∧ F32.lit 3 1 = 0x3E99999A#32 ∧ F32.lit 440 0 = 0x43DC0000#32 := by decide
/-- F2. -/
theorem test_pi : F32.mul (F32.ofInt 2) F32.pi = 0x40C90FDB#32 ∧ F32.div (F32.ofInt 4) F32.pi = 0x3FA2F983#32
    ∧ F32.div (F32.ofInt 8) (F32.mul F32.pi F32.pi) = 0x3F4F817A#32 := by decide
/-- F3 and F5. -/
theorem test_increment : F32.div (F32.ofInt 2048) 0x472C4400#32 = 0x3D3E37C6#32
    ∧ F32.mul 0x43DC0000#32 0x3D3E37C6#32 = 0x41A377EE#32 ∧ F32.div (F32.ofInt 2048) 0x473B8000#32 = 0x3D2EC33E#32
    ∧ F32.mul 0x43DC0000#32 0x3D2EC33E#32 = 0x41962FC9#32 := by decide
/-- F6: the first four advances, and the 101st, which wraps. -/
theorem test_phases : F32.add 0#32 0x41A377EE#32 = 0x41A377EE#32 ∧ F32.add 0x41A377EE#32 0x41A377EE#32 = 0x422377EE#32
    ∧ F32.add 0x422377EE#32 0x41A377EE#32 = 0x427533E5#32 ∧ F32.add 0x427533E5#32 0x41A377EE#32 = 0x42A377EE#32
    ∧ (advance numF32 2048 ⟨.f32 0x44FF6B6D#32, .f32 0x41A377EE#32⟩).phase = .f32 0x417CA600#32
    ∧ (advance numF32 2048 ⟨.f32 0x417CA600#32, .f32 0x41A377EE#32⟩).phase = .f32 0x4210E577#32 := by decide
/-- F7, F8 and F9. -/
theorem test_rates : F32.mul 0x3C23D70A#32 0x472C4400#32 = 0x43DC8000#32 ∧ F32.div (F32.ofInt 1) 0x43DC8000#32 = 0x3B149B93#32
    ∧ F32.sub (F32.ofInt 1) 0x3F4CCCCD#32 = 0x3E4CCCCC#32 ∧ F32.mul 0x3DCCCCCD#32 0x472C4400#32 = 0x4589D000#32
    ∧ F32.div 0x3E4CCCCC#32 0x4589D000#32 = 0x383E37C5#32 ∧ F32.add 0x3B949B93#32 0x3B149B93#32 = 0x3BDEE95C#32
    ∧ F32.mul 0x3E99999A#32 0x472C4400#32 = 0x464EB801#32 ∧ F32.div 0x3F4CCCCD#32 0x464EB801#32 = 0x387D9FB2#32 := by decide
/-- F11. -/
theorem test_weights : (List.range 8).map (slotWeight numF32)
    = [.f32 0x3E800000#32, .f32 0x3E2AAAAB#32, .f32 0x3E000000#32, .f32 0x3DCCCCCD#32, .f32 0x3DAAAAAB#32,
      .f32 0x3D924925#32, .f32 0x3D800000#32, .f32 0x3D638E39#32] := by decide
/-- F12. -/
theorem test_saw_multiplier : phaseMultiplier numF32 .saw 1 = .ok (.f32 0x3F866666#32)
    ∧ phaseMultiplier numF32 .saw 2 = .ok (.f32 0x400CCCCD#32) ∧ phaseMultiplier numF32 .saw 3 = .ok (.f32 0x405CCCCC#32)
    ∧ phaseMultiplier numF32 .saw 16 = .ok (.f32 0x41E66666#32) := by decide
/-- F13 and F14. -/
theorem test_lerp : lerp numF32 (.f32 0x3E800000#32) (.f32 0xBF000000#32) (.f32 0x3F400000#32) = .f32 0xBEA00000#32
    ∧ lerp numF32 (.f32 0x3DCCCCCD#32) (.f32 0x3E99999A#32) (.f32 0x3E99999A#32) = .f32 0x3E23D70B#32 := by decide
/-- The column of R222 (F15). -/
theorem test_midi_freq : (List.range 128).map (fun n => (midiFreq (BitVec.ofNat 7 n)).toNat) =
    [0x4102D013, 0x410A9760, 0x4112D517, 0x411B9041, 0x4124D054, 0x412E9D37, 0x4138FF49, 0x4143FF6A,
      0x414FA700, 0x415C0000, 0x416914F6, 0x4176F110, 0x4182D013, 0x418A9760, 0x4192D517, 0x419B9041] ++
    [0x41A4D054, 0x41AE9D37, 0x41B8FF49, 0x41C3FF6A, 0x41CFA700, 0x41DC0000, 0x41E914F6, 0x41F6F110,
      0x4202D013, 0x420A9760, 0x4212D517, 0x421B9041, 0x4224D054, 0x422E9D37, 0x4238FF49, 0x4243FF6A] ++
    [0x424FA700, 0x425C0000, 0x426914F6, 0x4276F110, 0x4282D013, 0x428A9760, 0x4292D517, 0x429B9041,
      0x42A4D054, 0x42AE9D37, 0x42B8FF49, 0x42C3FF6A, 0x42CFA700, 0x42DC0000, 0x42E914F6, 0x42F6F110] ++
    [0x4302D013, 0x430A9760, 0x4312D517, 0x431B9041, 0x4324D054, 0x432E9D37, 0x4338FF49, 0x4343FF6A,
      0x434FA700, 0x435C0000, 0x436914F6, 0x4376F110, 0x4382D013, 0x438A9760, 0x4392D517, 0x439B9041] ++
    [0x43A4D054, 0x43AE9D37, 0x43B8FF49, 0x43C3FF6A, 0x43CFA700, 0x43DC0000, 0x43E914F6, 0x43F6F110,
      0x4402D013, 0x440A9760, 0x4412D517, 0x441B9041, 0x4424D054, 0x442E9D37, 0x4438FF49, 0x4443FF6A] ++
    [0x444FA700, 0x445C0000, 0x446914F6, 0x4476F110, 0x4482D013, 0x448A9760, 0x4492D517, 0x449B9041,
      0x44A4D054, 0x44AE9D37, 0x44B8FF49, 0x44C3FF6A, 0x44CFA700, 0x44DC0000, 0x44E914F6, 0x44F6F110] ++
    [0x4502D013, 0x450A9760, 0x4512D517, 0x451B9041, 0x4524D054, 0x452E9D37, 0x4538FF49, 0x4543FF6A,
      0x454FA700, 0x455C0000, 0x456914F6, 0x4576F110, 0x4582D013, 0x458A9760, 0x4592D517, 0x459B9041] ++
    [0x45A4D054, 0x45AE9D37, 0x45B8FF49, 0x45C3FF6A, 0x45CFA700, 0x45DC0000, 0x45E914F6, 0x45F6F110,
      0x4602D013, 0x460A9760, 0x4612D517, 0x461B9041, 0x4624D054, 0x462E9D37, 0x4638FF49, 0x4643FF6A] := by decide
/-- IEEE 754 corners (R11): ties to even, overflow, subnormals, signed zeros, and a NaN that compares false. -/
theorem test_ieee_corners : F32.ofInt 16777217 = 0x4B800000#32 ∧ F32.add 0x7F7FFFFF#32 0x7F7FFFFF#32 = 0x7F800000#32
    ∧ F32.mul 0x00800000#32 0x3F000000#32 = 0x00400000#32 ∧ F32.mul 0x00000001#32 0x3F000000#32 = 0x00000000#32
    ∧ F32.add 0x80000000#32 0x00000000#32 = 0x00000000#32 ∧ F32.add 0x80000000#32 0x80000000#32 = 0x80000000#32
    ∧ F32.div 0x3F800000#32 0x80000000#32 = 0xFF800000#32 ∧ F32.lt 0x7FC00000#32 0x3F800000#32 = false
    ∧ F32.le 0x7FC00000#32 0x7FC00000#32 = false ∧ F32.eq 0x80000000#32 0#32 = true := by decide
theorem test_floor : F32.floor 0x40600000#32 = 3 ∧ F32.floor 0x40800000#32 = 4 ∧ F32.floor 0xBF000000#32 = -1
    ∧ F32.floor 0x3F7FFFFF#32 = 0 := by decide

/-! ### The instructions, on small states -/

/-- E1. -/
theorem test_reset : State.reset.cfg.wave = .sine ∧ State.reset.cfg.harm = 1#5 ∧ State.reset.cfg.sub = 0#4
    ∧ State.reset.prepared = false ∧ State.reset.voices.length = 16 := by decide
/-- B18 after PREPARE at 880: 440 is not below 440, every word is zero; all voices idle. -/
theorem test_prepare : (after (.prepare 8#16 0x445C0000#32) (playing 0#32 0#32 atAttack)).tbl
      = PerKind.all [(0, .f32 0#32), (1, .f32 0#32), (2, .f32 0#32), (3, .f32 0#32), (4, .f32 0#32)]
    ∧ (after (.prepare 8#16 0x445C0000#32) (playing 0#32 0#32 atAttack)).prepared = true
    ∧ (v0 (after (.prepare 8#16 0x445C0000#32) (playing 0#32 0#32 atAttack))).busy = false := by decide
/-- X6, X7 and X8, and an infinite `F_BUILD`, above 0 and so legal (R8), whose build is `CV6` (R302). -/
theorem test_prepare_refused : faultOf (exec (.prepare 8#16 0#32) ready) = some (.badPrepare (.f32 0#32) 8#16)
    ∧ faultOf (exec (.prepare 8#16 0xBF800000#32) ready) = some (.badPrepare (.f32 0xBF800000#32) 8#16)
    ∧ faultOf (exec (.prepare 0#16 0x472C4400#32) ready) = some (.badPrepare (.f32 0x472C4400#32) 0#16)
    ∧ faultOf (exec (.prepare 9#16 0x472C4400#32) ready) = some (.badPrepare (.f32 0x472C4400#32) 9#16)
    ∧ faultOf (exec (.prepare 0#16 0x7F800000#32) ready) = some (.numInvalid [.f32 0x7F800000#32])
    ∧ faultOf (exec (.prepare 8#16 0x472C4400#32) { ready with par := { small with fBuild := .f32 0x7F800000#32 } })
      = some (.numInvalid [.f32 0x7F800000#32]) := by decide
/-- E13. -/
theorem test_release : (after .release (playing 0#32 0#32 atAttack)).prepared = false
    ∧ (v0 (after .release (playing 0#32 0#32 atAttack))).busy = false
    ∧ (after .release (playing 0#32 0#32 atAttack)).cfg.harm = 1#5 := by decide
theorem test_setWave : (after (.setWave .square) ready).cfg.wave = .square
    ∧ (v0 (after (.setWave .square) (playing 0#32 0#32 atAttack))).kind = .sine := by decide
/-- E2. -/
theorem test_setHarm_clamps : [40#16, -3, 0#16, 17#16, 16#16, 0x8000#16, 0x7FFF#16].map
      (fun n => (after (.setHarm n) State.reset).cfg.harm) = [16#5, 1#5, 1#5, 16#5, 16#5, 1#5, 16#5] := by decide
/-- R273 while prepared, at a rate where every table is silent (B18). -/
theorem test_setHarm_rebuilds :
    (after (.setHarm 40#16) { ready with cfg := { ready.cfg with fs := .f32 0x445C0000#32 } }).tblAttr.saw
      = { h := 16#5, fs := .f32 0x445C0000#32 }
    ∧ (after (.setHarm 40#16) { ready with cfg := { ready.cfg with fs := .f32 0x445C0000#32 } }).tbl.square
      = [(0, .f32 0#32), (1, .f32 0#32), (2, .f32 0#32), (3, .f32 0#32), (4, .f32 0#32)] := by decide
/-- E3. -/
theorem test_setSub_clamps : [2#16, -3, 9#16, 8#16, 0#16].map (fun n => (after (.setSub n) State.reset).cfg.sub)
    = [2#4, 0#4, 8#4, 8#4, 0#4] := by decide
/-- E4 and E5. -/
theorem test_setAdsr_clamps :
    (after (.setAdsr 0#32 0x41100000#32 0x3FC00000#32 0#32) State.reset).cfg.a = .f32 0x3A83126F#32
    ∧ (after (.setAdsr 0#32 0x41100000#32 0x3FC00000#32 0#32) State.reset).cfg.d = .f32 0x40000000#32
    ∧ (after (.setAdsr 0#32 0x41100000#32 0x3FC00000#32 0#32) State.reset).cfg.s = .f32 0x3F800000#32
    ∧ (after (.setAdsr 0xBF800000#32 0x3F000000#32 0xBF000000#32 0x40F00000#32) State.reset).cfg.s = .f32 0#32
    ∧ (after (.setAdsr 0xBF800000#32 0x3F000000#32 0xBF000000#32 0x40F00000#32) State.reset).cfg.r = .f32 0x40A00000#32 := by
  decide
/-- Y3, and X13. -/
theorem test_setAdsr_rates :
    (after (.setAdsr 0x3B83126F#32 0x3B83126F#32 0x3F000000#32 0x3B03126F#32)
      { ready with cfg := { ready.cfg with fs := .f32 0x447A0000#32 } }).atkInc = .f32 0x3E800000#32
    ∧ (after (.setAdsr 0x3B83126F#32 0x3B83126F#32 0x3F000000#32 0x3B03126F#32)
      { ready with cfg := { ready.cfg with fs := .f32 0x447A0000#32 } }).decDec = .f32 0x3E000000#32
    ∧ faultOf (exec (.setAdsr 0#32 0x7FC00000#32 0#32 0#32) ready)
      = some (.numInvalid [.f32 0#32, .f32 0x7FC00000#32, .f32 0#32, .f32 0#32]) := by
  decide
/-- Program P2's third NOTE_ON on a full pool of two, and the draws of the first two (R276, R348). -/
theorem test_noteOn_pool :
    (after (.noteOn 67#7 0x3F800000#32) (after (.noteOn 64#7 0x3F000000#32) (after (.noteOn 60#7 0x3F800000#32)
      { ready with rnd := { offered := [.f32 0#32, .f32 0x3F800000#32, .f32 0x40000000#32], taken := 0 } }))).rnd
      = { offered := [.f32 0x40000000#32], taken := 2 }
    ∧ (after (.noteOn 67#7 0x3F800000#32) (after (.noteOn 64#7 0x3F000000#32) (after (.noteOn 60#7 0x3F800000#32)
      { ready with rnd := { offered := [.f32 0#32, .f32 0x3F800000#32, .f32 0x40000000#32], taken := 0 } }))).voices.map
        (fun x => (x.note, x.gain, x.main.phase))
      = [(60#7, .f32 0x3E19999A#32, .f32 0#32), (64#7, .f32 0x3D99999A#32, .f32 0x3F800000#32)] := by decide
/-- X1, X4 and E6's clamp. -/
theorem test_noteOn_contract : faultOf (exec (.noteOn 69#7 0x3F800000#32) State.reset) = some (.notPrepared .noteOn)
    ∧ faultOf (exec (.noteOn 69#7 0x7FC00000#32) State.reset) = some (.numInvalid [.f32 0x7FC00000#32])
    ∧ (v0 (after (.noteOn 60#7 0x3FC00000#32) { ready with rnd := { offered := [.f32 0#32], taken := 0 } })).gain
      = .f32 0x3E19999A#32 := by decide
/-- E9's double NOTE_OFF: the second finds the same voice and changes nothing. -/
theorem test_noteOff : (v0 (after (.noteOff false 69#7 0#32) (playing 0#32 0#32 (envAt .sustain 0x3F4CCCCD#32 0#32)))).env
      = envAt .release 0x3F4CCCCD#32 0x387D9FB2#32
    ∧ nextOf (exec (.noteOff true 69#7 0#32) (playing 0#32 0#32 (envAt .release 0x3E99999A#32 0x3E800000#32)))
      = some (playing 0#32 0#32 (envAt .release 0x3E99999A#32 0x3E800000#32)) := by decide
/-- X5's no-op, on the small block. -/
theorem test_noteOff_nobody : nextOf (exec (.noteOff false 69#7 0#32) ready) = some ready := by decide
/-- Two frames of a voice at phase 0.5 and increment 1: 0.5 * 0.25 * 0.5 and 0.5 * 0.5 * 0.5 (T1, T3's table, Y4). -/
theorem test_render : (after (.render 4#16 2#16) (playing 0x3F000000#32 0x3F800000#32 atAttack)).buf
      = [(4, .f32 0x3D800000#32), (5, .f32 0x3E000000#32), (12, .f32 0x3D800000#32), (13, .f32 0x3E000000#32)]
    ∧ (v0 (after (.render 4#16 2#16) (playing 0x3F000000#32 0x3F800000#32 atAttack))).main.phase = .f32 0x40200000#32 := by decide
/-- X2, X9 to X12 on the small block, and P5's broken increment: the third read is out of range. -/
theorem test_render_contract : faultOf (exec (.render 9#16 0#16) State.reset) = some (.notPrepared .render)
    ∧ faultOf (exec (.render 6#16 3#16) ready) = some (.renderRange 6#16 3#16)
    ∧ faultOf (exec (.render 9#16 0#16) ready) = some (.renderRange 9#16 0#16)
    ∧ nextOf (exec (.render 8#16 0#16) ready) = some ready
    ∧ faultOf (exec (.render 0#16 4#16) (playing 0#32 0x40E00000#32 atAttack)) = some (.phaseRange .sine (.f32 0x40C00000#32)) := by
  decide
/-- B15 at the small size. -/
theorem test_build : (after (.build .saw 16#5 0x46AC4400#32 0x472C4400#32) ready).tbl.saw
      = [(0, .f32 0#32), (1, .f32 0#32), (2, .f32 0#32), (3, .f32 0#32), (4, .f32 0#32)]
    ∧ (after (.build .saw 16#5 0x46AC4400#32 0x472C4400#32) ready).tbl.sine = tri := by decide
/-- B19, and a rate that is no finite number (entry U4). -/
theorem test_build_corner : (after (.build .square 0#5 0x43DC0000#32 0x472C4400#32) ready).tbl.square
      = [(0, .f32 0#32), (1, .f32 0#32), (2, .f32 0#32), (3, .f32 0#32), (4, .f32 0#32)]
    ∧ faultOf (exec (.build .square 1#5 0x43DC0000#32 0x7F800000#32) ready) = some (.numInvalid [.f32 0x7F800000#32]) := by decide
theorem test_rebuildAll : (after .rebuildAll { ready with cfg := { ready.cfg with fs := .f32 0x445C0000#32 } }).tbl
    = PerKind.all [(0, .f32 0#32), (1, .f32 0#32), (2, .f32 0#32), (3, .f32 0#32), (4, .f32 0#32)] := by decide
/-- F3 (at the default table length). -/
theorem test_oscSetFreq :
    (v0 (after (.oscSetFreq 0 .main 0x43DC0000#32 0x472C4400#32) State.reset)).main.inc = .f32 0x41A377EE#32 := by decide
/-- O9. -/
theorem test_oscSetRandomPhase :
    (v0 (after (.oscSetRandomPhase 0 (.sub 7#3)) { State.reset with rnd := { offered := [.f32 0x44001000#32], taken := 0 } })).osc
      (.sub 7#3) = { phase := .f32 0x44001000#32, inc := .f32 0#32 } := by decide
/-- O4 and O5. -/
theorem test_oscAdvance :
    (v0 (after (.oscAdvance 0 .main) { State.reset with voices := [busyAt 0x44FF0000#32 0x41A40000#32 atAttack] })).main.phase
      = .f32 0x41480000#32
    ∧ (v0 (after (.oscAdvance 0 .main) { State.reset with voices := [busyAt 0x44FFE000#32 0x3F800000#32 atAttack] })).main.phase
      = .f32 0#32 := by decide
/-- O7. -/
theorem test_oscStop : (v0 (after (.oscStop 0 .main) (playing 0x3F000000#32 0x3F800000#32 atAttack))).main
    = { phase := .f32 0x3F000000#32, inc := .f32 0#32 } := by decide
theorem test_oscReset : (v0 (after (.oscReset 0 .main) (playing 0x3F000000#32 0x3F800000#32 atAttack))).main
    = { phase := .f32 0#32, inc := .f32 0x3F800000#32 } := by decide
/-- O10. -/
theorem test_oscNextSample : (after (.oscNextSample 0 .main .saw) (playing 0x40600000#32 0x3F800000#32 atAttack)).ret = .f32 0xBF000000#32
    ∧ (v0 (after (.oscNextSample 0 .main .saw) (playing 0x40600000#32 0x3F800000#32 atAttack))).main.phase = .f32 0x3F000000#32 := by
  decide
/-- T1 to T4. -/
theorem test_tblInterp : [0x3F000000#32, 0x3FA00000#32, 0x40600000#32, 0x40000000#32].map
      (fun p => (after (.tblInterp .sine p) ready).ret)
    = [.f32 0x3F000000#32, .f32 0x3F400000#32, .f32 0xBF000000#32, .f32 0#32] := by decide
/-- T5. -/
theorem test_tblInterp_range : faultOf (exec (.tblInterp .sine 0x40800000#32) ready) = some (.phaseRange .sine (.f32 0x40800000#32)) := by
  decide
/-- Y1 in the format: F7. -/
theorem test_envRates : (after .envRates ready).atkInc = .f32 0x3B149B93#32 ∧ (after .envRates ready).decDec = .f32 0x383E37C5#32
    ∧ (after .envRates { ready with cfg := { ready.cfg with s := .f32 0x3F800000#32, fs := .f32 0x00000001#32 } }).decDec = .f32 0#32 := by
  decide
theorem test_envTrigger : (v0 (after (.envTrigger 0) (playing 0#32 0#32 (envAt .release 0x3F000000#32 7#32)))).env
    = envAt .attack 0#32 7#32 := by decide
/-- F9 and Y7. -/
theorem test_envRelease : (v0 (after (.envRelease 0) (playing 0#32 0#32 (envAt .sustain 0x3F4CCCCD#32 0#32)))).env
      = envAt .release 0x3F4CCCCD#32 0x387D9FB2#32
    ∧ (v0 (after (.envRelease 0) (playing 0#32 0#32 (envAt .idle 0#32 7#32)))).env = envAt .idle 0#32 7#32
    ∧ (v0 (after (.envRelease 0)
        { playing 0#32 0#32 atAttack with cfg := { ready.cfg with fs := .f32 0x00000001#32 } })).env = envAt .release 0#32 0#32 := by
  decide
/-- Y4 and Y5: the stages and values around each end of a segment, at sustain 0.5. -/
theorem test_envNext :
    ([envAt .attack 0x3F000000#32 0#32, envAt .attack 0x3F400000#32 0#32, envAt .decay 0x3F800000#32 0#32,
      (envAt .decay 0x3F200000#32 0#32), envAt .sustain 0x3F000000#32 0#32, envAt .release 0x3F000000#32 0x3E800000#32,
      (envAt .release 0x3E800000#32 0x3E800000#32), envAt .idle 0#32 0#32] : List Env).map
        (fun e => ((envStep { ready with cfg := { ready.cfg with s := .f32 0x3F000000#32 } } e).1.stage,
          (envStep { ready with cfg := { ready.cfg with s := .f32 0x3F000000#32 } } e).2))
      = [(.attack, .f32 0x3F400000#32), (.decay, .f32 0x3F800000#32), (.decay, .f32 0x3F600000#32), (.sustain, .f32 0x3F000000#32),
        (.sustain, .f32 0x3F000000#32), (.release, .f32 0x3E800000#32), (.idle, .f32 0#32), (.idle, .f32 0#32)] := by decide
theorem test_envReset : (v0 (after (.envReset 0) (playing 0#32 0#32 (envAt .release 0x3F000000#32 7#32)))).env
    = envAt .idle 0#32 7#32 := by decide
/-- V1 in the format (F4, F10; the slots' words worked out from R223 in binary32). -/
theorem test_voiceNoteOn :
    (fun x : Voice => (x.kind, x.main, x.gain, x.env))
      (v0 (after (.voiceNoteOn 0 60#7 0x3F000000#32 .square 2#16)
        { ready with
          par := Params.default
          rnd := { offered := [.f32 0#32, .f32 0x44000000#32, .f32 0x44800000#32], taken := 0 } }))
      = (.square, ⟨.f32 0#32, .f32 0x414265DC#32⟩, .f32 0x3D99999A#32, (envAt .attack 0#32 0#32))
    ∧ (fun x : Voice => (x.note, x.busy, x.subs.take 3))
      (v0 (after (.voiceNoteOn 0 60#7 0x3F000000#32 .square 2#16)
        { ready with
          par := Params.default
          rnd := { offered := [.f32 0#32, .f32 0x44000000#32, .f32 0x44800000#32], taken := 0 } }))
      = (60#7, true, [⟨true, ⟨.f32 0x44000000#32, .f32 0x40C265DC#32⟩⟩,
        ⟨true, ⟨.f32 0x44800000#32, .f32 0x4081993D#32⟩⟩, Slot.atReset numF32]) := by
  decide
/-- V3 in the format: slots 0 and 1 are skipped, slot 2 takes the second draw. -/
theorem test_voiceNoteOn_nyquist :
    (fun x : Voice => (x.main, x.subs.take 4))
      (v0 (after (.voiceNoteOn 0 127#7 0x3F800000#32 .sine 3#16)
        { State.reset with
          cfg := { Ctrl.atReset numF32 with fs := .f32 0x45FA0000#32 }
          rnd := { offered := [.f32 0x3F800000#32, .f32 0x40000000#32], taken := 0 } }))
      = (⟨.f32 0x3F800000#32, .f32 0x4548B3A0#32⟩,
        [Slot.atReset numF32, Slot.atReset numF32, ⟨true, ⟨.f32 0x40000000#32, .f32 0x4448B3A0#32⟩⟩, Slot.atReset numF32]) := by decide
/-- V4 in the format: F9, with and without the flag. -/
theorem test_voiceNoteOff :
    after (.voiceNoteOff 0 0#32 true) (playing 0#32 0#32 (envAt .sustain 0x3F4CCCCD#32 0#32))
      = playing 0#32 0#32 (envAt .release 0x3F4CCCCD#32 0x387D9FB2#32)
    ∧ after (.voiceNoteOff 0 0#32 false) (playing 0#32 0#32 (envAt .sustain 0x3F4CCCCD#32 0#32))
      = playing 0#32 0#32 (envAt .release 0x3F4CCCCD#32 0x387D9FB2#32) := by decide
/-- R225: a render adds onto what the buffer holds, and the voice goes idle on the sample that ends its release. -/
theorem test_voiceRender :
    (after (.voiceRender 0 0#16 3#16)
      { playing 0x3F000000#32 0x3F800000#32 (envAt .release 0x3F000000#32 0x3E800000#32) with
        buf := [(0, .f32 0x3F800000#32), (1, .f32 0#32), (8, .f32 0#32), (9, .f32 0#32)] }).buf
      = [(0, .f32 0x3F880000#32), (1, .f32 0#32), (8, .f32 0x3D800000#32), (9, .f32 0#32)]
    ∧ (v0 (after (.voiceRender 0 0#16 3#16)
      { playing 0x3F000000#32 0x3F800000#32 (envAt .release 0x3F000000#32 0x3E800000#32) with
        buf := [(0, .f32 0x3F800000#32), (1, .f32 0#32), (8, .f32 0#32), (9, .f32 0#32)] })).busy = false := by decide
/-- V8. -/
theorem test_voiceReset :
    (fun x : Voice => (x.busy, x.env.stage, x.env.level, x.subs.map Slot.live))
      (v0 (after (.voiceReset 0)
        { ready with voices := [{ busyAt 0#32 0#32 (envAt .release 0x3E99999A#32 0#32) with
          subs := List.replicate 8 { Slot.atReset numF32 with live := true } }] }))
      = (false, .idle, .f32 0#32, List.replicate 8 false) := by decide
/-- M1. -/
theorem test_bufClear : (after (.bufClear 4#16 2#16) { ready with buf := [(3, .f32 7#32), (4, .f32 7#32)] }).buf
    = [(3, .f32 7#32), (4, .f32 0#32), (5, .f32 0#32), (12, .f32 0#32), (13, .f32 0#32)] := by decide
/-- M2. -/
theorem test_mixAcc : (after (.mixAcc 3 0xBD4CCCCD#32) { ready with buf := [(3, .f32 0x3E800000#32), (11, .f32 0x3E800000#32)] }).buf
    = [(3, .f32 0x3E4CCCCD#32), (11, .f32 0x3E4CCCCD#32)] := by decide

/-! ### Steps -/

/-- R72: with complete commands at both ports `RT` goes first, and `CTL` is taken in the next slot. -/
theorem test_step_rt_first :
    (stepped { ready with rt := [0x12000002#32], ctl := [0x10000002#32] }).cfg.sub = 2#4
    ∧ (stepped { ready with rt := [0x12000002#32], ctl := [0x10000002#32] }).ctl = [0x10000002#32]
    ∧ (stepped (stepped { ready with rt := [0x12000002#32], ctl := [0x10000002#32] })).cfg.wave = .square := by decide
/-- R331, R332: reset in the middle of a command, then the next command runs on the state of R40. -/
theorem test_step_reset :
    (stepped { ready with
      rt := [0x01000200#32]
      arrivals := [[.reset, .word .ctl 0x12000003#32]] }).cfg.sub = 3#4
    ∧ (stepped { ready with
      rt := [0x01000200#32]
      arrivals := [[.reset, .word .ctl 0x12000003#32]] }).prepared = false := by decide
/-- The instruction of a table row runs in the very next step. -/
theorem test_fetch_word : (stepped (State.reset.withFetchWord 32 0x12000005)).cfg.sub = 5#4
    ∧ (v0 (stepped (State.reset.withFetchWord 8 0x41))).env.stage = .attack := by decide
/-- The memory after reset is in canonical form. -/
theorem test_reset_memory_wf : State.reset.buf.wf = true ∧ State.reset.tbl.saw.wf = true := by decide

/-! ### Witnesses: a concrete state and operands that meet a statement's hypotheses together -/

theorem witness_DecodeOfEncodeIsTheInstruction :
    (Instr.build .triangle 16#5 1#32 2#32).encodable = true ∧ (Instr.render 0xFFFF#16 0xFFFF#16).encodable = true := by decide

theorem witness_EncodeOfDecodeIsTheWords :
    decode [0x21000145#32, 7#32, 0x02000000#32] = .ok (.noteOff true 69#7 7#32, [0x02000000#32]) := by decide

theorem witness_HeaderSelectsAtMostOneRow :
    (⟨.noteOff, 0x21000000#32, 0xFFFFFE80#32, 1⟩ : OpcodeRow) ∈ opcodeMap
      ∧ 0x21000145#32 &&& 0xFFFFFE80#32 = 0x21000000#32 := by decide

theorem witness_LengthIsAFunctionOfTheOpcode :
    decode [0x13000000#32, 1#32, 2#32, 3#32, 4#32, 5#32] = .ok (.setAdsr 1#32 2#32 3#32 4#32, [5#32])
      ∧ (rowOf 0x21000145#32).isSome = true ∧ (rowOf 0x2100007F#32).isSome = true
      ∧ (0x21000145#32).extractLsb' 24 8 = (0x2100007F#32).extractLsb' 24 8 := by decide

/-- One state for each clause. -/
theorem witness_StepRunsTheDecodedInstruction :
    paramsLegal ready.par = true
      ∧ ((openSlot { ready with uops := [{ code := 0x40#8 }] }).uops = [{ code := 0x40#8 }]
        ∧ decodeUop { code := 0x40#8 } = .ok .envRates)
      ∧ ((openSlot { ready with rt := [0x02000000#32, 1#32] }).uops = []
        ∧ decode (openSlot { ready with rt := [0x02000000#32, 1#32] }).rt = .ok (.release, [1#32]))
      ∧ (decode (openSlot { ready with rt := [0x20000045#32], ctl := [0x12000003#32] }).rt = .error .incomplete
        ∧ decode (openSlot { ready with rt := [0x20000045#32], ctl := [0x12000003#32] }).ctl = .ok (.setSub 3#16, []))
      ∧ decode (openSlot { ready with ctl := [0x13000000#32, 0#32, 0#32, 0#32] }).ctl = .error .incomplete := by decide

/-- One state for each clause: a header that matches no row, an operand word of RENDER, at either port. -/
theorem witness_ReservedEncodingIsCV1 :
    paramsLegal ready.par = true ∧ (openSlot { ready with rt := [0x20000080#32] }).uops = []
      ∧ (openSlot { ready with rt := [0x20000080#32] }).rt = [0x20000080#32]
      ∧ (∀ r ∈ opcodeMap, 0x20000080#32 &&& r.mask ≠ r.pattern)
      ∧ (openSlot { ready with rt := [0x3000FFFF#32, 0x00010000#32] }).rt = [0x3000FFFF#32, 0x00010000#32]
      ∧ 0x3000FFFF#32 &&& 0xFFFF0000#32 = 0x30000000#32 ∧ 0x00010000#32 &&& 0xFFFF0000#32 ≠ 0#32
      ∧ decode (openSlot { ready with ctl := [0x14000000#32] }).rt = .error .incomplete
      ∧ (openSlot { ready with ctl := [0x14000000#32] }).ctl = [0x14000000#32]
      ∧ (∀ r ∈ opcodeMap, 0x14000000#32 &&& r.mask ≠ r.pattern)
      ∧ (openSlot { ready with ctl := [0x30000001#32, 0x80000000#32] }).ctl = [0x30000001#32, 0x80000000#32]
      ∧ 0x80000000#32 &&& 0xFFFF0000#32 ≠ 0#32 := by decide

/-- A state in which `core_busy` is 0 and a voice is busy, and its last word. -/
theorem witness_ResetLeavesTheDefaults :
    coreBusy (playing 0#32 0#32 atAttack) = false ∧ voiceBusyOut (playing 0#32 0#32 atAttack) 0 = true
      ∧ (playing 0#32 0#32 atAttack).voices[0]? = some (busyAt 0#32 0#32 atAttack)
      ∧ 1 < ready.par.channels ∧ 7 < ready.par.bufLen := by decide

theorem witness_SetHarmUnpreparedStoresTheClampedCount : State.reset.prepared = false := by decide

theorem witness_SetHarmPreparedRebuildsTheTables :
    ready.prepared = true ∧ BuildInRange ready.par.tableSize ready.par.fBuild ready.cfg.fs :=
  ⟨rfl, by decide, by decide, by decide, by decide, by decide⟩

theorem witness_SetAdsrClampsAndRecomputesTheRates :
    F32.isFinite 0xBF800000#32 = true ∧ F32.isFinite 0x7F7FFFFF#32 = true ∧ F32.isFinite 0x80000000#32 = true
      ∧ F32.isFinite 0x3B03126F#32 = true ∧ ready.prepared = true ∧ State.reset.prepared = false := by decide

/-- The block sizes 1 and `BUFLEN`, and 16 partials. -/
theorem witness_PrepareBuildsAndResets :
    F32.lt 0#32 0x472C4400#32 = true ∧ 1 ≤ (1#16).toNat ∧ (8#16).toNat ≤ ready.par.bufLen
      ∧ (16#5).toNat ≤ 16 ∧ BuildInRange ready.par.tableSize ready.par.fBuild (.f32 0x472C4400#32) :=
  ⟨by decide, by decide, by decide, by decide, by decide, by decide, by decide, by decide, by decide⟩

theorem witness_PrepareWithIllegalOperandsIsCV3 :
    F32.isFinite 0x80000000#32 = true ∧ F32.le 0x80000000#32 0#32 = true ∧ F32.isFinite 0x472C4400#32 = true
      ∧ (0#16).toNat = 0 ∧ ready.par.bufLen < (9#16).toNat := by decide

theorem witness_ReleaseEndsThePreparedState : (playing 0#32 0#32 atAttack).prepared = true := by decide

theorem witness_ReleaseUnpreparedHasNoEffect :
    (State.resetWith small).prepared = false ∧ ∀ x ∈ (State.resetWith small).voices, VoiceAtRest numF32 x := by
  refine ⟨rfl, fun x hx => ?_⟩
  obtain rfl : x = rest := (List.mem_replicate.1 hx).2
  exact ⟨rfl, rfl, rfl, by decide⟩

/-- Three operands that are not finite, a build that stops, and the block with an infinite `F_BUILD`. -/
theorem witness_NonFiniteOperandIsCV6 :
    F32.isFinite 0x7F800000#32 = false ∧ F32.isFinite 0xFF800000#32 = false ∧ F32.isFinite 0x7FC00000#32 = false
      ∧ buildWords numF32 small.tableSize .saw (16#5).toNat (.f32 0x43DC0000#32) (.f32 0x7F800000#32) = .error (.f32 0x7F800000#32)
      ∧ F32.isFinite 0x472C4400#32 = true ∧ 1 ≤ (1#5).toNat
      ∧ paramsLegal { small with fBuild := .f32 0x7F800000#32 } = true
      ∧ F32.isFinite ready.cfg.fs.bits = true ∧ 1 ≤ ready.cfg.harm.toNat ∧ ready.prepared = true
      ∧ F32.lt 0#32 0x472C4400#32 = true ∧ (8#16).toNat ≤ small.bufLen := by decide

/-- The second voice is the first idle one. -/
theorem witness_NoteOnStartsTheFirstIdleVoice :
    F32.isFinite 0x3FC00000#32 = true ∧ (playing 0#32 0#32 atAttack).prepared = true
      ∧ (playing 0#32 0#32 atAttack).voices[1]? = some rest ∧ rest.busy = false
      ∧ rest.subs.length = 8
      ∧ ∀ u y, u < 1 → (playing 0#32 0#32 atAttack).voices[u]? = some y → y.busy = true := by
  refine ⟨by decide, rfl, rfl, rfl, rfl, fun u y hu hy => ?_⟩
  obtain rfl : u = 0 := by omega
  obtain rfl : busyAt 0#32 0#32 atAttack = y := by simpa [playing] using hy
  rfl

theorem witness_CommandsOutsideTheContractStop :
    State.reset.prepared = false ∧ F32.isFinite 0#32 = true ∧ ready.prepared = true
      ∧ ready.par.bufLen < (8#16).toNat + (1#16).toNat
      ∧ { ready with cfg := { ready.cfg with maxblk := 3#16 } }.cfg.maxblk.toNat < (4#16).toNat := by decide

/-- The second of two voices holds the note; one stage for each clause. -/
theorem witness_NoteOffReleasesTheFirstHolder :
    F32.isFinite 0#32 = true
      ∧ ({ ready with voices := [rest, busyAt 0#32 0#32 atAttack] } : State).voices[1]?
        = some (busyAt 0#32 0#32 atAttack)
      ∧ (busyAt 0#32 0#32 atAttack).busy = true ∧ (busyAt 0#32 0#32 atAttack).note = 69#7
      ∧ (∀ u y, u < 1 → ({ ready with voices := [rest, busyAt 0#32 0#32 atAttack] } : State).voices[u]? = some y →
          ¬ (y.busy = true ∧ y.note = 69#7))
      ∧ (busyAt 0#32 0#32 atAttack).env.stage = .attack
      ∧ (busyAt 0#32 0#32 (envAt .release 0#32 0#32)).env.stage = .release := by
  refine ⟨by decide, rfl, rfl, rfl, fun u y hu hy => ?_, rfl, rfl⟩
  obtain rfl : u = 0 := by omega
  obtain rfl : rest = y := by simpa using hy
  decide

theorem witness_NotesWithNoVoiceToTakeChangeNothing :
    F32.isFinite 0#32 = true ∧ ready.prepared = true
      ∧ (∀ x ∈ [busyAt 0#32 0#32 atAttack, busyAt 0#32 0#32 atAttack], x.busy = true)
      ∧ ∀ x ∈ [busyAt 0#32 0#32 atAttack, rest], ¬ (x.busy = true ∧ x.note = 68#7) := by decide

/-- No slot of a voice after reset is live. -/
theorem atReset_dead : ∀ sl ∈ rest.subs, sl.live = false := by decide

/-- A voice whose slot 7 is live, at the table's last index. -/
def withSlot (phase : Word) : Voice :=
  { busyAt 0x40600000#32 0x3F800000#32 atAttack with
    subs := List.replicate 7 (Slot.atReset numF32) ++ [{ live := true, osc := ⟨.f32 phase, .f32 0x3F800000#32⟩ }] }

/-- A voice at phase 3.5 that advances by 1 in a table of 4 (vector O10). -/
theorem renderable_busyAt : VoiceRenderable small.tableSize (busyAt 0x40600000#32 0x3F800000#32 atAttack) :=
  ⟨⟨⟨by decide, by decide⟩, by decide, by decide⟩, fun sl h hl => absurd hl (by simp [atReset_dead sl h])⟩

theorem witness_RenderRunsToItsEnd :
    ready.prepared = true ∧ 0 < ready.par.tableSize ∧ ready.par.tableSize ≤ 2 ^ 24
      ∧ (4#16).toNat + (4#16).toNat ≤ ready.par.bufLen ∧ (4#16).toNat ≤ ready.cfg.maxblk.toNat
      ∧ ∀ x ∈ (playing 0x40600000#32 0x3F800000#32 atAttack).voices, x.busy = true → VoiceRenderable ready.par.tableSize x := by
  refine ⟨rfl, by decide, by decide, by decide, by decide, fun x hx hb => ?_⟩
  have hx' : x = busyAt 0x40600000#32 0x3F800000#32 atAttack ∨ x = rest := by simpa [playing] using hx
  rcases hx' with rfl | rfl
  · exact renderable_busyAt
  · exact absurd hb (by decide)

/-- The number 4 is the first phase outside a table of 4: the main oscillator's, or a live slot's. -/
theorem firstPhaseOutside_main : FirstPhaseOutside ready (busyAt 0x40800000#32 0#32 atAttack) (.f32 0x40800000#32) :=
  .inl ⟨rfl, by decide, .inr (by decide)⟩

theorem firstPhaseOutside_slot : FirstPhaseOutside ready (withSlot 0x40800000#32) (.f32 0x40800000#32) := by
  refine .inr ⟨⟨by decide, by decide, by decide⟩, 7, { live := true, osc := ⟨.f32 0x40800000#32, .f32 0x3F800000#32⟩ }, rfl, rfl, rfl,
    ⟨by decide, .inr (by decide)⟩, fun j sl' hj h hl => ?_⟩
  have hd : ∀ j < 7, ((withSlot 0x40800000#32).subs[j]?.any Slot.live) = false := by decide
  simpa [h, hl] using hd j hj

/-- Behind a voice that can be rendered, and behind an idle one. -/
theorem witness_RenderRunsToItsEnd_outside :
    ({ ready with voices := [busyAt 0x40600000#32 0x3F800000#32 atAttack, withSlot 0x40800000#32] } : State).voices[1]?
        = some (withSlot 0x40800000#32)
      ∧ (withSlot 0x40800000#32).busy = true ∧ FirstPhaseOutside ready (withSlot 0x40800000#32) (.f32 0x40800000#32)
      ∧ VoiceRenderable ready.par.tableSize (busyAt 0x40600000#32 0x3F800000#32 atAttack)
      ∧ ({ ready with voices := [rest, busyAt 0x40800000#32 0#32 atAttack] } : State).voices[1]?
        = some (busyAt 0x40800000#32 0#32 atAttack)
      ∧ FirstPhaseOutside ready (busyAt 0x40800000#32 0#32 atAttack) (.f32 0x40800000#32) ∧ rest.busy = false
      ∧ 0 < (1#16).toNat ∧ (7#16).toNat + (1#16).toNat ≤ ready.par.bufLen :=
  ⟨rfl, rfl, firstPhaseOutside_slot, renderable_busyAt, rfl, firstPhaseOutside_main, rfl, by decide, by decide⟩

theorem witness_RenderOfSilenceClearsTheRegion :
    ready.prepared = true ∧ (0#16).toNat + (8#16).toNat ≤ ready.par.bufLen ∧ (8#16).toNat ≤ ready.cfg.maxblk.toNat
      ∧ (∀ x ∈ ready.voices, x.busy = false) ∧ (8#16).toNat ≤ ready.par.bufLen := by decide

theorem witness_RenderLeavesAllChannelsIdentical :
    exec (.render 4#16 2#16) (playing 0x3F000000#32 0x3F800000#32 atAttack)
        = .next (after (.render 4#16 2#16) (playing 0x3F000000#32 0x3F800000#32 atAttack))
      ∧ 1 < small.channels ∧ (4#16).toNat ≤ 5 ∧ 5 < (4#16).toNat + (2#16).toNat := by
  refine ⟨?_, by decide, by decide, by decide⟩
  have h : (nextOf (exec (.render 4#16 2#16) (playing 0x3F000000#32 0x3F800000#32 atAttack))).isSome = true := by decide
  revert h; unfold after; cases exec (.render 4#16 2#16) (playing 0x3F000000#32 0x3F800000#32 atAttack) <;> simp [nextOf]

/-- An instruction that goes on goes on to `after`. -/
theorem goes_on {i : Instr} {s : State} (h : (nextOf (exec i s)).isSome = true) : exec i s = .next (after i s) := by
  revert h; unfold after; cases exec i s <;> simp [nextOf]

/-- A step that goes on goes on to `stepped`. -/
theorem steps_on {s : State} (h : (nextOf (step s)).isSome = true) : step s = .next (stepped s) := by
  revert h; unfold stepped; cases step s <;> simp [nextOf]

theorem witness_SplitRenderEqualsOneRender :
    (1#16).toNat + (2#16).toNat + (3#16).toNat < 2 ^ 16
      ∧ (2#16).toNat + (3#16).toNat ≤ (playing 0x3F000000#32 0x3F800000#32 atAttack).cfg.maxblk.toNat
      ∧ exec (.render 1#16 2#16) (playing 0x3F000000#32 0x3F800000#32 atAttack)
        = .next (after (.render 1#16 2#16) (playing 0x3F000000#32 0x3F800000#32 atAttack))
      ∧ exec (.render (1#16 + 2#16) 3#16) (after (.render 1#16 2#16) (playing 0x3F000000#32 0x3F800000#32 atAttack))
        = .next (after (.render (1#16 + 2#16) 3#16)
            (after (.render 1#16 2#16) (playing 0x3F000000#32 0x3F800000#32 atAttack))) :=
  ⟨by decide, by decide, goes_on (by decide), goes_on (by decide)⟩

/-- Two busy voices with an idle one between them, and one busy voice among two; one has a live slot. The last frame and
the last table index. -/
theorem witness_RenderOfOneFrameSumsTheBusyVoices :
    ready.prepared = true ∧ (7#16).toNat < ready.par.bufLen ∧ 1 ≤ ready.cfg.maxblk.toNat
      ∧ (∀ x ∈ [withSlot 0x407FFFFF#32, rest, busyAt 0#32 0#32 atAttack], x.busy = true → VoiceReadable ready x)
      ∧ (playing 0#32 0#32 atAttack).voices[0]? = some (busyAt 0#32 0#32 atAttack)
      ∧ (busyAt 0#32 0#32 atAttack).busy = true
      ∧ ∀ u y, u ≠ 0 → (playing 0#32 0#32 atAttack).voices[u]? = some y → y.busy = false := by
  refine ⟨rfl, by decide, by decide, fun x hx hb => ?_, rfl, rfl, fun u y hu hy => ?_⟩
  · have hx' : x = withSlot 0x407FFFFF#32 ∨ x = rest ∨ x = busyAt 0#32 0#32 atAttack := by simpa using hx
    rcases hx' with rfl | rfl | rfl
    · exact ⟨⟨by decide, by decide, by decide⟩, by
        intro sl h hl
        have h' : sl = Slot.atReset numF32 ∨ sl = { live := true, osc := ⟨.f32 0x407FFFFF#32, .f32 0x3F800000#32⟩ } := by
          simpa [withSlot, List.mem_replicate] using h
        rcases h' with rfl | rfl
        · exact absurd hl (by decide)
        · exact ⟨by decide, by decide, by decide⟩⟩
    · exact absurd hb (by decide)
    · exact ⟨⟨by decide, by decide, by decide⟩, fun sl h hl => absurd hl (by simp [atReset_dead sl h])⟩
  · match u, hu with
    | 1, _ =>
      obtain rfl : rest = y := by simpa [playing] using hy
      rfl
    | u + 2, _ => simp [playing] at hy

theorem witness_BuildReplacesOneWholeTable :
    (16#5).toNat ≤ 16 ∧ BuildInRange ready.par.tableSize (.f32 0x43DC0000#32) (.f32 0x472C4400#32)
      ∧ ready.cfg.harm.toNat ≤ 16 ∧ BuildInRange ready.par.tableSize ready.par.fBuild ready.cfg.fs :=
  ⟨by decide, ⟨by decide, by decide, by decide, by decide, by decide⟩, by decide, by decide, by decide, by decide, by decide,
    by decide⟩

/-- B18, the silent case. A table with a peak above zero cannot be written out: its words are sums of the sine's values,
which entry U3 leaves free. -/
theorem witness_BuiltTableIsSilentOrPeaksAtExactlyOne :
    0 < 4 ∧ buildWords numF32 4 .saw 16 (.f32 0x43DC0000#32) (.f32 0x445C0000#32)
      = .ok [.f32 0#32, .f32 0#32, .f32 0#32, .f32 0#32, .f32 0#32] := by decide

theorem witness_FundamentalAtNyquistGivesASilentTable :
    F32.isFinite 0x43DC0000#32 = true ∧ F32.isFinite 0x445C0000#32 = true
      ∧ F32.le (F32.div 0x445C0000#32 (F32.ofInt 2)) 0x43DC0000#32 = true := by decide

theorem witness_RealTableIsTheNormalizedPartialSum : 0 < 2048 ∧ ReadsReal numRealCoded realOf :=
  ⟨by decide, numRealCoded_readsReal⟩

theorem witness_OscillatorOperationsWriteOneOscillator :
    State.reset.voices[15]? = some rest ∧ rest.subs.length = 8 := by decide

theorem witness_RandomPhaseTakesOneDraw :
    ready.voices[1]? = some rest ∧ rest.subs.length = 8 ∧ 0 < ready.par.tableSize
      ∧ ready.par.tableSize ≤ 2 ^ 24 ∧ ready.rnd.offered = []
      ∧ ({ ready with rnd := { offered := [.f32 0x407FFFFF#32], taken := 0 } } : State).rnd.offered = .f32 0x407FFFFF#32 :: [] := by
  decide

/-- The ends of both ranges: phase 0 and the number below 4, increment 0 and the number below 4. -/
theorem witness_AdvanceKeepsThePhaseInTheTable :
    (PhaseInTable 4 ⟨.f32 0#32, .f32 0#32⟩ ∧ IncrementLegal 4 ⟨.f32 0#32, .f32 0#32⟩)
      ∧ (PhaseInTable 4 ⟨.f32 0x407FFFFF#32, .f32 0x407FFFFF#32⟩ ∧ IncrementLegal 4 ⟨.f32 0x407FFFFF#32, .f32 0x407FFFFF#32⟩)
      ∧ drawLegal numF32 4 (.f32 0x407FFFFF#32) = true ∧ 0 < 2 ^ 24 ∧ F32.isFinite 0x00000001#32 = true
      ∧ F32.lt 0#32 0x00000001#32 = true
      ∧ ((0 : ℝ) ≤ 3 ∧ (3 : ℝ) < (4 : Nat) ∧ (0 : ℝ) < 440) :=
  ⟨⟨⟨by decide, by decide⟩, by decide, by decide⟩, ⟨⟨by decide, by decide⟩, by decide, by decide⟩, by decide, by decide,
    by decide, by decide, by norm_num, by norm_num, by norm_num⟩

/-- The first and the last index, and a phase on either side of the table. -/
theorem witness_TableReadInterpolatesOrIsCV5 :
    F32.isFinite 0#32 = true ∧ F32.floor 0#32 = (0 : Nat) ∧ 0 < ready.par.tableSize
      ∧ F32.isFinite 0x407FFFFF#32 = true ∧ F32.floor 0x407FFFFF#32 = (3 : Nat) ∧ 3 < ready.par.tableSize
      ∧ F32.isFinite 0x40800000#32 = true ∧ (ready.par.tableSize : Int) - 1 < F32.floor 0x40800000#32
      ∧ F32.isFinite 0x80000001#32 = true ∧ F32.floor 0x80000001#32 < 0 := by decide

theorem witness_NextSampleReadsThenAdvances :
    (playing 0x40600000#32 0x3F800000#32 atAttack).voices[0]? = some (busyAt 0x40600000#32 0x3F800000#32 atAttack)
      ∧ (busyAt 0x40600000#32 0x3F800000#32 atAttack).subs.length = 8
      ∧ F32.isFinite ((busyAt 0x40600000#32 0x3F800000#32 atAttack).osc .main).phase.bits = true
      ∧ F32.floor ((busyAt 0x40600000#32 0x3F800000#32 atAttack).osc .main).phase.bits = (3 : Nat)
      ∧ 3 < ready.par.tableSize
      ∧ PhaseOutside (playing 0x40800000#32 0#32 atAttack) ((busyAt 0x40800000#32 0#32 atAttack).osc .main).phase :=
  ⟨by decide, by decide, by decide, by decide, by decide, by decide, .inr (by decide)⟩

theorem witness_RealInterpolantLiesBetweenItsWords :
    (0 : ℝ) ≤ 0 ∧ (0 : ℝ) < 1 ∧ (0 : ℝ) ≤ 1 / 2 ∧ (1 / 2 : ℝ) < 1 ∧ 0 < 4
      ∧ (0 : ℝ) ≤ 7 / 2 ∧ (7 / 2 : ℝ) < ((4 : ℕ) : ℝ) := by norm_num

theorem witness_ReadingAtAnIntegerPhaseIsTheTableWord :
    3 < ready.par.tableSize ∧ ready.par.tableSize ≤ 2 ^ 24 ∧ F32.inUnit (tblRead ready .square 3).bits = true
      ∧ F32.inUnit (tblRead ready .square 4).bits = true := by decide

theorem witness_EnvelopeRatesTriggerAndReset : ready.voices[1]? = some rest := by decide

theorem witness_EnvelopeReleaseLatchesItsStep :
    (playing 0#32 0#32 atAttack).voices[0]? = some (busyAt 0#32 0#32 atAttack)
      ∧ (busyAt 0#32 0#32 atAttack).env.stage = .attack ∧ (busyAt 0#32 0#32 (envAt .decay 0#32 0#32)).env.stage = .decay
      ∧ (busyAt 0#32 0#32 (envAt .sustain 0#32 0#32)).env.stage = .sustain ∧ rest.env.stage = .idle
      ∧ (busyAt 0#32 0#32 (envAt .release 0#32 0#32)).env.stage = .release := by decide

theorem witness_EnvelopeNextFollowsTheRampLaw :
    (playing 0#32 0#32 (envAt .decay 0x3F800000#32 0#32)).voices[0]? = some (busyAt 0#32 0#32 (envAt .decay 0x3F800000#32 0#32)) := by
  decide

theorem witness_RealSegmentLengths :
    (0 : ℝ) < 1 / 100 ∧ (0 : ℝ) < 1 / 10 ∧ (0 : ℝ) ≤ 4 / 5 ∧ (4 / 5 : ℝ) < 1 ∧ (1 : ℝ) ≤ 1 ∧ (0 : ℝ) < 3 / 10
      ∧ (0 : ℝ) < 44100 ∧ ReadsReal numRealCoded realOf := by
  norm_num [numRealCoded_readsReal]

theorem witness_VoiceNoteOnStartsTheVoice :
    (playing 0#32 0#32 atAttack).voices[0]? = some (busyAt 0#32 0#32 atAttack) := by decide

theorem witness_DrawsGoToMainThenLiveSlotsInOrder :
    exec (.voiceNoteOn 0 60#7 0x3F800000#32 .saw 8#16) { ready with rnd := { offered := List.replicate 9 (.f32 0#32), taken := 0 } }
        = .next (after (.voiceNoteOn 0 60#7 0x3F800000#32 .saw 8#16)
          { ready with rnd := { offered := List.replicate 9 (.f32 0#32), taken := 0 } })
      ∧ ((after (.voiceNoteOn 0 60#7 0x3F800000#32 .saw 8#16)
          { ready with rnd := { offered := List.replicate 9 (.f32 0#32), taken := 0 } }).voices[0]?).isSome = true
      ∧ 9 ≤ (List.replicate 9 (NumWord.f32 0#32)).length :=
  ⟨goes_on (by decide), by decide, by decide⟩

theorem witness_VoiceNoteOffAndReset :
    (playing 0#32 0#32 atAttack).voices[0]? = some (busyAt 0#32 0#32 atAttack) := by decide

theorem witness_VoiceRenderRunsToItsEnd :
    ready.voices[0]? = some rest ∧ rest.busy = false
      ∧ (playing 0x40600000#32 0x3F800000#32 atAttack).voices[0]? = some (busyAt 0x40600000#32 0x3F800000#32 atAttack)
      ∧ 0 < ready.par.tableSize ∧ ready.par.tableSize ≤ 2 ^ 24 ∧ (4#16).toNat + (4#16).toNat ≤ ready.par.bufLen
      ∧ (busyAt 0x40600000#32 0x3F800000#32 atAttack).busy = true
      ∧ VoiceRenderable ready.par.tableSize (busyAt 0x40600000#32 0x3F800000#32 atAttack)
      ∧ FirstPhaseOutside ready (busyAt 0x40800000#32 0#32 atAttack) (.f32 0x40800000#32)
      ∧ FirstPhaseOutside ready (withSlot 0x40800000#32) (.f32 0x40800000#32) :=
  ⟨rfl, rfl, rfl, by decide, by decide, by decide, rfl, renderable_busyAt, firstPhaseOutside_main, firstPhaseOutside_slot⟩

theorem witness_BufClearZeroesItsRegion :
    (4#16).toNat + (4#16).toNat ≤ ready.par.bufLen ∧ (8#16).toNat + (0#16).toNat ≤ ready.par.bufLen := by decide

theorem witness_MixAccAddsToEveryChannel : 7 < ready.par.bufLen := by decide

theorem witness_MissingVoiceFrameOrPhaseStops :
    ready.voices[2]? = none ∧ ready.par.bufLen ≤ 8 ∧ 0 < (1#16).toNat ∧ ready.par.bufLen ≤ (8#16).toNat
      ∧ F32.isFinite 0x7F800000#32 = false := by decide

theorem witness_MidiFreqIsNearestTheTemperedPitch :
    F32.isFinite 0x43DC0001#32 = true ∧ (115#7).toNat + 12 < 128 := by decide

/-- A step that runs NOTE_ON on the prepared block. -/
def noteOnWaits : State := { ready with rt := [0x20000045#32, 0x3F800000#32] }

theorem witness_step : step noteOnWaits = .next (stepped noteOnWaits) ∧ (v0 (stepped noteOnWaits)).busy = true :=
  ⟨steps_on (by decide), by decide⟩

/-- The same with SET_SUB and a voice sounding. -/
def setSubWaits : State := { playing 0x3F000000#32 0x3F800000#32 atAttack with rt := [0x12000003#32] }

theorem witness_step_playing : step setSubWaits = .next (stepped setSubWaits) := steps_on (by decide)

theorem witness_StepKeepsMemoriesLegal : MemoriesLegal noteOnWaits := by
  refine ⟨fun k => ?_, by decide, fun k => ?_, by decide⟩ <;> cases k <;> decide

theorem witness_StepKeepsTablesClosed : TablesClosed noteOnWaits ∧ noteOnWaits.prepared = true := by
  refine ⟨fun _ k => ?_, rfl⟩
  cases k <;> exact ⟨by decide, by decide⟩

theorem witness_StepKeepsControlLegal : ControlLegal noteOnWaits :=
  ⟨rfl, by decide, by decide, by decide, ⟨by decide, by decide⟩, ⟨by decide, by decide⟩, ⟨by decide, by decide⟩,
    ⟨by decide, by decide⟩, fun _ => by decide⟩

theorem witness_StepKeepsVoicesConsistent : VoicesConsistent setSubWaits := by
  refine ⟨rfl, fun x hx => ?_⟩
  have hx' : x = busyAt 0x3F000000#32 0x3F800000#32 atAttack ∨ x = rest := by simpa [setSubWaits, playing] using hx
  rcases hx' with rfl | rfl
  · exact ⟨by decide, fun _ _ _ => rfl, fun _ => rfl⟩
  · exact ⟨by decide, fun sl h hl => absurd hl (by simp [atReset_dead sl h]), fun h => absurd h (by decide)⟩

theorem witness_StepKeepsPhasesInRange : PhasesInRange setSubWaits := by
  refine ⟨rfl, rfl, by decide, fun r hr => absurd hr List.not_mem_nil, by decide, fun x hx hb => ?_⟩
  have hx' : x = busyAt 0x3F000000#32 0x3F800000#32 atAttack ∨ x = rest := by simpa [setSubWaits, playing] using hx
  rcases hx' with rfl | rfl
  · exact ⟨⟨by decide, fun _ => ⟨by decide, by decide⟩⟩, fun sl h hl => absurd hl (by simp [atReset_dead sl h])⟩
  · exact absurd hb (by decide)

/-- A voice sounding, and one in its release. -/
def releasing : State :=
  { setSubWaits with
    voices := [busyAt 0x3F000000#32 0x3F800000#32 atAttack,
      busyAt 0x3F000000#32 0x3F800000#32 (envAt .release 0x3F800000#32 0x3E800000#32)] }

theorem witness_StepKeepsLevelsInRange : LevelsInRange releasing ∧ step releasing = .next (stepped releasing) := by
  have hv : ∀ x ∈ releasing.voices, x = busyAt 0x3F000000#32 0x3F800000#32 atAttack
      ∨ x = busyAt 0x3F000000#32 0x3F800000#32 (envAt .release 0x3F800000#32 0x3E800000#32) := fun x hx => by
    simpa [releasing] using hx
  refine ⟨⟨⟨rfl, fun x hx => ?_⟩, ⟨rfl, by decide, by decide, by decide, ⟨by decide, by decide⟩, ⟨by decide, by decide⟩,
    ⟨by decide, by decide⟩, ⟨by decide, by decide⟩, fun _ => by decide⟩, fun _ => by decide, fun x hx => ?_⟩,
    steps_on (by decide)⟩
  · rcases hv x hx with rfl | rfl <;> exact ⟨by decide, fun _ _ _ => rfl, fun _ => rfl⟩
  · rcases hv x hx with rfl | rfl <;> exact ⟨⟨by decide, by decide⟩, by decide⟩

theorem witness_StepKeepsParametersAndShape : ShapeLegal noteOnWaits := by
  refine ⟨by decide, fun x hx => ?_⟩
  obtain rfl : x = rest := (List.mem_replicate.1 hx).2
  rfl

/-- One command of each kind the statement names. -/
theorem witness_OnlyTheseCommandsDoThat :
    (Instr.noteOn 69#7 0x3F800000#32).isInternal = false
      ∧ exec (.noteOn 69#7 0x3F800000#32) ready = .next (after (.noteOn 69#7 0x3F800000#32) ready)
      ∧ exec (.render 0#16 8#16) ready = .next (after (.render 0#16 8#16) ready)
      ∧ exec (.setWave .saw) ready = .next (after (.setWave .saw) ready) :=
  ⟨by decide, goes_on (by decide), goes_on (by decide), goes_on (by decide)⟩


end Sys2Proof.Tests
end

/-! The shape of the block (10_state.md R20, R22, R23): every step keeps the parameters of 00_scope.md R8, the number of
voices and the number of each voice's slots. Every instruction keeps the slot counts whatever they are; the reset input
makes them legal. -/

section
namespace Sys2Proof.Machine

/-- How many slots each voice has, in order. -/
def slotCounts (s : State) : List Nat := s.voices.map fun x => x.subs.length

/-- The shape of R22 and R23 as one equation. -/
theorem shapeLegal_iff (s : State) : ShapeLegal s ↔ slotCounts s = List.replicate s.par.poolSize 8 := by
  simp [ShapeLegal, slotCounts, List.eq_replicate_iff]

/-- Two states have the same parameters and as many voices of as many slots. -/
def SameShape (s t : State) : Prop := t.par = s.par ∧ slotCounts t = slotCounts s

theorem SameShape.refl (s : State) : SameShape s s := ⟨rfl, rfl⟩

theorem SameShape.trans {s t u : State} (h : SameShape s t) (g : SameShape t u) : SameShape s u :=
  ⟨g.1.trans h.1, g.2.trans h.2⟩

theorem SameShape.shapeLegal {s t : State} (h : SameShape s t) (hs : ShapeLegal s) : ShapeLegal t := by
  obtain ⟨hpar, hcounts⟩ := h
  rw [shapeLegal_iff] at hs ⊢
  rw [hcounts, hpar, hs]

/-! ### The shared operations -/

/-- Replacing a voice by one of as many slots. -/
theorem sameShape_setVoice {s : State} {v : Nat} {x y : Voice} (h : s.voices[v]? = some x)
    (hy : y.subs.length = x.subs.length) : SameShape s (setVoice s v y) := by
  refine ⟨rfl, ?_⟩
  obtain ⟨hv, rfl⟩ := List.getElem?_eq_some_iff.1 h
  rw [slotCounts, slotCounts, setVoice_voices, List.map_set, hy, ← List.map_set, List.set_getElem_self]

theorem sameShape_onVoice {s t : State} {v : Nat} {f : Voice → Voice} (hf : ∀ x, (f x).subs.length = x.subs.length)
    (h : onVoice s v f = .ok t) : SameShape s t := by
  obtain ⟨x, hx, rfl⟩ := onVoice_eq_ok.1 h
  exact sameShape_setVoice hx (hf x)

theorem withOsc_subs_length (x : Voice) (sel : OscSel) (o : Osc) : (x.withOsc sel o).subs.length = x.subs.length := by
  obtain ⟨-, -, -, -, -, hlen, -⟩ := withOsc_fields x sel o
  exact hlen

/-- An update of one oscillator of a voice. -/
theorem sameShape_onOsc {s t : State} {v : Nat} {sel : OscSel} {f : Voice → Osc}
    (h : onVoice s v (fun x => x.withOsc sel (f x)) = .ok t) : SameShape s t :=
  sameShape_onVoice (fun x => withOsc_subs_length x sel (f x)) h

/-- An update of a voice's envelope. -/
theorem sameShape_onEnv {s t : State} {v : Nat} {f : Voice → Env}
    (h : onVoice s v (fun x => { x with env := f x }) = .ok t) : SameShape s t :=
  sameShape_onVoice (f := fun x => { x with env := f x }) (fun _ => rfl) h

theorem resetVoice_subs_length (F : NumFmt NumWord) (x : Voice) : (resetVoice F x).subs.length = x.subs.length :=
  clearLive_length x.subs

theorem sameShape_resetVoices (s : State) : SameShape s (resetVoices s) :=
  ⟨rfl, by simp [slotCounts, Function.comp_def, resetVoice_subs_length]⟩

theorem sameShape_buildTable {s t : State} {k : Kind} {harm : BitVec 5} {f0 fs : NumWord}
    (h : buildTable s k harm f0 fs = .ok t) : SameShape s t := by
  obtain ⟨words, -, rfl⟩ := buildTable_eq_ok.1 h
  exact .refl s

theorem sameShape_rebuildTables {s t : State} (h : rebuildTables s = .ok t) : SameShape s t := by
  obtain ⟨words, -, rfl⟩ := rebuildTables_eq_ok.1 h
  exact .refl s

theorem sameShape_bufClear {s t : State} {start count : Nat} (h : bufClear s start count = .ok t) : SameShape s t := by
  unfold bufClear at h
  split at h
  · cases h; exact .refl s
  · cases h

/-! ### Voice control and rendering -/

theorem sameShape_voiceNoteOn {s t : State} {v : Nat} {note : BitVec 7} {vel : NumWord} {k : Kind} {sc : Int}
    (h : voiceNoteOn s v note vel k sc = .ok t) : SameShape s t := by
  obtain ⟨x, hx, rfl⟩ := voiceNoteOn_eq_ok.1 h
  exact sameShape_setVoice hx (startSlots_length ..)

theorem SameVoiceSetup.subs_length {x y : Voice} (h : SameVoiceSetup x y) : y.subs.length = x.subs.length := by
  obtain ⟨-, -, -, -, hinc⟩ := h
  simpa using congrArg List.length hinc

theorem renderVoice_subs_length {s : State} {a count : Nat} {x x' : Voice} {b b' : Mem}
    (h : renderVoice s a count x b = .ok (x', b')) : x'.subs.length = x.subs.length :=
  (renderVoice_frame h).1.subs_length

theorem renderVoices_subs_length {s : State} {a count : Nat} {xs ys : List Voice} {b b' : Mem}
    (h : renderVoices s a count xs b = .ok (ys, b')) :
    (ys.map fun x => x.subs.length) = xs.map fun x => x.subs.length := by
  obtain ⟨hlen, hsetup, -⟩ := renderVoices_frame h
  refine List.ext_getElem (by simp [hlen]) fun v hy hx => ?_
  simp only [List.length_map] at hx hy
  simpa using (hsetup v xs[v] ys[v] (List.getElem?_eq_getElem hx) (List.getElem?_eq_getElem hy)).1.subs_length

/-! ### The host commands -/

theorem sameShape_prepareBlock {s t : State} {mb : BitVec 16} {fs : NumWord} (h : prepareBlock s mb fs = .ok t) :
    SameShape s t := by
  obtain ⟨-, -, -, -, u, hu, rfl⟩ := prepareBlock_eq_ok.1 h
  have hbuilt := sameShape_rebuildTables hu
  exact hbuilt.trans (sameShape_resetVoices u)

theorem sameShape_releaseBlock (s : State) : SameShape s (releaseBlock s) := by
  unfold releaseBlock
  split <;> exact sameShape_resetVoices s

theorem sameShape_setHarmonics {s t : State} {n : BitVec 16} (h : setHarmonics s n = .ok t) : SameShape s t := by
  obtain ⟨-, hu⟩ | ⟨-, rfl⟩ := setHarmonics_eq_ok.1 h
  · have hbuilt := sameShape_rebuildTables hu
    exact hbuilt
  · exact .refl s

theorem sameShape_setEnvelope {s t : State} {a d sus r : NumWord} (h : setEnvelope s a d sus r = .ok t) :
    SameShape s t := by
  obtain ⟨-, u, rfl, rfl⟩ := setEnvelope_eq_ok.1 h
  split <;> exact .refl s

theorem sameShape_noteOn {s t : State} {note : BitVec 7} {vel : NumWord} (h : noteOn s note vel = .ok t) :
    SameShape s t := by
  obtain ⟨-, -, ⟨-, rfl⟩ | ⟨v, -, hv⟩⟩ := noteOn_eq_ok.1 h
  · exact .refl t
  · exact sameShape_voiceNoteOn hv

theorem sameShape_noteOff {s t : State} {tail : Bool} {note : BitVec 7} {vel : NumWord}
    (h : noteOff s tail note vel = .ok t) : SameShape s t := by
  obtain ⟨-, ⟨-, rfl⟩ | ⟨v, x, -, hx, rfl⟩⟩ := noteOff_eq_ok.1 h
  · exact .refl t
  · exact sameShape_setVoice hx rfl

theorem sameShape_renderBlock {s t : State} {start count : BitVec 16} (h : renderBlock s start count = .ok t) :
    SameShape s t := by
  obtain ⟨-, -, -, b, ys, b', -, hrender, rfl⟩ := renderBlock_eq_ok.1 h
  exact ⟨rfl, renderVoices_subs_length hrender⟩

/-! ### Internal operations that answer or accumulate -/

theorem sameShape_execEnvNext {s t : State} {v : Nat} (h : execEnvNext v s = .next t) : SameShape s t := by
  simp only [execEnvNext, finish_eq_next, bind_eq_ok] at h
  obtain ⟨x, hx, ht⟩ := h
  cases ht
  exact sameShape_setVoice (getVoice_eq_ok.1 hx) rfl

theorem sameShape_execOscNextSample {s t : State} {v : Nat} {o : OscSel} {k : Kind}
    (h : execOscNextSample v o k s = .next t) : SameShape s t := by
  simp only [execOscNextSample, finish_eq_next, bind_eq_ok] at h
  obtain ⟨x, hx, ⟨y, o'⟩, -, ht⟩ := h
  cases ht
  exact sameShape_setVoice (getVoice_eq_ok.1 hx) (withOsc_subs_length x o o')

theorem sameShape_execVoiceRender {s t : State} {v : Nat} {start num : BitVec 16}
    (h : execVoiceRender v start num s = .next t) : SameShape s t := by
  simp only [execVoiceRender, finish_eq_next, bind_eq_ok] at h
  obtain ⟨x, hx, ⟨x', b⟩, hrender, ht⟩ := h
  cases ht
  exact sameShape_setVoice (getVoice_eq_ok.1 hx) (renderVoice_subs_length hrender)

theorem sameShape_execTblInterp {s t : State} {k : Kind} {phase : Word} (h : execTblInterp k phase s = .next t) :
    SameShape s t := by
  simp only [execTblInterp, finish_eq_next, bind_eq_ok] at h
  obtain ⟨y, -, ht⟩ := h
  cases ht
  exact .refl s

theorem sameShape_execMixAcc {s t : State} {a : Nat} {y : Word} (h : execMixAcc a y s = .next t) : SameShape s t := by
  simp only [execMixAcc, finish_eq_next, bind_eq_ok] at h
  obtain ⟨b, -, ht⟩ := h
  cases ht
  exact .refl s

/-! ### Every instruction, the slot's opening, every step -/

/-- Every instruction keeps the parameters and every voice's number of slots. -/
theorem exec_sameShape {i : Instr} {s t : State} (h : exec i s = .next t) : SameShape s t := by
  cases i with
  | prepare maxblk rate => exact sameShape_prepareBlock ((finish_eq_next _ _).1 h)
  | release => cases h; exact sameShape_releaseBlock s
  | setWave kind => cases h; exact .refl s
  | setHarm imm16 => exact sameShape_setHarmonics ((finish_eq_next _ _).1 h)
  | setSub imm16 => cases h; exact .refl s
  | setAdsr attack decay sustain rel => exact sameShape_setEnvelope ((finish_eq_next _ _).1 h)
  | noteOn note velocity => exact sameShape_noteOn ((finish_eq_next _ _).1 h)
  | noteOff t note velocity => exact sameShape_noteOff ((finish_eq_next _ _).1 h)
  | render start num => exact sameShape_renderBlock ((finish_eq_next _ _).1 h)
  | build kind harm f0 fs => exact sameShape_buildTable ((finish_eq_next _ _).1 h)
  | rebuildAll => exact sameShape_rebuildTables ((finish_eq_next _ _).1 h)
  | oscSetFreq v o freq fs => exact sameShape_onOsc ((finish_eq_next _ _).1 h)
  | oscSetRandomPhase v o =>
    have hdrawn : SameShape { s with rnd := (s.rnd.draw s.par.fmt s.par.tableSize).2 } t :=
      sameShape_onOsc ((finish_eq_next _ _).1 h)
    exact hdrawn
  | oscAdvance v o => exact sameShape_onOsc ((finish_eq_next _ _).1 h)
  | oscStop v o => exact sameShape_onOsc ((finish_eq_next _ _).1 h)
  | oscReset v o => exact sameShape_onOsc ((finish_eq_next _ _).1 h)
  | oscNextSample v o kind => exact sameShape_execOscNextSample h
  | tblInterp kind phase => exact sameShape_execTblInterp h
  | envRates => cases h; exact .refl s
  | envTrigger v => exact sameShape_onEnv ((finish_eq_next _ _).1 h)
  | envRelease v => exact sameShape_onEnv ((finish_eq_next _ _).1 h)
  | envNext v => exact sameShape_execEnvNext h
  | envReset v => exact sameShape_onEnv ((finish_eq_next _ _).1 h)
  | voiceNoteOn v note vel kind sc => exact sameShape_voiceNoteOn ((finish_eq_next _ _).1 h)
  | voiceNoteOff v vel t => exact sameShape_onEnv ((finish_eq_next _ _).1 h)
  | voiceRender v start num => exact sameShape_execVoiceRender h
  | voiceReset v => exact sameShape_onVoice (resetVoice_subs_length _) ((finish_eq_next _ _).1 h)
  | bufClear start num => exact sameShape_bufClear ((finish_eq_next _ _).1 h)
  | mixAcc a y => exact sameShape_execMixAcc h

/-- The reset input gives the legal shape, whatever the shape was (R40). -/
theorem shapeLegal_applyReset (s : State) : ShapeLegal (applyReset s) := by
  rw [shapeLegal_iff]
  simp [slotCounts, Voice.atReset]

/-- What the reset input and every instruction keep: the parameters, and a legal shape. -/
def KeepsShape (s t : State) : Prop := t.par = s.par ∧ (ShapeLegal s → ShapeLegal t)

theorem SameShape.keepsShape {s t : State} (h : SameShape s t) : KeepsShape s t := ⟨h.1, h.shapeLegal⟩

theorem KeepsShape.trans {s t u : State} (h : KeepsShape s t) (g : KeepsShape t u) : KeepsShape s u :=
  ⟨g.1.trans h.1, g.2 ∘ h.2⟩

theorem hostDoes_keepsShape (s : State) (e : HostEvent) : KeepsShape s (hostDoes s e) := by
  match e with
  | .word .rt w => exact (SameShape.refl s).keepsShape
  | .word .ctl w => exact (SameShape.refl s).keepsShape
  | .reset => exact ⟨rfl, fun _ => shapeLegal_applyReset s⟩

theorem openSlot_keepsShape (s : State) : KeepsShape s (openSlot s) :=
  openSlot_induct (P := KeepsShape s) (SameShape.refl s).keepsShape (fun _ _ _ hu => hu)
    (fun u e hu => hu.trans (hostDoes_keepsShape u e))

theorem step_keepsShape {s t : State} (h : step s = .next t) : KeepsShape s t :=
  step_keeps (P := KeepsShape s) (fun u hu => hu.trans (openSlot_keepsShape u)) (fun _ _ hu => hu)
    (fun _ _ hu => hu) (fun _ _ hu => hu) (fun _ _ _ hu hexec => hu.trans (exec_sameShape hexec).keepsShape)
    (SameShape.refl s).keepsShape h

/-- Settles O58: the slot's opening and every instruction keep the parameters and the shape, so every step does. -/
theorem stepKeepsParametersAndShape : Obligations.StepKeepsParametersAndShape :=
  fun _ _ h => step_keepsShape h

end Sys2Proof.Machine
end

/-! What stops by name (log entries 5 and 14): an internal operation on a voice or a frame that does not exist, and a
table read at a phase that is no finite number. -/

section
namespace Sys2Proof.Machine

/-- An update of a voice that does not exist stops by name. -/
theorem finish_onVoice_none {s : State} {v : Nat} {f : Voice → Voice} (h : s.voices[v]? = none) :
    finish (onVoice s v f) = .fault (.noSuchVoice v) := by
  rw [onVoice_none h, finish_error]

/-- What begins by reading a voice that does not exist stops by name. -/
theorem finish_getVoice_bind_none {s : State} {v : Nat} {f : Voice → Res State} (h : s.voices[v]? = none) :
    finish (getVoice s v >>= f) = .fault (.noSuchVoice v) := by
  rw [getVoice_none h, error_bind, finish_error]

theorem voiceNoteOn_none {s : State} {v : Nat} (h : s.voices[v]? = none) (note : BitVec 7) (vel : NumWord) (k : Kind)
    (sc : Int) : voiceNoteOn s v note vel k sc = .error (.noSuchVoice v) := by
  unfold voiceNoteOn
  rw [getVoice_none h]

theorem mixAcc_missing_frame {s : State} {a : Nat} (h : s.par.bufLen ≤ a) (b : Mem) (y : NumWord) :
    mixAcc s b a y = .error (.noSuchFrame a) :=
  if_neg (by omega)

/-- Clearing stops at its first frame when that one does not exist. -/
theorem clearFrames_missing_frame {p : Params} {count a : Nat} (hc : 0 < count) (h : p.bufLen ≤ a) (b : Mem) :
    clearFrames p count a b = .error (.noSuchFrame a) := by
  obtain ⟨n, rfl⟩ := Nat.exists_eq_succ_of_ne_zero hc.ne'
  exact if_neg (by omega)

theorem interpolate_not_finite {s : State} {phase : NumWord} (k : Kind) (h : s.par.fmt.isFinite phase = false) :
    interpolate s k phase = .error (.phaseRange k phase) := by
  unfold interpolate
  rw [h]
  rfl

/-- Settles O50: each operation begins with the read of its voice, frame or table word, and that read stops. -/
theorem missingVoiceFrameOrPhaseStops : Obligations.MissingVoiceFrameOrPhaseStops := by
  refine fun s => ⟨fun v hv i hi => ?_, fun a y ha => ?_, fun start num hnum hstart => ?_, fun k phase hphase => ?_⟩
  · obtain hi | ⟨o, hi⟩ | ⟨o, f, fs, rfl⟩ | ⟨o, k, rfl⟩ | ⟨note, vel, k, sc, rfl⟩ | ⟨vel, t, rfl⟩
      | ⟨start, num, rfl⟩ := hi
    · simp only [List.mem_cons, List.not_mem_nil, or_false] at hi
      obtain rfl | rfl | rfl | rfl | rfl := hi
      exacts [finish_onVoice_none hv, finish_onVoice_none hv, finish_getVoice_bind_none hv, finish_onVoice_none hv,
        finish_onVoice_none hv]
    · simp only [List.mem_cons, List.not_mem_nil, or_false] at hi
      obtain rfl | rfl | rfl | rfl := hi
      · exact finish_onVoice_none hv
      · exact finish_onVoice_none hv
      · exact finish_onVoice_none hv
      · exact finish_onVoice_none (s := { s with rnd := (s.rnd.draw s.par.fmt s.par.tableSize).2 }) hv
    · exact finish_onVoice_none hv
    · exact finish_getVoice_bind_none hv
    · exact congrArg finish (voiceNoteOn_none hv ..)
    · exact finish_onVoice_none hv
    · exact finish_getVoice_bind_none hv
  · simp only [exec, execMixAcc, mixAcc_missing_frame ha, error_bind, finish_error]
  · simp only [exec, execBufClear, bufClear, zext16_eq, clearFrames_missing_frame hnum hstart, finish_error]
  · simp only [exec, execTblInterp, interpolate_not_finite k hphase, error_bind, finish_error]

end Sys2Proof.Machine
end

/-! Signs and bounds of results under `NUM_F32` (00_scope.md R11), infinities among the operands: what the increments,
the phases, the shared rates and the levels of 10_state.md R38 rest on. -/

section
namespace Sys2Proof.Machine

/-! ### Order -/

/-- Numbers that are no NaN are ordered totally. -/
theorem F32.le_of_not_le {a b : Word} (ha : F32.isNaN a = false) (hb : F32.isNaN b = false)
    (h : F32.le b a = false) : F32.le a b = true := by
  simp only [F32.le, ha, hb, Bool.not_false, Bool.true_and, decide_eq_false_iff_not, decide_eq_true_eq] at h ⊢
  omega

theorem F32.le_of_not_lt {a b : Word} (ha : F32.isNaN a = false) (hb : F32.isNaN b = false)
    (h : F32.lt b a = false) : F32.le a b = true := by
  simp only [F32.lt, F32.le, ha, hb, Bool.not_false, Bool.true_and, decide_eq_false_iff_not, decide_eq_true_eq] at h ⊢
  omega

theorem F32.lt_of_not_le {a b : Word} (ha : F32.isNaN a = false) (hb : F32.isNaN b = false)
    (h : F32.le b a = false) : F32.lt a b = true := by
  simp only [F32.lt, F32.le, ha, hb, Bool.not_false, Bool.true_and, decide_eq_false_iff_not, decide_eq_true_eq] at h ⊢
  omega

theorem F32.le_trans {a b c : Word} (h : F32.le a b = true) (g : F32.le b c = true) : F32.le a c = true := by
  simp only [F32.le, Bool.and_eq_true, Bool.not_eq_true', decide_eq_true_eq] at h g ⊢
  exact ⟨⟨h.1.1, g.1.2⟩, h.2.trans g.2⟩

/-- A number is at least zero exactly when it is no NaN and has no sign, or is -0. -/
theorem F32.zero_le_iff {a : Word} :
    F32.le 0#32 a = true ↔ F32.isNaN a = false ∧ (a.msb = true → F32.mag a = 0) := by
  have hle : F32.le 0#32 a = (!F32.isNaN a && decide (0 ≤ F32.key a)) := rfl
  rw [hle, Bool.and_eq_true, Bool.not_eq_true', decide_eq_true_eq, F32.key]
  refine and_congr_right fun _ => ?_
  cases a.msb <;> simp

/-- A number is above zero exactly when it is no NaN, has no sign and is no zero. -/
theorem F32.zero_lt_iff {a : Word} :
    F32.lt 0#32 a = true ↔ F32.isNaN a = false ∧ a.msb = false ∧ F32.mag a ≠ 0 := by
  have hlt : F32.lt 0#32 a = (!F32.isNaN a && decide (0 < F32.key a)) := rfl
  rw [hlt, Bool.and_eq_true, Bool.not_eq_true', decide_eq_true_eq, F32.key]
  refine and_congr_right fun _ => ?_
  cases a.msb <;> simp [Nat.pos_iff_ne_zero]

/-- A number with a sign is at most every number that is at least zero. -/
theorem F32.le_of_msb {a b : Word} (ha : F32.isNaN a = false) (hs : a.msb = true) (hb : F32.le 0#32 b = true) :
    F32.le a b = true := by
  refine F32.le_trans (b := 0#32) ?_ hb
  have hkey : F32.key a ≤ F32.key 0#32 := by
    rw [F32.key, if_pos hs]
    exact neg_nonpos.2 (Int.natCast_nonneg _)
  have hnan : F32.isNaN 0#32 = false := rfl
  simp [F32.le, ha, hnan, hkey]

theorem F32.finite_of_le {a b : Word} (hb : F32.isFinite b = true) (h0 : F32.le 0#32 a = true)
    (h : F32.le a b = true) : F32.isFinite a = true := by
  simp only [F32.le, Bool.and_eq_true, decide_eq_true_eq] at h0 h
  have hlo : (0 : Int) ≤ F32.key a := h0.2
  have hhi := h.2
  rw [F32.finite_iff] at hb ⊢
  unfold F32.key at hlo hhi
  split_ifs at hlo hhi <;> omega

/-- A number that is no NaN is finite or an infinity. -/
theorem F32.finite_or_inf {a : Word} (h : F32.isNaN a = false) : F32.isFinite a = true ∨ F32.isInf a = true := by
  simp only [F32.isNaN, decide_eq_false_iff_not, not_lt] at h
  simp only [F32.isFinite, F32.isInf, decide_eq_true_eq, beq_iff_eq]
  exact h.lt_or_eq

theorem F32.isNaN_pack (neg : Bool) {m : Nat} (h : m ≤ F32.infMag) : F32.isNaN (F32.pack neg m) = false := by
  simp [F32.isNaN, F32.mag_pack neg h, h]

/-- A finite number between zero and a finite bound, in values. -/
theorem F32.value_bounds {a b : Word} (hb : F32.isFinite b = true) (h0 : F32.le 0#32 a = true)
    (h : F32.le a b = true) : F32.isFinite a = true ∧ 0 ≤ F32.value a ∧ F32.value a ≤ F32.value b := by
  have ha := F32.finite_of_le hb h0 h
  exact ⟨ha, (F32.le_iff (a := 0#32) rfl ha).1 h0, (F32.le_iff ha hb).1 h⟩

/-! ### Numbers without a sign -/

/-- No NaN and no sign: +0, a number above zero, or +infinity. -/
def F32.Unsigned (a : Word) : Prop := F32.isNaN a = false ∧ a.msb = false

theorem F32.unsigned_pack {m : Nat} (h : m ≤ F32.infMag) : F32.Unsigned (F32.pack false m) :=
  ⟨F32.isNaN_pack false h, F32.msb_pack false h⟩

theorem F32.Unsigned.zero_le {a : Word} (h : F32.Unsigned a) : F32.le 0#32 a = true :=
  F32.zero_le_iff.2 ⟨h.1, fun hs => absurd hs (by simp [h.2])⟩

theorem F32.unsigned_of_pos {a : Word} (h : F32.lt 0#32 a = true) : F32.Unsigned a := by
  obtain ⟨hnan, hs, -⟩ := F32.zero_lt_iff.1 h
  exact ⟨hnan, hs⟩

/-- A number above zero divided by one without a sign has no sign: at a divisor of 0 it is +infinity. -/
theorem F32.unsigned_div {a b : Word} (hf : F32.isFinite a = true) (ha : F32.lt 0#32 a = true) (hb : F32.Unsigned b) :
    F32.Unsigned (F32.div a b) := by
  obtain ⟨hnan, hs, h0⟩ := F32.zero_lt_iff.1 ha
  obtain ⟨hbnan, hbs⟩ := hb
  simp only [F32.div, hnan, hbnan, F32.not_inf_of_finite hf, hs, hbs, h0, Bool.or_self, Bool.false_eq_true, if_false,
    bne_self_eq_false]
  split_ifs
  · exact F32.unsigned_pack (Nat.zero_le _)
  · exact F32.unsigned_pack le_rfl
  · exact F32.unsigned_pack (F32.roundUnits_le _ _)

/-- A number above zero times one without a sign has no sign, unless 0 meets the infinity. -/
theorem F32.unsigned_mul {a b : Word} (hf : F32.isFinite a = true) (ha : F32.lt 0#32 a = true) (hb : F32.Unsigned b) :
    F32.Unsigned (F32.mul a b) := by
  obtain ⟨hnan, hs, h0⟩ := F32.zero_lt_iff.1 ha
  obtain ⟨hbnan, hbs⟩ := hb
  simp only [F32.mul, hnan, hbnan, F32.not_inf_of_finite hf, hs, hbs, h0, Bool.or_self, Bool.false_eq_true, if_false,
    Bool.false_or, decide_false, bne_self_eq_false]
  split_ifs with hinf hz
  · have hmag : F32.mag b = F32.infMag := by simpa [F32.isInf] using hinf
    simp [hmag, F32.infMag] at hz
  · exact F32.unsigned_pack le_rfl
  · exact F32.unsigned_pack (F32.roundUnits_le _ _)

/-! ### Sums and differences -/

/-- A sum between zero and a number of the format stays there. -/
theorem F32.add_bounds {a b w : Word} (ha : F32.isFinite a = true) (hb : F32.isFinite b = true)
    (hw : F32.isFinite w = true) (h0 : 0 ≤ F32.value a + F32.value b) (h : F32.value a + F32.value b ≤ F32.value w) :
    F32.isFinite (F32.add a b) = true ∧ 0 ≤ F32.value (F32.add a b) ∧ F32.value (F32.add a b) ≤ F32.value w := by
  rw [F32.add_of_finite ha hb]
  split_ifs with hz
  · obtain ⟨hf, hv, -⟩ := F32.pack_zero (a.msb && b.msb)
    exact ⟨hf, hv.ge, by omega⟩
  · exact F32.ofValue_bounds hw h0 h

/-- A difference between zero and a number of the format stays there. -/
theorem F32.sub_bounds {a b w : Word} (ha : F32.isFinite a = true) (hb : F32.isFinite b = true)
    (hw : F32.isFinite w = true) (h0 : 0 ≤ F32.value a - F32.value b) (h : F32.value a - F32.value b ≤ F32.value w) :
    F32.isFinite (F32.sub a b) = true ∧ 0 ≤ F32.value (F32.sub a b) ∧ F32.value (F32.sub a b) ≤ F32.value w := by
  rw [F32.sub_of_finite ha hb]
  split_ifs with hz
  · obtain ⟨hf, hv, -⟩ := F32.pack_zero (a.msb && !b.msb)
    exact ⟨hf, hv.ge, by omega⟩
  · exact F32.ofValue_bounds hw h0 h

/-- A sum of numbers at least zero is at least zero, +infinity among the second ones. -/
theorem F32.zero_le_add {a b : Word} (hf : F32.isFinite a = true) (ha : F32.le 0#32 a = true)
    (hb : F32.le 0#32 b = true) : F32.le 0#32 (F32.add a b) = true := by
  have hbnan := (F32.zero_le_iff.1 hb).1
  rcases F32.finite_or_inf hbnan with hbf | hinf
  · have hva := (F32.le_iff (a := 0#32) rfl hf).1 ha
    have hvb := (F32.le_iff (a := 0#32) rfl hbf).1 hb
    have hz : F32.value 0#32 = 0 := rfl
    rw [F32.add_of_finite hf hbf]
    split_ifs
    · obtain ⟨hpf, hpv, -⟩ := F32.pack_zero (a.msb && b.msb)
      exact (F32.le_iff rfl hpf).2 (by omega)
    · rw [F32.ofValue, decide_eq_false (by omega)]
      exact (F32.unsigned_pack (F32.roundUnits_le _ _)).zero_le
  · have hsum : F32.add a b = b := by
      simp [F32.add, F32.not_nan_of_finite hf, hbnan, F32.not_inf_of_finite hf, hinf]
    rw [hsum]
    exact hb

/-- A difference that is not at most a bound that is at least zero lies between that bound and the minuend. -/
theorem F32.sub_between {a b lo : Word} (hf : F32.isFinite a = true) (hb : F32.le 0#32 b = true)
    (hlo : F32.le 0#32 lo = true) (h : F32.le (F32.sub a b) lo = false) :
    F32.le lo (F32.sub a b) = true ∧ F32.le (F32.sub a b) a = true := by
  obtain ⟨hbnan, hbs⟩ := F32.zero_le_iff.1 hb
  have hlonan := (F32.zero_le_iff.1 hlo).1
  rcases F32.finite_or_inf hbnan with hbf | hinf
  · have hvb := (F32.le_iff (a := 0#32) rfl hbf).1 hb
    have hz : F32.value 0#32 = 0 := rfl
    rcases lt_or_ge (F32.value a - F32.value b) 0 with hneg | hpos
    · have hsub : F32.sub a b = F32.pack true (F32.roundUnits (F32.value a - F32.value b).natAbs 1) := by
        rw [F32.sub_of_finite hf hbf, if_neg hneg.ne, F32.ofValue, decide_eq_true hneg]
      have hr := F32.roundUnits_le (F32.value a - F32.value b).natAbs 1
      rw [hsub, F32.le_of_msb (F32.isNaN_pack true hr) (F32.msb_pack true hr) hlo] at h
      exact absurd h (by simp)
    · obtain ⟨hsf, -, hle⟩ := F32.sub_bounds hf hbf hf hpos (by omega)
      exact ⟨F32.le_of_not_le hlonan (F32.not_nan_of_finite hsf) h, (F32.le_iff hsf hf).2 hle⟩
  · have hmag : F32.mag b = F32.infMag := by simpa [F32.isInf] using hinf
    have hsub : F32.sub a b = F32.pack true F32.infMag := by
      have hneg : F32.neg b = F32.pack true F32.infMag := by
        have hbp : b = F32.pack false F32.infMag := by
          have hsf : b.msb = false := by
            cases hm : b.msb
            · rfl
            · exact absurd (hbs hm) (by simp [hmag, F32.infMag])
          rw [← F32.pack_self b, hmag, hsf]
        rw [hbp]
        rfl
      simp [F32.sub, F32.not_nan_of_finite hf, hbnan, F32.not_inf_of_finite hf, hinf, hneg]
    rw [hsub, F32.le_of_msb (F32.isNaN_pack true le_rfl) (F32.msb_pack true le_rfl) hlo] at h
    exact absurd h (by simp)

end Sys2Proof.Machine
end

/-! Reset (10_state.md R40; 70_reset_and_hazards.md R331, R332): what the block holds after it, and what the host sees
while `core_busy` is 0 (R35). -/

section
namespace Sys2Proof.Machine

/-- The block as R40 leaves it, in whatever configuration: the state after power-up, and after the reset input. -/
structure AtReset (s : State) : Prop where
  cfg : s.cfg = Ctrl.atReset s.par.fmt
  prepared : s.prepared = false
  voices : s.voices = List.replicate s.par.poolSize (Voice.atReset s.par.fmt)
  tbl : s.tbl = PerKind.all []
  buf : s.buf = []
  rt : s.rt = []
  ctl : s.ctl = []
  uops : s.uops = []

theorem atReset_reset : AtReset State.reset := ⟨rfl, rfl, rfl, rfl, rfl, rfl, rfl, rfl⟩

theorem atReset_applyReset (s : State) : AtReset (applyReset s) := ⟨rfl, rfl, rfl, rfl, rfl, rfl, rfl, rfl⟩

/-- Every voice after reset is the same one. -/
theorem AtReset.eq_of_mem_voices {s : State} (h : AtReset s) {x : Voice} (hx : x ∈ s.voices) :
    x = Voice.atReset s.par.fmt := by
  rw [h.voices] at hx
  exact List.eq_of_mem_replicate hx

theorem voiceAtRest_atReset (F : NumFmt NumWord) : VoiceAtRest F (Voice.atReset F) := by
  refine ⟨rfl, rfl, rfl, fun sl hsl => ?_⟩
  rw [List.eq_of_mem_replicate hsl]
  rfl

theorem AtReset.voiceAtRest {s : State} (h : AtReset s) {x : Voice} (hx : x ∈ s.voices) :
    VoiceAtRest s.par.fmt x := by
  rw [h.eq_of_mem_voices hx]
  exact voiceAtRest_atReset s.par.fmt

/-! ### The status outputs -/

/-- `core_busy` is 0 exactly when nothing waits (R35). -/
theorem coreBusy_eq_false_iff (s : State) : coreBusy s = false ↔ s.rt = [] ∧ s.ctl = [] ∧ s.uops = [] := by
  simp [coreBusy, and_assoc]

theorem preparedOut_quiet {s : State} (h : coreBusy s = false) : preparedOut s = s.prepared := by
  simp [preparedOut, h]

theorem voiceBusyOut_quiet {s : State} (h : coreBusy s = false) (v : Nat) : voiceBusyOut s v = busyBit s v := by
  simp [voiceBusyOut, h]

theorem busyBit_of_getElem? {s : State} {v : Nat} {x : Voice} (h : s.voices[v]? = some x) : busyBit s v = x.busy := by
  simp [busyBit, h]

theorem busyBit_eq_false {s : State} (h : ∀ x ∈ s.voices, x.busy = false) (v : Nat) : busyBit s v = false := by
  cases hv : s.voices[v]? with
  | none => simp [busyBit, hv]
  | some x => rw [busyBit_of_getElem? hv, h x (List.mem_of_getElem? hv)]

/-- A host read of a word that exists, while `core_busy` is 0 (R66). -/
theorem hostRead_quiet {s : State} (h : coreBusy s = false) {c a : Nat} (hc : c < s.par.channels)
    (ha : a < s.par.bufLen) : hostRead s c a = bufRead s s.buf c a := by
  simp [hostRead, h, hc, ha]

theorem AtReset.coreBusy {s : State} (h : AtReset s) : coreBusy s = false :=
  (coreBusy_eq_false_iff s).2 ⟨h.rt, h.ctl, h.uops⟩

theorem AtReset.voiceBusyOut {s : State} (h : AtReset s) (v : Nat) : voiceBusyOut s v = false := by
  rw [voiceBusyOut_quiet h.coreBusy, busyBit_eq_false fun x hx => (h.voiceAtRest hx).1]

/-- Settles O9: power-up and the reset input both leave the block `AtReset`, and the outputs are read off from there. -/
theorem resetLeavesTheDefaults : Obligations.ResetLeavesTheDefaults := by
  refine ⟨fun s t ht => ?_, rfl, fun _ => rfl, fun s => ⟨coreBusy_eq_false_iff s, fun hq => ?_⟩⟩
  · have hr : AtReset t := by
      obtain rfl | rfl := ht
      · exact atReset_reset
      · exact atReset_applyReset s
    rw [hr.cfg]
    refine ⟨rfl, rfl, rfl, rfl, rfl, rfl, rfl, hr.prepared, ?_, fun x hx => hr.voiceAtRest hx, hr.rt, hr.ctl, hr.uops,
      hr.coreBusy, ?_, hr.voiceBusyOut⟩
    · rw [hr.voices, List.length_replicate]
    · rw [preparedOut_quiet hr.coreBusy, hr.prepared]
  · exact ⟨preparedOut_quiet hq, fun v x hv => (voiceBusyOut_quiet hq v).trans (busyBit_of_getElem? hv),
      fun c a hc ha => hostRead_quiet hq hc ha⟩

end Sys2Proof.Machine
end

/-! What an invariant of the block has to meet for every step to keep it (20_memory.md R71, R72), and the invariants of
the tables and of the control registers (10_state.md R30, R33, R37 (d), R38 (c)). -/

section
namespace Sys2Proof.Machine

/-! ### The opening of a slot -/

/-- What does not look at the ports and the host's future, and holds after the reset input, the opening of a slot
keeps. -/
theorem openSlot_keeps {P : State → Prop}
    (hports : ∀ (s : State) (r c : List Word) (k : Nat) (g : List (List HostEvent)), P s →
      P { s with rt := r, ctl := c, slots := k, arrivals := g })
    (hreset : ∀ s, P s → P (applyReset s)) {s : State} (hs : P s) : P (openSlot s) := by
  refine openSlot_induct hs (fun u k g hu => hports u u.rt u.ctl k g hu) fun u e hu => ?_
  match e with
  | .word .rt w => exact hports u (u.rt ++ [w]) u.ctl u.slots u.arrivals hu
  | .word .ctl w => exact hports u u.rt (u.ctl ++ [w]) u.slots u.arrivals hu
  | .reset => exact hreset u hu

/-- An invariant every instruction keeps in a legal configuration, every step keeps. -/
theorem step_keeps_of_exec {P : State → Prop}
    (hports : ∀ (s : State) (r c : List Word) (k : Nat) (g : List (List HostEvent)), P s →
      P { s with rt := r, ctl := c, slots := k, arrivals := g })
    (huops : ∀ (s : State) (l : List UopRequest), P s → P { s with uops := l })
    (hreset : ∀ s, P s → P (applyReset s))
    (hexec : ∀ (i : Instr) (s t : State), paramsLegal s.par = true → P s → exec i s = .next t → P t)
    {s t : State} (hs : P s) (h : step s = .next t) : P t := by
  obtain ⟨hlegal, hcases⟩ := step_cases h
  have hpar : paramsLegal (openSlot s).par = true := by rw [(openSlot_keepsShape s).1, hlegal]
  have ho : P (openSlot s) := openSlot_keeps hports hreset hs
  obtain rfl | ⟨i, r, rest, -, -, hi⟩ | ⟨i, rest, -, -, -, hi⟩ | ⟨i, rest, -, -, -, hi⟩ := hcases
  · exact ho
  · exact hexec i { openSlot s with uops := rest } t hpar (huops _ rest ho) hi
  · exact hexec i { openSlot s with rt := rest } t hpar (hports (openSlot s) rest _ _ _ ho) hi
  · exact hexec i { openSlot s with ctl := rest } t hpar (hports (openSlot s) _ rest _ _ ho) hi

/-- An invariant under which no request waits, and which every host command keeps in a legal configuration, every step
keeps: the instruction that runs comes from a port. -/
theorem step_keeps_of_command {P : State → Prop} (hquiet : ∀ s, P s → s.uops = [])
    (hports : ∀ (s : State) (r c : List Word) (k : Nat) (g : List (List HostEvent)), P s →
      P { s with rt := r, ctl := c, slots := k, arrivals := g })
    (hreset : ∀ s, P s → P (applyReset s))
    (hexec : ∀ (i : Instr) (s t : State), i.isInternal = false → paramsLegal s.par = true → P s →
      exec i s = .next t → P t)
    {s t : State} (hs : P s) (h : step s = .next t) : P t := by
  obtain ⟨hlegal, hcases⟩ := step_cases h
  have hpar : paramsLegal (openSlot s).par = true := by rw [(openSlot_keepsShape s).1, hlegal]
  have ho : P (openSlot s) := openSlot_keeps hports hreset hs
  obtain rfl | ⟨i, r, rest, hu, -, -⟩ | ⟨i, rest, -, -, hhost, hi⟩ | ⟨i, rest, -, -, hhost, hi⟩ := hcases
  · exact ho
  · rw [hquiet _ ho] at hu
    exact absurd hu (by simp)
  · exact hexec i { openSlot s with rt := rest } t hhost hpar (hports (openSlot s) rest _ _ _ ho) hi
  · exact hexec i { openSlot s with ctl := rest } t hhost hpar (hports (openSlot s) _ rest _ _ ho) hi

theorem tableSize_pos_of_legal {p : Params} (h : paramsLegal p = true) : 0 < p.tableSize := by
  simp only [paramsLegal, Bool.and_eq_true, decide_eq_true_eq] at h
  omega

/-! ### What internal operations leave alone -/

/-- Two states agree on the configuration, the control registers, PREPARED and what the tables read as. -/
structure SameControlAndTables (s t : State) : Prop where
  par : t.par = s.par
  cfg : t.cfg = s.cfg
  prepared : t.prepared = s.prepared
  era : t.era = s.era
  tbl : t.tbl = s.tbl

theorem sameControlAndTables_onVoice {s t : State} {v : Nat} {f : Voice → Voice} (h : onVoice s v f = .ok t) :
    SameControlAndTables s t := by
  obtain ⟨x, -, rfl⟩ := onVoice_eq_ok.1 h
  exact ⟨rfl, rfl, rfl, rfl, rfl⟩

theorem sameControlAndTables_voiceNoteOn {s t : State} {v : Nat} {note : BitVec 7} {vel : NumWord} {k : Kind} {sc : Int}
    (h : voiceNoteOn s v note vel k sc = .ok t) : SameControlAndTables s t := by
  obtain ⟨x, -, rfl⟩ := voiceNoteOn_eq_ok.1 h
  exact ⟨rfl, rfl, rfl, rfl, rfl⟩

theorem sameControlAndTables_bufClear {s t : State} {start count : Nat} (h : bufClear s start count = .ok t) :
    SameControlAndTables s t := by
  unfold bufClear at h
  split at h
  · cases h; exact ⟨rfl, rfl, rfl, rfl, rfl⟩
  · cases h

/-- An operation in two parts, of which the first only reads and the second changes neither the control registers nor
the tables. -/
theorem sameControlAndTables_bind {α : Type} {s t : State} {m : Res α} {f : α → Res State}
    (hf : ∀ x u, f x = .ok u → SameControlAndTables s u) (h : finish (m >>= f) = .next t) :
    SameControlAndTables s t := by
  obtain ⟨x, -, hx⟩ := (bind_eq_ok _ _ _).1 ((finish_eq_next _ _).1 h)
  exact hf x t hx

/-- What an internal operation does to the tables, and that it leaves the control registers alone: `build` writes one
table, `rebuild_all` all four, and no other touches one (20_memory.md R62). -/
theorem exec_internal_cases {i : Instr} {s t : State} (hi : i.isInternal = true) (h : exec i s = .next t) :
    (∃ k harm f0 fs, buildTable s k harm f0 fs = .ok t) ∨ rebuildTables s = .ok t ∨ SameControlAndTables s t := by
  cases i with
  | prepare | release | setWave | setHarm | setSub | setAdsr | noteOn | noteOff | render => cases hi
  | build kind harm f0 fs => exact .inl ⟨kind, harm, _, _, (finish_eq_next _ _).1 h⟩
  | rebuildAll => exact .inr (.inl ((finish_eq_next _ _).1 h))
  | oscSetFreq | oscAdvance | oscStop | oscReset | envTrigger | envRelease | envReset | voiceNoteOff | voiceReset =>
    exact .inr (.inr (sameControlAndTables_onVoice ((finish_eq_next _ _).1 h)))
  | oscSetRandomPhase v o =>
    obtain ⟨par, cfg, prepared, era, tbl⟩ := sameControlAndTables_onVoice ((finish_eq_next _ _).1 h)
    exact .inr (.inr ⟨par, cfg, prepared, era, tbl⟩)
  | oscNextSample v o kind =>
    refine .inr (.inr (sameControlAndTables_bind (fun x u hu => ?_) h))
    obtain ⟨⟨y, o'⟩, -, ht⟩ := (bind_eq_ok _ _ _).1 hu
    cases ht
    exact ⟨rfl, rfl, rfl, rfl, rfl⟩
  | tblInterp kind phase =>
    refine .inr (.inr (sameControlAndTables_bind (fun x u hu => ?_) h))
    cases hu
    exact ⟨rfl, rfl, rfl, rfl, rfl⟩
  | envRates => cases h; exact .inr (.inr ⟨rfl, rfl, rfl, rfl, rfl⟩)
  | envNext v =>
    refine .inr (.inr (sameControlAndTables_bind (fun x u hu => ?_) h))
    cases hu
    exact ⟨rfl, rfl, rfl, rfl, rfl⟩
  | voiceNoteOn v note vel kind sc =>
    exact .inr (.inr (sameControlAndTables_voiceNoteOn ((finish_eq_next _ _).1 h)))
  | voiceRender v start num =>
    refine .inr (.inr (sameControlAndTables_bind (fun x u hu => ?_) h))
    obtain ⟨⟨x', b⟩, -, ht⟩ := (bind_eq_ok _ _ _).1 hu
    cases ht
    exact ⟨rfl, rfl, rfl, rfl, rfl⟩
  | bufClear start num => exact .inr (.inr (sameControlAndTables_bufClear ((finish_eq_next _ _).1 h)))
  | mixAcc a y =>
    refine .inr (.inr (sameControlAndTables_bind (fun x u hu => ?_) h))
    cases hu
    exact ⟨rfl, rfl, rfl, rfl, rfl⟩

/-! ### Whole tables -/

/-- The table of one kind is whole and its guard equals index 0 (R33). -/
def TableWhole (s : State) (k : Kind) : Prop :=
  (s.tbl.get k).map Prod.fst = List.range (s.par.tableSize + 1) ∧ tblRead s k s.par.tableSize = tblRead s k 0

/-- Whether a table is whole depends on its words, the parameters and the era alone. -/
theorem TableWhole.congr {s t : State} {k : Kind} (hpar : t.par = s.par) (hera : t.era = s.era)
    (htbl : t.tbl.get k = s.tbl.get k) (h : TableWhole s k) : TableWhole t k := by
  unfold TableWhole tblRead at *
  rwa [hpar, hera, htbl]

/-- What a build writes is a whole table (R131, R138). -/
theorem tableWhole_of_built {s : State} {k : Kind} {harm : Nat} {f0 fs : NumWord} {words : List NumWord}
    (hn : 0 < s.par.tableSize) (hbuilt : buildWords s.par.fmt s.par.tableSize k harm f0 fs = .ok words)
    (htbl : s.tbl.get k = Mem.fromWords 0 words) : TableWhole s k := by
  have hlen := buildWords_length hbuilt
  refine ⟨by rw [htbl, Mem.map_fst_fromWords, hlen, List.range_eq_range'], ?_⟩
  have hlast : words[s.par.tableSize]? = some words[s.par.tableSize] := List.getElem?_eq_getElem (by omega)
  have hfirst := (buildWords_guard hn hbuilt).symm.trans hlast
  rw [tblRead_of_fromWords htbl hlast, tblRead_of_fromWords htbl hfirst]

theorem tableWhole_buildTable {s t : State} {k k' : Kind} {harm : BitVec 5} {f0 fs : NumWord}
    (hn : 0 < s.par.tableSize) (h : buildTable s k harm f0 fs = .ok t) (hs : k' ≠ k → TableWhole s k') :
    TableWhole t k' := by
  obtain ⟨words, hbuilt, rfl⟩ := buildTable_eq_ok.1 h
  by_cases hk : k' = k
  · subst hk
    exact tableWhole_of_built hn hbuilt (PerKind.get_set_same ..)
  · exact TableWhole.congr (s := s) rfl rfl (PerKind.get_set_other _ _ hk) (hs hk)

theorem tableWhole_rebuildTables {s t : State} (h : rebuildTables s = .ok t) (hn : 0 < s.par.tableSize) (k : Kind) :
    TableWhole t k := by
  obtain ⟨words, hbuilt, rfl⟩ := rebuildTables_eq_ok.1 h
  exact tableWhole_of_built hn (hbuilt k) (by cases k <;> rfl)

theorem AtReset.tablesClosed {s : State} (h : AtReset s) : TablesClosed s :=
  fun hp => absurd hp (by simp [h.prepared])

theorem TablesClosed.congr {s t : State} (hpar : t.par = s.par) (hera : t.era = s.era)
    (hprep : t.prepared = s.prepared) (htbl : t.tbl = s.tbl) (h : TablesClosed s) : TablesClosed t :=
  fun hp k => TableWhole.congr hpar hera (by rw [htbl]) (h (hprep ▸ hp) k)

theorem releaseBlock_prepared (s : State) : (releaseBlock s).prepared = false := by
  unfold releaseBlock
  split
  · rfl
  · next h => simpa using h

/-- Every instruction keeps the tables closed: PREPARE, SET_HARM and `rebuild_all` write all four whole, `build` one, and
after RELEASE the block is not prepared. -/
theorem tablesClosed_exec {i : Instr} {s t : State} (hn : 0 < s.par.tableSize) (hs : TablesClosed s)
    (h : exec i s = .next t) : TablesClosed t := by
  cases hi : i.isInternal with
  | true =>
    obtain ⟨k, harm, f0, fs, hb⟩ | hb | ⟨par, -, prepared, era, tbl⟩ := exec_internal_cases hi h
    · intro hp k'
      have hprep : s.prepared = true := by
        obtain ⟨words, -, rfl⟩ := buildTable_eq_ok.1 hb
        exact hp
      exact tableWhole_buildTable hn hb fun _ => hs hprep k'
    · exact fun _ k => tableWhole_rebuildTables hb hn k
    · exact hs.congr par era prepared tbl
  | false =>
    cases i with
    | prepare maxblk rate =>
      obtain ⟨-, -, -, -, u, hu, rfl⟩ := prepareBlock_eq_ok.1 ((finish_eq_next _ _).1 h)
      exact fun _ k => (tableWhole_rebuildTables hu hn k).congr rfl rfl rfl
    | release =>
      cases h
      exact fun hp => absurd hp (by simp [releaseBlock_prepared])
    | setWave | setSub => cases h; exact hs
    | setHarm imm16 =>
      obtain ⟨-, hu⟩ | ⟨-, rfl⟩ := setHarmonics_eq_ok.1 ((finish_eq_next _ _).1 h)
      · exact fun _ k => tableWhole_rebuildTables hu hn k
      · exact hs
    | setAdsr attack decay sustain rel =>
      obtain ⟨-, u, rfl, rfl⟩ := setEnvelope_eq_ok.1 ((finish_eq_next _ _).1 h)
      split <;> exact hs
    | noteOn note velocity =>
      obtain ⟨-, -, ⟨-, rfl⟩ | ⟨v, -, hv⟩⟩ := noteOn_eq_ok.1 ((finish_eq_next _ _).1 h)
      · exact hs
      · obtain ⟨x, -, rfl⟩ := voiceNoteOn_eq_ok.1 hv
        exact hs
    | noteOff tail note velocity =>
      obtain ⟨-, ⟨-, rfl⟩ | ⟨v, x, -, -, rfl⟩⟩ := noteOff_eq_ok.1 ((finish_eq_next _ _).1 h) <;> exact hs
    | render start num =>
      obtain ⟨-, -, -, b, ys, b', -, -, rfl⟩ := renderBlock_eq_ok.1 ((finish_eq_next _ _).1 h)
      exact hs
    | _ => cases hi

/-- Settles O53: reset leaves the block not prepared, and what writes a table writes it whole. -/
theorem stepKeepsTablesClosed : Obligations.StepKeepsTablesClosed := fun _ _ hs h =>
  step_keeps_of_exec (P := TablesClosed) (fun _ _ _ _ _ hu => hu) (fun _ _ hu => hu)
    (fun u _ => (atReset_applyReset u).tablesClosed)
    (fun _ _ _ hlegal hu hi => tablesClosed_exec (tableSize_pos_of_legal hlegal) hu hi) hs h

end Sys2Proof.Machine
end

/-! The control registers (10_state.md R30, R37 (d); 46_engine_commands.md R279, R281 (d)): every value a command writes
is clamped or checked. -/

section
namespace Sys2Proof.Machine

/-! ### The clamps -/

theorem clampInt_bounds {lo hi : Int} (h : lo ≤ hi) (x : Int) : lo ≤ clampInt x lo hi ∧ clampInt x lo hi ≤ hi := by
  unfold clampInt
  split_ifs <;> omega

/-- SET_HARM's count lies in 1 to 16 (R273). -/
theorem clampHarm_bounds (n : BitVec 16) : 1 ≤ (clampHarm n).toNat ∧ (clampHarm n).toNat ≤ 16 := by
  obtain ⟨hlo, hhi⟩ := clampInt_bounds (lo := 1) (hi := 16) (by omega) (sext16 n)
  rw [clampHarm, BitVec.toNat_ofInt]
  omega

/-- SET_SUB's count is at most 8 (R274). -/
theorem clampSub_le (n : BitVec 16) : (clampSub n).toNat ≤ 8 := by
  obtain ⟨hlo, hhi⟩ := clampInt_bounds (lo := 0) (hi := 8) (by omega) (sext16 n)
  rw [clampSub, BitVec.toNat_ofInt]
  omega

/-- The clamp of a finite number lies between its bounds (R10). -/
theorem between_clampNum {x lo hi : NumWord} (hx : F32.isFinite x.bits = true)
    (h : F32.le lo.bits hi.bits = true) : Between lo (clampNum numF32 x lo hi) hi := by
  have hxn := F32.not_nan_of_finite hx
  obtain ⟨hlon, hhin⟩ := F32.not_nan_of_le h
  have hlolo : F32.le lo.bits lo.bits = true := by simp [F32.le, hlon]
  have hhihi : F32.le hi.bits hi.bits = true := by simp [F32.le, hhin]
  unfold clampNum Between
  rw [numF32_lt, numF32_gt]
  split_ifs with h1 h2
  · exact ⟨hlolo, h⟩
  · exact ⟨h, hhihi⟩
  · exact ⟨F32.le_of_not_lt hlon hxn (by simpa using h1), F32.le_of_not_lt hxn hhin (by simpa using h2)⟩

/-- Attack and decay after SET_ADSR lie in 0.001 to 2.0 (R275). -/
theorem between_clampTime {x : NumWord} (hx : F32.isFinite x.bits = true) :
    Between (.f32 0x3A83126F#32) (clampTime numF32 x) (.f32 0x40000000#32) := by
  have hlo : numF32.lit 1 3 = .f32 0x3A83126F#32 := by decide
  have hhi : numF32.lit 2 0 = .f32 0x40000000#32 := by decide
  rw [clampTime, hlo, hhi]
  exact between_clampNum hx (by decide)

/-- Release after SET_ADSR lies in 0.001 to 5.0 (R275). -/
theorem between_clampRelease {x : NumWord} (hx : F32.isFinite x.bits = true) :
    Between (.f32 0x3A83126F#32) (clampRelease numF32 x) (.f32 0x40A00000#32) := by
  have hlo : numF32.lit 1 3 = .f32 0x3A83126F#32 := by decide
  have hhi : numF32.lit 5 0 = .f32 0x40A00000#32 := by decide
  rw [clampRelease, hlo, hhi]
  exact between_clampNum hx (by decide)

/-- Sustain after SET_ADSR lies in 0.0 to 1.0 (R275). -/
theorem between_clampUnit {x : NumWord} (hx : F32.isFinite x.bits = true) :
    Between (.f32 0x00000000#32) (clampUnit numF32 x) (.f32 0x3F800000#32) := by
  have hlo : numF32.lit 0 0 = .f32 0x00000000#32 := by decide
  have hhi : numF32.lit 1 0 = .f32 0x3F800000#32 := by decide
  rw [clampUnit, hlo, hhi]
  exact between_clampNum hx (by decide)

/-! ### The invariant -/

/-- The values `ControlLegal` allows the registers SET_HARM, SET_SUB and SET_ADSR write (R30). -/
structure SettingsLegal (c : Ctrl) : Prop where
  harm_pos : 1 ≤ c.harm.toNat
  harm_le : c.harm.toNat ≤ 16
  sub_le : c.sub.toNat ≤ 8
  attack : Between (.f32 0x3A83126F#32) c.a (.f32 0x40000000#32)
  decay : Between (.f32 0x3A83126F#32) c.d (.f32 0x40000000#32)
  sustain : Between (.f32 0x00000000#32) c.s (.f32 0x3F800000#32)
  release : Between (.f32 0x3A83126F#32) c.r (.f32 0x40A00000#32)

/-- The sample rate of a prepared block is finite and positive (R30, R270). -/
def RateLegal (fs : NumWord) : Prop := F32.isFinite fs.bits = true ∧ F32.lt 0#32 fs.bits = true

/-- The block size of a prepared block (R30, R270). -/
def BlockSizeLegal (s : State) : Prop := 1 ≤ s.cfg.maxblk.toNat ∧ s.cfg.maxblk.toNat ≤ s.par.bufLen

theorem controlLegal_iff (s : State) :
    ControlLegal s ↔ s.par.num = .f32 ∧ SettingsLegal s.cfg ∧
      (s.prepared = true → RateLegal s.cfg.fs ∧ BlockSizeLegal s) := by
  constructor
  · rintro ⟨hnum, harm_pos, harm_le, sub_le, attack, decay, sustain, release, hprep⟩
    refine ⟨hnum, ⟨harm_pos, harm_le, sub_le, attack, decay, sustain, release⟩, fun hp => ?_⟩
    obtain ⟨hfin, hpos, hblock⟩ := hprep hp
    exact ⟨⟨hfin, hpos⟩, hblock⟩
  · rintro ⟨hnum, ⟨harm_pos, harm_le, sub_le, attack, decay, sustain, release⟩, hprep⟩
    refine ⟨hnum, harm_pos, harm_le, sub_le, attack, decay, sustain, release, fun hp => ?_⟩
    obtain ⟨⟨hfin, hpos⟩, hblock⟩ := hprep hp
    exact ⟨hfin, hpos, hblock⟩

/-- The registers the invariant looks at decide it. -/
theorem ControlLegal.congr {s t : State} (hpar : t.par = s.par) (hcfg : t.cfg = s.cfg) (hprep : t.prepared = s.prepared)
    (h : ControlLegal s) : ControlLegal t := by
  unfold ControlLegal at *
  rwa [hpar, hcfg, hprep]

/-- The defaults of R40 are legal settings. -/
theorem settingsLegal_atReset : SettingsLegal (Ctrl.atReset numF32) where
  harm_pos := by decide
  harm_le := by decide
  sub_le := by decide
  attack := by unfold Between; decide
  decay := by unfold Between; decide
  sustain := by unfold Between; decide
  release := by unfold Between; decide

theorem AtReset.controlLegal {s : State} (h : AtReset s) (hn : s.par.num = .f32) : ControlLegal s := by
  refine (controlLegal_iff s).2 ⟨hn, ?_, fun hp => absurd hp (by simp [h.prepared])⟩
  rw [h.cfg, fmt_f32 hn]
  exact settingsLegal_atReset

theorem rebuildTables_control {s t : State} (h : rebuildTables s = .ok t) :
    t.par = s.par ∧ t.cfg = s.cfg ∧ t.prepared = s.prepared := by
  obtain ⟨words, -, rfl⟩ := rebuildTables_eq_ok.1 h
  exact ⟨rfl, rfl, rfl⟩

/-- PREPARE keeps the settings, and sets the rate and the block size it has checked (R270). -/
theorem prepareBlock_control {s t : State} {mb : BitVec 16} {fs : NumWord} (h : prepareBlock s mb fs = .ok t) :
    t.par = s.par ∧ t.cfg = { s.cfg with fs := fs, maxblk := mb } ∧ s.par.fmt.isFinite fs = true ∧
      s.par.fmt.gt fs (s.par.fmt.ofInt 0) = true ∧ 1 ≤ mb.toNat ∧ mb.toNat ≤ s.par.bufLen := by
  obtain ⟨hfin, hpos, hlo, hhi, u, hu, rfl⟩ := prepareBlock_eq_ok.1 h
  obtain ⟨hpar, hcfg, -⟩ := rebuildTables_control hu
  exact ⟨hpar, hcfg, hfin, hpos, hlo, hhi⟩

/-- RELEASE keeps the settings (R271). -/
theorem settingsLegal_releaseBlock {s : State} (h : SettingsLegal s.cfg) : SettingsLegal (releaseBlock s).cfg := by
  obtain ⟨harm_pos, harm_le, sub_le, attack, decay, sustain, release⟩ := h
  unfold releaseBlock
  split <;> exact ⟨harm_pos, harm_le, sub_le, attack, decay, sustain, release⟩

theorem releaseBlock_par (s : State) : (releaseBlock s).par = s.par := (sameShape_releaseBlock s).1

/-- A command that changes settings keeps the rate, the block size and PREPARED. -/
theorem ControlLegal.with_cfg {s t : State} (h : ControlLegal s) (hpar : t.par = s.par) (hprep : t.prepared = s.prepared)
    (hfs : t.cfg.fs = s.cfg.fs) (hmax : t.cfg.maxblk = s.cfg.maxblk) (hset : SettingsLegal t.cfg) : ControlLegal t := by
  rw [controlLegal_iff] at *
  obtain ⟨hnum, -, hp⟩ := h
  unfold BlockSizeLegal at *
  rw [hpar, hprep, hfs, hmax]
  exact ⟨hnum, hset, hp⟩

/-- Every host command keeps the control registers legal (R281 (d)). -/
theorem controlLegal_command {i : Instr} {s t : State} (hi : i.isInternal = false) (hs : ControlLegal s)
    (h : exec i s = .next t) : ControlLegal t := by
  obtain ⟨hn, hset, hprep⟩ := (controlLegal_iff s).1 hs
  have hfmt : s.par.fmt = numF32 := fmt_f32 hn
  cases i with
  | prepare maxblk rate =>
    obtain ⟨hpar, hcfg, hfin, hpos, hlo, hhi⟩ := prepareBlock_control ((finish_eq_next _ _).1 h)
    rw [hfmt] at hfin hpos
    refine (controlLegal_iff t).2 ⟨hpar ▸ hn, ?_, fun _ => ?_⟩
    · rw [hcfg]
      exact ⟨hset.harm_pos, hset.harm_le, hset.sub_le, hset.attack, hset.decay, hset.sustain, hset.release⟩
    · unfold BlockSizeLegal
      rw [hcfg, hpar]
      exact ⟨⟨hfin, hpos⟩, hlo, hhi⟩
  | release =>
    cases h
    exact (controlLegal_iff _).2 ⟨releaseBlock_par s ▸ hn, settingsLegal_releaseBlock hset,
      fun hp => absurd hp (by simp [releaseBlock_prepared])⟩
  | setWave kind =>
    cases h
    exact hs.with_cfg rfl rfl rfl rfl { hset with }
  | setHarm imm16 =>
    have hclamped : SettingsLegal { s.cfg with harm := clampHarm imm16 } :=
      { hset with harm_pos := (clampHarm_bounds imm16).1, harm_le := (clampHarm_bounds imm16).2 }
    obtain ⟨-, hu⟩ | ⟨-, rfl⟩ := setHarmonics_eq_ok.1 ((finish_eq_next _ _).1 h)
    · obtain ⟨hpar, hcfg, hp⟩ := rebuildTables_control hu
      refine hs.with_cfg hpar hp ?_ ?_ ?_ <;> rw [hcfg]
      exact hclamped
    · exact hs.with_cfg rfl rfl rfl rfl hclamped
  | setSub imm16 =>
    cases h
    exact hs.with_cfg rfl rfl rfl rfl { hset with sub_le := clampSub_le imm16 }
  | setAdsr attack decay sustain rel =>
    obtain ⟨⟨ha, hd, hu, hr⟩, u, rfl, rfl⟩ := setEnvelope_eq_ok.1 ((finish_eq_next _ _).1 h)
    rw [hfmt] at ha hd hu hr ⊢
    have hclamped := hs.with_cfg (t := { s with cfg := { s.cfg with
        a := clampTime numF32 (numword s.par attack), d := clampTime numF32 (numword s.par decay)
        s := clampUnit numF32 (numword s.par sustain), r := clampRelease numF32 (numword s.par rel) } })
      rfl rfl rfl rfl
      { hset with
        attack := between_clampTime ha, decay := between_clampTime hd
        sustain := between_clampUnit hu, release := between_clampRelease hr }
    split
    · exact hclamped.congr rfl rfl rfl
    · exact hclamped
  | noteOn note velocity =>
    obtain ⟨-, -, ⟨-, rfl⟩ | ⟨v, -, hv⟩⟩ := noteOn_eq_ok.1 ((finish_eq_next _ _).1 h)
    · exact hs
    · obtain ⟨par, cfg, prepared, -, -⟩ := sameControlAndTables_voiceNoteOn hv
      exact hs.congr par cfg prepared
  | noteOff tail note velocity =>
    obtain ⟨-, ⟨-, rfl⟩ | ⟨v, x, -, -, rfl⟩⟩ := noteOff_eq_ok.1 ((finish_eq_next _ _).1 h)
    · exact hs
    · exact hs.congr rfl rfl rfl
  | render start num =>
    obtain ⟨-, -, -, b, ys, b', -, -, rfl⟩ := renderBlock_eq_ok.1 ((finish_eq_next _ _).1 h)
    exact hs.congr rfl rfl rfl
  | _ => cases hi

theorem controlLegal_exec {i : Instr} {s t : State} (hs : ControlLegal s) (h : exec i s = .next t) :
    ControlLegal t := by
  cases hi : i.isInternal with
  | false => exact controlLegal_command hi hs h
  | true =>
    obtain ⟨k, harm, f0, fs, hb⟩ | hb | ⟨par, cfg, prepared, -, -⟩ := exec_internal_cases hi h
    · obtain ⟨words, -, rfl⟩ := buildTable_eq_ok.1 hb
      exact hs.congr rfl rfl rfl
    · obtain ⟨par, cfg, prepared⟩ := rebuildTables_control hb
      exact hs.congr par cfg prepared
    · exact hs.congr par cfg prepared

/-- Settles O54: the defaults are legal, every command clamps or checks what it writes, and no internal operation
writes a control register. -/
theorem stepKeepsControlLegal : Obligations.StepKeepsControlLegal := fun _ _ hs h =>
  step_keeps_of_exec (P := ControlLegal) (fun _ _ _ _ _ hu => hu) (fun _ _ hu => hu)
    (fun u hu => (atReset_applyReset u).controlLegal hu.1)
    (fun _ _ _ _ hu hi => controlLegal_exec hu hi) hs h

end Sys2Proof.Machine
end

/-! What a host command can do to the voices (44_voice.md R223 to R228), and their consistency (10_state.md R37 (b),
R38 (a), R38 (b)). -/

section
namespace Sys2Proof.Machine

/-! ### A property of a voice through a render -/

/-- One sample of a voice, and its freeing when the envelope has finished, is `voiceLater` (R225). -/
theorem voiceSample_later {s : State} {x x₁ : Voice} {y : NumWord} (h : voiceSample s x = .ok (y, x₁)) :
    voiceLater s x = if envActive x₁.env then x₁ else freeVoice x₁ := by
  rw [voiceSample_voice h]
  unfold voiceLater envActive
  by_cases hstage : (envStep s x.env).1.stage = .idle
  · have hidle : (envNext s.par.fmt s.atkInc s.decDec s.cfg.s x.env).1.stage = .idle := hstage
    simp only [hstage, hidle, if_true, bne_self_eq_false, Bool.false_eq_true, if_false]
    rfl
  · have hactive : (envNext s.par.fmt s.atkInc s.decDec s.cfg.s x.env).1.stage ≠ .idle := hstage
    simp only [hactive, if_false, bne_iff_ne, ne_eq, hstage, not_false_eq_true, if_true]
    rfl

/-- What one sample of a busy voice keeps, the render loop keeps. -/
theorem renderLoop_keeps {P : Voice → Prop} {s : State} (hP : ∀ x, x.busy = true → P x → P (voiceLater s x))
    {count a : Nat} {x x' : Voice} {b b' : Mem} (hbusy : x.busy = true) (hx : P x)
    (h : renderLoop s count a x b = .ok (x', b')) : P x' := by
  induction count generalizing a x b with
  | zero => cases h; exact hx
  | succ count ih =>
    obtain ⟨y, x₁, b₁, hsample, -, hrest⟩ := renderLoop_succ h
    have hlater := hP x hbusy hx
    rw [voiceSample_later hsample] at hlater
    obtain ⟨hactive, hloop⟩ | ⟨hidle, rfl, rfl⟩ := hrest
    · rw [if_pos hactive] at hlater
      exact ih ((voiceSample_setup hsample).2.trans hbusy) hlater hloop
    · rwa [if_neg (by simp [hidle])] at hlater

/-- What one sample of a busy voice keeps, a render of all voices keeps for each of them. -/
theorem renderVoices_keeps {P : Voice → Prop} {s : State} (hP : ∀ x, x.busy = true → P x → P (voiceLater s x))
    {a count : Nat} {xs ys : List Voice} {b b' : Mem} (hxs : ∀ x ∈ xs, P x)
    (h : renderVoices s a count xs b = .ok (ys, b')) : ∀ y ∈ ys, P y := by
  induction xs generalizing ys b with
  | nil => cases h; exact hxs
  | cons x rest ih =>
    simp only [renderVoices, bind_eq_ok] at h
    obtain ⟨⟨x', b₁⟩, hvoice, ⟨ys', b₂⟩, hrest, ht⟩ := h
    cases ht
    have hx := hxs x List.mem_cons_self
    have hx' : P x' := by
      unfold renderVoice at hvoice
      split_ifs at hvoice with hbusy
      · exact renderLoop_keeps hP hbusy hx hvoice
      · cases hvoice; exact hx
    exact List.forall_mem_cons.2 ⟨hx', ih (fun y hy => hxs y (List.mem_cons_of_mem _ hy)) hrest⟩

/-! ### What a host command does to the voices -/

/-- Everything a host command can do to the voices, to PREPARED, to the sample rate and to the random source: PREPARE
and RELEASE make every voice idle, NOTE_ON starts one, NOTE_OFF releases a busy one, RENDER advances the busy ones, and
the others leave all of it alone. -/
inductive VoiceEffect (s t : State) : Prop where
  | kept (voices : t.voices = s.voices) (prepared : t.prepared = s.prepared) (fs : t.cfg.fs = s.cfg.fs)
      (rnd : t.rnd = s.rnd)
  | allReset (voices : t.voices = s.voices.map (resetVoice s.par.fmt)) (rnd : t.rnd = s.rnd)
      (rate : t.prepared = true →
        s.par.fmt.isFinite t.cfg.fs = true ∧ s.par.fmt.gt t.cfg.fs (s.par.fmt.ofInt 0) = true)
  | started (v : Nat) (x : Voice) (note : BitVec 7) (vel : NumWord) (k : Kind) (sc : Int)
      (prepared : s.prepared = true) (voice : s.voices[v]? = some x)
      (next : t = { setVoice s v (startVoice s x note vel k sc).1 with rnd := (startVoice s x note vel k sc).2 })
  | released (v : Nat) (x : Voice) (voice : s.voices[v]? = some x) (busy : x.busy = true)
      (next : t = setVoice s v { x with env := envRelease s.par.fmt s.cfg.r s.cfg.fs x.env })
  | rendered (start count : Nat) (b b' : Mem) (ys : List Voice) (prepared : s.prepared = true)
      (render : renderVoices s start count s.voices b = .ok (ys, b')) (next : t = { s with voices := ys, buf := b' })

theorem VoiceEffect.refl (s : State) : VoiceEffect s s := .kept rfl rfl rfl rfl

theorem voiceEffect_prepareBlock {s t : State} {mb : BitVec 16} {fs : NumWord} (h : prepareBlock s mb fs = .ok t) :
    VoiceEffect s t := by
  obtain ⟨-, hcfg, hfin, hpos, -, -⟩ := prepareBlock_control h
  obtain ⟨-, -, -, -, u, hu, rfl⟩ := prepareBlock_eq_ok.1 h
  have hrate : u.cfg.fs = fs := congrArg Ctrl.fs hcfg
  obtain ⟨words, -, rfl⟩ := rebuildTables_eq_ok.1 hu
  exact .allReset rfl rfl fun _ => ⟨hfin, hpos⟩

theorem voiceEffect_releaseBlock (s : State) : VoiceEffect s (releaseBlock s) := by
  refine .allReset ?_ ?_ fun hp => absurd hp (by simp [releaseBlock_prepared]) <;>
    · unfold releaseBlock
      split <;> rfl

theorem voiceEffect_setHarmonics {s t : State} {n : BitVec 16} (h : setHarmonics s n = .ok t) : VoiceEffect s t := by
  obtain ⟨-, hu⟩ | ⟨-, rfl⟩ := setHarmonics_eq_ok.1 h
  · obtain ⟨words, -, rfl⟩ := rebuildTables_eq_ok.1 hu
    exact .kept rfl rfl rfl rfl
  · exact .kept rfl rfl rfl rfl

theorem voiceEffect_setEnvelope {s t : State} {a d sus r : NumWord} (h : setEnvelope s a d sus r = .ok t) :
    VoiceEffect s t := by
  obtain ⟨-, u, rfl, rfl⟩ := setEnvelope_eq_ok.1 h
  split <;> exact .kept rfl rfl rfl rfl

theorem voiceEffect_noteOn {s t : State} {note : BitVec 7} {vel : NumWord} (h : noteOn s note vel = .ok t) :
    VoiceEffect s t := by
  obtain ⟨-, hp, ⟨-, rfl⟩ | ⟨v, -, hv⟩⟩ := noteOn_eq_ok.1 h
  · exact .refl t
  · obtain ⟨x, hx, ht⟩ := voiceNoteOn_eq_ok.1 hv
    exact .started v x _ _ _ _ hp hx ht

theorem voiceEffect_noteOff {s t : State} {tail : Bool} {note : BitVec 7} {vel : NumWord}
    (h : noteOff s tail note vel = .ok t) : VoiceEffect s t := by
  obtain ⟨-, ⟨-, rfl⟩ | ⟨v, x, hfirst, hx, ht⟩⟩ := noteOff_eq_ok.1 h
  · exact .refl t
  · obtain ⟨⟨x', hx', htest⟩, -⟩ := firstVoice_eq_some.1 hfirst
    obtain rfl : x = x' := Option.some.inj (hx.symm.trans hx')
    rw [Bool.and_eq_true] at htest
    exact .released v x hx htest.1 ht

theorem voiceEffect_renderBlock {s t : State} {start count : BitVec 16} (h : renderBlock s start count = .ok t) :
    VoiceEffect s t := by
  obtain ⟨hp, -, -, b, ys, b', -, hrender, ht⟩ := renderBlock_eq_ok.1 h
  exact .rendered _ _ b b' ys hp hrender ht

theorem exec_voiceEffect {i : Instr} {s t : State} (hi : i.isInternal = false) (h : exec i s = .next t) :
    VoiceEffect s t := by
  cases i with
  | prepare maxblk rate => exact voiceEffect_prepareBlock ((finish_eq_next _ _).1 h)
  | release => cases h; exact voiceEffect_releaseBlock s
  | setWave kind => cases h; exact .kept rfl rfl rfl rfl
  | setHarm imm16 => exact voiceEffect_setHarmonics ((finish_eq_next _ _).1 h)
  | setSub imm16 => cases h; exact .kept rfl rfl rfl rfl
  | setAdsr attack decay sustain rel => exact voiceEffect_setEnvelope ((finish_eq_next _ _).1 h)
  | noteOn note velocity => exact voiceEffect_noteOn ((finish_eq_next _ _).1 h)
  | noteOff tail note velocity => exact voiceEffect_noteOff ((finish_eq_next _ _).1 h)
  | render start num => exact voiceEffect_renderBlock ((finish_eq_next _ _).1 h)
  | _ => cases hi

/-- No host command makes a request of the sub-blocks (log entry 2). -/
theorem exec_command_uops {i : Instr} {s t : State} (hi : i.isInternal = false) (h : exec i s = .next t) :
    t.uops = s.uops := by
  cases i with
  | prepare maxblk rate =>
    obtain ⟨-, -, -, -, u, hu, rfl⟩ := prepareBlock_eq_ok.1 ((finish_eq_next _ _).1 h)
    obtain ⟨words, -, rfl⟩ := rebuildTables_eq_ok.1 hu
    rfl
  | release =>
    cases h
    unfold releaseBlock
    split <;> rfl
  | setWave | setSub => cases h; rfl
  | setHarm imm16 =>
    obtain ⟨-, hu⟩ | ⟨-, rfl⟩ := setHarmonics_eq_ok.1 ((finish_eq_next _ _).1 h)
    · obtain ⟨words, -, rfl⟩ := rebuildTables_eq_ok.1 hu
      rfl
    · rfl
  | setAdsr attack decay sustain rel =>
    obtain ⟨-, u, rfl, rfl⟩ := setEnvelope_eq_ok.1 ((finish_eq_next _ _).1 h)
    split <;> rfl
  | noteOn note velocity =>
    obtain ⟨-, -, ⟨-, rfl⟩ | ⟨v, -, hv⟩⟩ := noteOn_eq_ok.1 ((finish_eq_next _ _).1 h)
    · rfl
    · obtain ⟨x, -, rfl⟩ := voiceNoteOn_eq_ok.1 hv
      rfl
  | noteOff tail note velocity =>
    obtain ⟨-, ⟨-, rfl⟩ | ⟨v, x, -, -, rfl⟩⟩ := noteOff_eq_ok.1 ((finish_eq_next _ _).1 h) <;> rfl
  | render start num =>
    obtain ⟨-, -, -, b, ys, b', -, -, rfl⟩ := renderBlock_eq_ok.1 ((finish_eq_next _ _).1 h)
    rfl
  | _ => cases hi

/-! ### Consistency -/

/-- A voice at rest is consistent whatever PREPARED is. -/
theorem VoiceAtRest.consistent {F : NumFmt NumWord} {x : Voice} (h : VoiceAtRest F x) (prepared : Bool) :
    VoiceConsistent prepared x := by
  obtain ⟨hbusy, hstage, -, hlive⟩ := h
  refine ⟨by simp [hbusy, hstage], fun sl hsl hl => ?_, fun hb => ?_⟩
  · rw [hlive sl hsl] at hl
    cases hl
  · rw [hbusy] at hb
    cases hb

theorem voiceAtRest_resetVoice (F : NumFmt NumWord) (x : Voice) : VoiceAtRest F (resetVoice F x) :=
  ⟨rfl, rfl, rfl, fun _ hsl => live_of_mem_clearLive hsl⟩

theorem voiceConsistent_startVoice (s : State) (x : Voice) (note : BitVec 7) (vel : NumWord) (k : Kind) (sc : Int) :
    VoiceConsistent true (startVoice s x note vel k sc).1 :=
  ⟨⟨fun _ => Stage.noConfusion, fun _ => rfl⟩, fun _ _ _ => rfl, fun _ => rfl⟩

/-- `env_release` neither starts nor ends an envelope (R193). -/
theorem envRelease_stage_idle_iff {α : Type} (F : NumFmt α) (r fs : α) (e : EnvOf α) :
    (envRelease F r fs e).stage = .idle ↔ e.stage = .idle := by
  unfold envRelease
  cases hstage : e.stage <;> simp [hstage]

theorem voiceConsistent_envRelease {F : NumFmt NumWord} {r fs : NumWord} {prepared : Bool} {x : Voice}
    (h : VoiceConsistent prepared x) : VoiceConsistent prepared { x with env := envRelease F r fs x.env } := by
  obtain ⟨hbusy, hlive, hprep⟩ := h
  exact ⟨hbusy.trans (not_congr (envRelease_stage_idle_iff F r fs x.env).symm), hlive, hprep⟩

/-- One sample of a busy voice: it stays busy while its envelope goes on, and is at rest when that has finished (R225). -/
theorem voiceConsistent_voiceLater {s : State} {prepared : Bool} {x : Voice} (hbusy : x.busy = true)
    (h : VoiceConsistent prepared x) : VoiceConsistent prepared (voiceLater s x) := by
  obtain ⟨-, -, hprep⟩ := h
  unfold voiceLater
  simp only
  split_ifs with hidle
  · refine ⟨by simp [hidle], fun sl hsl hl => ?_, fun hb => by cases hb⟩
    rw [live_of_mem_clearLive hsl] at hl
    cases hl
  · exact ⟨by simp [hbusy, hidle], fun _ _ _ => hbusy, hprep⟩

theorem AtReset.voicesConsistent {s : State} (h : AtReset s) : VoicesConsistent s :=
  ⟨h.uops, fun _ hx => (h.voiceAtRest hx).consistent _⟩

/-- Every host command keeps the voices consistent. -/
theorem voicesConsistent_command {i : Instr} {s t : State} (hi : i.isInternal = false) (hs : VoicesConsistent s)
    (h : exec i s = .next t) : VoicesConsistent t := by
  obtain ⟨huops, hvoices⟩ := hs
  refine ⟨(exec_command_uops hi h).trans huops, ?_⟩
  cases exec_voiceEffect hi h with
  | kept voices prepared => rwa [voices, prepared]
  | allReset voices =>
    rw [voices]
    exact List.forall_mem_map.2 fun x _ => (voiceAtRest_resetVoice _ x).consistent _
  | started v x note vel k sc prepared voice next =>
    subst next
    intro y hy
    obtain rfl | hy := mem_setVoice hy
    · exact prepared ▸ voiceConsistent_startVoice s x note vel k sc
    · exact hvoices y hy
  | released v x voice busy next =>
    subst next
    intro y hy
    obtain rfl | hy := mem_setVoice hy
    · exact voiceConsistent_envRelease (hvoices x (List.mem_of_getElem? voice))
    · exact hvoices y hy
  | rendered start count b b' ys prepared render next =>
    subst next
    exact renderVoices_keeps (fun _ => voiceConsistent_voiceLater) hvoices render

/-- Settles O55: with no request waiting every step runs a host command, and each of them keeps every voice
consistent. -/
theorem stepKeepsVoicesConsistent : Obligations.StepKeepsVoicesConsistent := fun _ _ hs h =>
  step_keeps_of_command (P := VoicesConsistent) (fun _ hu => hu.1) (fun _ _ _ _ _ hu => hu)
    (fun u _ => (atReset_applyReset u).voicesConsistent)
    (fun _ _ _ hi _ hu he => voicesConsistent_command hi hu he) hs h

end Sys2Proof.Machine
end

/-! The envelope levels (10_state.md R38 (e); 43_envelope_generator.md R191 to R194): every level stays in 0 to 1, since
no step of a ramp is negative or a NaN and every ramp stops at its end. -/

section
namespace Sys2Proof.Machine

/-! ### The steps of the ramps -/

/-- Under `NUM_F32`, a number in 0 to 1. -/
abbrev InUnit (x : NumWord) : Prop := Between (.f32 0x00000000#32) x (.f32 0x3F800000#32)

theorem inUnit_zero : InUnit (numF32.ofInt 0) := by unfold InUnit Between; decide

theorem inUnit_one : InUnit (numF32.ofInt 1) := by unfold InUnit Between; decide

theorem InUnit.finite {x : NumWord} (h : InUnit x) : F32.isFinite x.bits = true :=
  F32.finite_of_le (b := 0x3F800000#32) (by decide) h.1 h.2

/-- A time the control registers hold is above zero (R30). -/
theorem pos_of_between_time {x hi : NumWord} (hhi : F32.isFinite hi.bits = true)
    (h : Between (.f32 0x3A83126F#32) x hi) : F32.isFinite x.bits = true ∧ F32.lt 0#32 x.bits = true := by
  have hleast : F32.le 0#32 0x3A83126F#32 = true := by decide
  have h0 : F32.le 0#32 x.bits = true := F32.le_trans hleast h.1
  have hnan := (F32.zero_le_iff.1 h0).1
  refine ⟨F32.finite_of_le hhi h0 h.2, F32.lt_of_not_le rfl hnan ?_⟩
  by_contra hle
  have hbad : F32.le 0x3A83126F#32 0#32 = true := F32.le_trans h.1 (by simpa using hle)
  exact absurd hbad (by decide)

/-- The length of a ramp in samples has no sign, whatever it rounds to. -/
theorem unsigned_rampLength {time hi fs : NumWord} (hhi : F32.isFinite hi.bits = true)
    (htime : Between (.f32 0x3A83126F#32) time hi) (hfs : RateLegal fs) :
    F32.Unsigned (numF32.mul time fs).bits := by
  obtain ⟨hfin, hpos⟩ := pos_of_between_time hhi htime
  exact F32.unsigned_mul hfin hpos (F32.unsigned_of_pos hfs.2)

/-- A ramp's step is at least zero: where it covers nothing it is zero itself (log entry 22), and elsewhere a number
above zero is divided by one without a sign. -/
theorem zero_le_rampStep {x t : NumWord} (hfin : F32.isFinite x.bits = true) (hx : F32.le 0#32 x.bits = true)
    (ht : F32.Unsigned t.bits) : F32.le 0#32 (rampStep numF32 x t).bits = true := by
  unfold rampStep
  split_ifs with h0
  · exact hx
  · obtain ⟨hnan, hsign⟩ := F32.zero_le_iff.1 hx
    have hmag : F32.mag x.bits ≠ 0 := by
      intro hm
      refine h0 ?_
      have hkey : F32.key x.bits = 0 := by rw [F32.key, hm]; simp
      have hkey0 : F32.key 0#32 = 0 := rfl
      have hnan0 : F32.isNaN 0#32 = false := rfl
      simp [F32.eq, hnan, hkey, hkey0, hnan0]
    have hpos : F32.lt 0#32 x.bits = true :=
      F32.zero_lt_iff.2 ⟨hnan, Bool.eq_false_iff.2 fun hs => hmag (hsign hs), hmag⟩
    exact (F32.unsigned_div hfin hpos ht).zero_le

theorem zero_le_attackRate {a fs : NumWord} (ha : Between (.f32 0x3A83126F#32) a (.f32 0x40000000#32))
    (hfs : RateLegal fs) : F32.le 0#32 (attackRate numF32 a fs).bits = true :=
  (F32.unsigned_div (a := (numF32.ofInt 1).bits) (by decide) (by decide)
    (unsigned_rampLength (by decide) ha hfs)).zero_le

/-- What the decay ramp covers, from 1 to the sustain level. -/
theorem inUnit_one_sub {x : NumWord} (h : InUnit x) : InUnit (numF32.sub (numF32.ofInt 1) x) := by
  obtain ⟨hfin, hlo, hhi⟩ := F32.value_bounds (b := 0x3F800000#32) (by decide) h.1 h.2
  have hone : F32.ofInt 1 = 0x3F800000#32 := by decide
  have hf1 : F32.isFinite 0x3F800000#32 = true := by decide
  obtain ⟨hsf, hslo, hshi⟩ := F32.sub_bounds hf1 hfin hf1 (by omega) (by omega)
  unfold InUnit Between
  rw [numF32_sub, numF32_ofInt, hone]
  exact ⟨(F32.le_iff (a := 0#32) rfl hsf).2 hslo, (F32.le_iff hsf hf1).2 hshi⟩

theorem zero_le_decayRate {d u fs : NumWord} (hd : Between (.f32 0x3A83126F#32) d (.f32 0x40000000#32))
    (hu : InUnit u) (hfs : RateLegal fs) : F32.le 0#32 (decayRate numF32 d u fs).bits = true :=
  zero_le_rampStep (inUnit_one_sub hu).finite (inUnit_one_sub hu).1 (unsigned_rampLength (by decide) hd hfs)

/-! ### One envelope -/

/-- R38 (e) for one envelope: its level, and its release step while it releases. -/
def EnvInRange (e : Env) : Prop := InUnit e.level ∧ (e.stage = .release → F32.le 0#32 e.relDec.bits = true)

/-- An envelope at level 0 that is not releasing. -/
theorem envInRange_zero {e : Env} (hlevel : e.level = numF32.ofInt 0) (hstage : e.stage ≠ .release) : EnvInRange e :=
  ⟨hlevel ▸ inUnit_zero, fun h => absurd h hstage⟩

/-- One sample of the attack (R194). -/
theorem inUnit_attack {level inc : NumWord} (hl : InUnit level) (hinc : F32.le 0#32 inc.bits = true)
    (h : ¬ numF32.ge (numF32.add level inc) (numF32.ofInt 1) = true) : InUnit (numF32.add level inc) := by
  have hone : F32.ofInt 1 = 0x3F800000#32 := by decide
  have hsum : F32.le 0#32 (F32.add level.bits inc.bits) = true := F32.zero_le_add hl.finite hl.1 hinc
  rw [numF32_ge, numF32_add, numF32_ofInt, hone, Bool.not_eq_true] at h
  exact ⟨hsum, F32.le_of_not_le (F32.zero_le_iff.1 hsum).1 (by decide) h⟩

/-- One sample of a falling ramp that has not reached its end (R194). -/
theorem inUnit_fall {level dec target : NumWord} (hl : InUnit level) (hdec : F32.le 0#32 dec.bits = true)
    (ht : F32.le 0#32 target.bits = true) (h : ¬ numF32.le (numF32.sub level dec) target = true) :
    InUnit (numF32.sub level dec) := by
  rw [numF32_le, numF32_sub, Bool.not_eq_true] at h
  obtain ⟨hlo, hhi⟩ := F32.sub_between hl.finite hdec ht h
  exact ⟨F32.le_trans ht hlo, F32.le_trans hhi hl.2⟩

/-- One call of `env_next` keeps the level in 0 to 1 (R194). -/
theorem envInRange_envNext {inc dec sus : NumWord} {e : Env} (hinc : F32.le 0#32 inc.bits = true)
    (hdec : F32.le 0#32 dec.bits = true) (hsus : InUnit sus) (h : EnvInRange e) :
    EnvInRange (envNext numF32 inc dec sus e).1 := by
  obtain ⟨stage, level, relDec⟩ := e
  obtain ⟨hl, hrel⟩ := h
  unfold envNext
  cases stage with
  | idle => exact ⟨hl, hrel⟩
  | attack =>
    simp only
    split_ifs with hend
    · exact ⟨inUnit_one, fun h => by cases h⟩
    · exact ⟨inUnit_attack hl hinc hend, hrel⟩
  | decay =>
    simp only
    split_ifs with hend
    · exact ⟨hsus, fun h => by cases h⟩
    · exact ⟨inUnit_fall hl hdec hsus.1 hend, hrel⟩
  | sustain => exact ⟨hsus, hrel⟩
  | release =>
    simp only
    split_ifs with hend
    · exact ⟨inUnit_zero, fun h => by cases h⟩
    · exact ⟨inUnit_fall hl (hrel rfl) (by decide) hend, hrel⟩

/-- The release step latched by `env_release` is at least zero (R193). -/
theorem envInRange_envRelease {r fs : NumWord} {e : Env} (hr : Between (.f32 0x3A83126F#32) r (.f32 0x40A00000#32))
    (hfs : RateLegal fs) (h : EnvInRange e) : EnvInRange (envRelease numF32 r fs e) := by
  obtain ⟨hl, hrel⟩ := h
  have hstep : F32.le 0#32 (rampStep numF32 e.level (numF32.mul r fs)).bits = true :=
    zero_le_rampStep hl.finite hl.1 (unsigned_rampLength (by decide) hr hfs)
  unfold envRelease
  cases e.stage with
  | attack | decay | sustain => exact ⟨hl, fun _ => hstep⟩
  | idle | release => exact ⟨hl, hrel⟩

theorem envInRange_voiceLater {s : State} {x : Voice} (hn : s.par.num = .f32) (hinc : F32.le 0#32 s.atkInc.bits = true)
    (hdec : F32.le 0#32 s.decDec.bits = true) (hsus : InUnit s.cfg.s) (h : EnvInRange x.env) :
    EnvInRange (voiceLater s x).env := by
  have hnext := envInRange_envNext hinc hdec hsus h
  rw [← fmt_f32 hn] at hnext
  unfold voiceLater
  simp only
  split_ifs <;> exact hnext

/-! ### The shared rates -/

/-- The shared rates of a prepared block are at least zero (R31). -/
def RatesLegal (s : State) : Prop :=
  s.prepared = true → F32.le 0#32 s.atkInc.bits = true ∧ F32.le 0#32 s.decDec.bits = true

/-- The rates `env_rates` computes from legal control registers (R191). -/
theorem ratesLegal_of_envRates {s : State} (hs : ControlLegal s)
    (hatk : s.atkInc = attackRate s.par.fmt s.cfg.a s.cfg.fs)
    (hdec : s.decDec = decayRate s.par.fmt s.cfg.d s.cfg.s s.cfg.fs) : RatesLegal s := by
  obtain ⟨hn, hset, hprep⟩ := (controlLegal_iff s).1 hs
  intro hp
  obtain ⟨hrate, -⟩ := hprep hp
  rw [hatk, hdec, fmt_f32 hn]
  exact ⟨zero_le_attackRate hset.attack hrate, zero_le_decayRate hset.decay hset.sustain hrate⟩

theorem RatesLegal.congr {s t : State} (hprep : t.prepared = s.prepared) (hatk : t.atkInc = s.atkInc)
    (hdec : t.decDec = s.decDec) (h : RatesLegal s) : RatesLegal t := by
  unfold RatesLegal at *
  rwa [hprep, hatk, hdec]

/-- Every host command keeps the shared rates at least zero: PREPARE and SET_ADSR compute them anew, RELEASE leaves the
block not prepared, and no other command writes them (R191). -/
theorem ratesLegal_command {i : Instr} {s t : State} (hi : i.isInternal = false) (ht : ControlLegal t)
    (hs : RatesLegal s) (h : exec i s = .next t) : RatesLegal t := by
  cases i with
  | prepare maxblk rate =>
    obtain ⟨-, -, -, -, u, hu, rfl⟩ := prepareBlock_eq_ok.1 ((finish_eq_next _ _).1 h)
    exact ratesLegal_of_envRates ht rfl rfl
  | release =>
    cases h
    exact fun hp => absurd hp (by simp [releaseBlock_prepared])
  | setWave | setSub => cases h; exact hs
  | setHarm imm16 =>
    obtain ⟨-, hu⟩ | ⟨-, rfl⟩ := setHarmonics_eq_ok.1 ((finish_eq_next _ _).1 h)
    · obtain ⟨words, -, rfl⟩ := rebuildTables_eq_ok.1 hu
      exact hs
    · exact hs
  | setAdsr attack decay sustain rel =>
    obtain ⟨-, u, rfl, rfl⟩ := setEnvelope_eq_ok.1 ((finish_eq_next _ _).1 h)
    split_ifs at ht ⊢
    · exact ratesLegal_of_envRates ht rfl rfl
    · exact hs
  | noteOn note velocity =>
    obtain ⟨-, -, ⟨-, rfl⟩ | ⟨v, -, hv⟩⟩ := noteOn_eq_ok.1 ((finish_eq_next _ _).1 h)
    · exact hs
    · obtain ⟨x, -, rfl⟩ := voiceNoteOn_eq_ok.1 hv
      exact hs
  | noteOff tail note velocity =>
    obtain ⟨-, ⟨-, rfl⟩ | ⟨v, x, -, -, rfl⟩⟩ := noteOff_eq_ok.1 ((finish_eq_next _ _).1 h) <;> exact hs
  | render start num =>
    obtain ⟨-, -, -, b, ys, b', -, -, rfl⟩ := renderBlock_eq_ok.1 ((finish_eq_next _ _).1 h)
    exact hs
  | _ => cases hi

/-! ### The invariant -/

theorem levelsInRange_iff (s : State) :
    LevelsInRange s ↔ VoicesConsistent s ∧ ControlLegal s ∧ RatesLegal s ∧ ∀ x ∈ s.voices, EnvInRange x.env := Iff.rfl

theorem AtReset.levelsInRange {s : State} (h : AtReset s) (hn : s.par.num = .f32) : LevelsInRange s := by
  refine (levelsInRange_iff s).2 ⟨h.voicesConsistent, h.controlLegal hn, fun hp => absurd hp (by simp [h.prepared]),
    fun x hx => ?_⟩
  obtain ⟨-, hstage, hlevel, -⟩ := h.voiceAtRest hx
  rw [fmt_f32 hn] at hlevel
  exact envInRange_zero hlevel (by simp [hstage])

/-- Every host command keeps every level in 0 to 1. -/
theorem levelsInRange_command {i : Instr} {s t : State} (hi : i.isInternal = false) (hs : LevelsInRange s)
    (h : exec i s = .next t) : LevelsInRange t := by
  obtain ⟨hcons, hctrl, hrates, henv⟩ := (levelsInRange_iff s).1 hs
  have htctrl := controlLegal_command hi hctrl h
  refine (levelsInRange_iff t).2
    ⟨voicesConsistent_command hi hcons h, htctrl, ratesLegal_command hi htctrl hrates h, ?_⟩
  obtain ⟨hn, hset, hprep⟩ := (controlLegal_iff s).1 hctrl
  have hfmt : s.par.fmt = numF32 := fmt_f32 hn
  cases exec_voiceEffect hi h with
  | kept voices => rwa [voices]
  | allReset voices =>
    rw [voices, hfmt]
    exact List.forall_mem_map.2 fun x _ => envInRange_zero rfl Stage.noConfusion
  | started v x note vel k sc prepared voice next =>
    subst next
    intro y hy
    obtain rfl | hy := mem_setVoice hy
    · exact envInRange_zero (congrArg (NumFmt.ofInt · 0) hfmt) Stage.noConfusion
    · exact henv y hy
  | released v x voice busy next =>
    subst next
    have hx : x ∈ s.voices := List.mem_of_getElem? voice
    obtain ⟨-, -, hbusy⟩ := hcons.2 x hx
    intro y hy
    obtain rfl | hy := mem_setVoice hy
    · rw [hfmt]
      exact envInRange_envRelease hset.release (hprep (hbusy busy)).1 (henv x hx)
    · exact henv y hy
  | rendered start count b b' ys prepared render next =>
    subst next
    obtain ⟨hinc, hdec⟩ := hrates prepared
    exact renderVoices_keeps (P := fun x => EnvInRange x.env)
      (fun x _ hx => envInRange_voiceLater hn hinc hdec hset.sustain hx) henv render

/-- Settles O57: no step of a ramp is below zero, so every call of `env_next` keeps the level in 0 to 1. -/
theorem stepKeepsLevelsInRange : Obligations.StepKeepsLevelsInRange := fun _ _ hs h =>
  step_keeps_of_command (P := LevelsInRange) (fun _ hu => hu.1.1) (fun _ _ _ _ _ hu => hu)
    (fun u hu => (atReset_applyReset u).levelsInRange hu.2.1.1)
    (fun _ _ _ hi _ hu he => levelsInRange_command hi hu he) hs h

end Sys2Proof.Machine
end

/-! The phases (10_state.md R25, R38 (d); 41_phase_accumulator.md R161 to R164): an advance by an increment below `num(N)`
stays in the table, for every `N` up to 2^24, and a voice starts with legal draws and increments that are not negative.
Then the state after reset, which meets every invariant (R40). -/

section
namespace Sys2Proof.Machine

/-! ### Numbers below the table length -/

/-- A whole number the format holds exactly is above zero. -/
theorem F32.ofInt_pos {n : Nat} (h0 : 0 < n) (h : n ≤ 2 ^ 24) :
    F32.isFinite (F32.ofInt n) = true ∧ F32.lt 0#32 (F32.ofInt n) = true := by
  obtain ⟨hfin, hval⟩ := F32.ofInt_nat h0 h
  have hz : F32.value 0#32 = 0 := rfl
  have hpos : 0 < n * F32.one := Nat.mul_pos h0 F32.one_pos
  exact ⟨hfin, (F32.lt_iff rfl hfin).2 (by rw [hz, hval]; exact_mod_cast hpos)⟩

/-- To lie in `0 <= x < num(n)`, in values. -/
theorem F32.inTable_iff {n : Nat} (h0 : 0 < n) (h : n ≤ 2 ^ 24) {x : Word} :
    (F32.le 0#32 x = true ∧ F32.lt x (F32.ofInt n) = true) ↔
      F32.isFinite x = true ∧ 0 ≤ F32.value x ∧ F32.value x < (n * F32.one : Nat) := by
  obtain ⟨hfin, hval⟩ := F32.ofInt_nat h0 h
  have hz : F32.value 0#32 = 0 := rfl
  rw [← hval]
  constructor
  · rintro ⟨hlo, hhi⟩
    have hx := F32.finite_of_between hfin hlo hhi
    exact ⟨hx, hz ▸ (F32.le_iff rfl hx).1 hlo, (F32.lt_iff hx hfin).1 hhi⟩
  · rintro ⟨hx, hlo, hhi⟩
    exact ⟨(F32.le_iff rfl hx).2 (hz ▸ hlo), (F32.lt_iff hx hfin).2 hhi⟩

/-- The format holds twice every number it holds below 2^24. -/
theorem F32.exists_double_below {n : Nat} (h : n ≤ 2 ^ 24) {c : Word} (hc : F32.isFinite c = true)
    (h0 : 0 ≤ F32.value c) (hlt : F32.value c < (n * F32.one : Nat)) :
    ∃ w, F32.isFinite w = true ∧ F32.value w = 2 * F32.value c := by
  have hunits : (F32.unitsOf (F32.mag c) : Int) = F32.value c := by
    rw [← F32.natAbs_value, Int.natAbs_of_nonneg h0]
  have hmag : F32.mag c < 254 * 2 ^ 23 := by
    by_contra hge
    have hmono : F32.unitsOf (253 * 2 ^ 23 + (2 ^ 23 + 0)) ≤ F32.unitsOf (F32.mag c) :=
      (F32.unitsOf_le_iff (by unfold F32.infMag; norm_num) ((F32.finite_iff c).1 hc).le).2 (by omega)
    rw [F32.unitsOf_normal (by norm_num)] at hmono
    have hsmall : n * F32.one ≤ 2 ^ 24 * F32.one := Nat.mul_le_mul_right _ h
    have hbig : 2 ^ 24 * F32.one ≤ (2 ^ 23 + 0) * 2 ^ 253 := by unfold F32.one; norm_num
    omega
  have hvabs : F32.value (F32.abs c) = F32.value c := by
    rw [F32.value, F32.msb_abs, if_neg (by simp), F32.units, F32.mag_abs, hunits]
  rw [← hvabs]
  exact F32.exists_double (by rwa [F32.mag_abs]) (F32.msb_abs c)

/-- The sum of two numbers at most `c` is at most twice `c`, rounded as it is. -/
theorem F32.add_le_double {n : Nat} (h : n ≤ 2 ^ 24) {p q c : Word} (hp : F32.isFinite p = true)
    (hq : F32.isFinite q = true) (hc : F32.isFinite c = true) (hp0 : 0 ≤ F32.value p) (hq0 : 0 ≤ F32.value q)
    (hpc : F32.value p ≤ F32.value c) (hqc : F32.value q ≤ F32.value c) (hlt : F32.value c < (n * F32.one : Nat)) :
    F32.isFinite (F32.add p q) = true ∧ 0 ≤ F32.value (F32.add p q) ∧ F32.value (F32.add p q) ≤ 2 * F32.value c := by
  obtain ⟨w, hw, hwv⟩ := F32.exists_double_below h hc (by omega) hlt
  rw [← hwv]
  exact F32.add_bounds hp hq hw (by omega) (by omega)

/-! ### The advance -/

/-- One advance by a legal increment keeps the phase in the table (R164). The greater of phase and increment bounds the
result: their sum is at most twice it, so what is left after `num(N)` is taken away is below it. -/
theorem phaseInTable_advance {n : Nat} (h0 : 0 < n) (h : n ≤ 2 ^ 24) {o : Osc} (hp : PhaseInTable n o)
    (hi : IncrementLegal n o) : PhaseInTable n (advance numF32 n o) := by
  obtain ⟨hnf, hnv⟩ := F32.ofInt_nat h0 h
  obtain ⟨hpf, hp0, hpn⟩ := (F32.inTable_iff h0 h).1 hp
  obtain ⟨hif, hi0, hin⟩ := (F32.inTable_iff h0 h).1 hi
  obtain ⟨c, hcf, hpc, hic, hcn⟩ : ∃ c : Word, F32.isFinite c = true ∧ F32.value o.phase.bits ≤ F32.value c ∧
      F32.value o.inc.bits ≤ F32.value c ∧ F32.value c < (n * F32.one : Nat) := by
    rcases le_total (F32.value o.phase.bits) (F32.value o.inc.bits) with hle | hle
    · exact ⟨o.inc.bits, hif, hle, le_rfl, hin⟩
    · exact ⟨o.phase.bits, hpf, le_rfl, hle, hpn⟩
  obtain ⟨hsf, hs0, hsc⟩ := F32.add_le_double h hpf hif hcf hp0 hi0 hpc hic hcn
  unfold PhaseInTable
  rw [F32.inTable_iff h0 h]
  unfold advance
  split_ifs with hwrap
  · rw [numF32_ge, numF32_add, numF32_ofInt, NumWord.bits_f32, NumWord.bits_f32, F32.le_iff hnf hsf] at hwrap
    obtain ⟨hf, hlo, hhi⟩ := F32.sub_bounds hsf hnf hcf (by omega) (by omega)
    exact ⟨hf, hlo, hhi.trans_lt hcn⟩
  · rw [numF32_ge, numF32_add, numF32_ofInt, NumWord.bits_f32, NumWord.bits_f32, F32.le_iff hnf hsf, hnv, not_le] at hwrap
    exact ⟨hsf, hs0, hwrap⟩

/-- An advance keeps R38 (d) for one oscillator. -/
theorem oscInRange_advance {n : Nat} (h0 : 0 < n) (h : n ≤ 2 ^ 24) {o : Osc} (ho : OscInRange n o) :
    OscInRange n (advance numF32 n o) := by
  obtain ⟨hinc, hphase⟩ := ho
  unfold OscInRange
  rw [advance_inc]
  exact ⟨hinc, fun hlt => phaseInTable_advance h0 h (hphase hlt) ⟨hinc, hlt⟩⟩

/-- The oscillators of a voice that R38 (d) speaks of. -/
def VoiceInRange (n : Nat) (x : Voice) : Prop :=
  OscInRange n x.main ∧ ∀ sl ∈ x.subs, sl.live = true → OscInRange n sl.osc

/-- The live slots one sample later (R225): each advances once. -/
theorem oscInRange_advanceSlots {n : Nat} (h0 : 0 < n) (h : n ≤ 2 ^ 24) {subs : List Slot}
    (hsubs : ∀ sl ∈ subs, sl.live = true → OscInRange n sl.osc) {sl : Slot} (hsl : sl ∈ advanceSlots numF32 n subs)
    (hlive : sl.live = true) : OscInRange n sl.osc := by
  obtain ⟨sl₀, hmem, rfl⟩ := List.mem_map.1 hsl
  split_ifs at hlive ⊢ with hl
  · dsimp only
    exact oscInRange_advance h0 h (hsubs sl₀ hmem hl)
  · exact absurd hlive hl

/-- One sample of a voice keeps R38 (d): the main oscillator and the live slots advance once each (R225). -/
theorem voiceInRange_voiceLater {s : State} (hn : s.par.num = .f32) (h0 : 0 < s.par.tableSize)
    (h : s.par.tableSize ≤ 2 ^ 24) {x : Voice} (hx : VoiceInRange s.par.tableSize x)
    (hlater : (voiceLater s x).busy = true) : VoiceInRange s.par.tableSize (voiceLater s x) := by
  obtain ⟨hmain, hsubs⟩ := hx
  unfold voiceLater at hlater ⊢
  rw [fmt_f32 hn] at hlater ⊢
  dsimp only at hlater ⊢
  split_ifs at hlater ⊢
  unfold VoiceInRange
  dsimp only
  exact ⟨oscInRange_advance h0 h hmain, fun _ => oscInRange_advanceSlots h0 h hsubs⟩

/-! ### The start of a voice -/

/-- The increment of a positive frequency is not negative (R161): the rate is positive, so `num(N) / fs` has no sign. -/
theorem zero_le_increment {n : Nat} (h0 : 0 < n) (h : n ≤ 2 ^ 24) {freq fs : NumWord}
    (hf : F32.isFinite freq.bits = true) (hpos : F32.lt 0#32 freq.bits = true) (hfs : RateLegal fs) (o : Osc) :
    F32.le 0#32 (setFreq numF32 n o freq fs).inc.bits = true := by
  obtain ⟨hnf, hnpos⟩ := F32.ofInt_pos h0 h
  exact (F32.unsigned_mul hf hpos (F32.unsigned_div hnf hnpos (F32.unsigned_of_pos hfs.2))).zero_le

/-- An oscillator started at a positive frequency with a legal draw (R161, R162). -/
theorem oscInRange_started {n : Nat} (h0 : 0 < n) (h : n ≤ 2 ^ 24) {freq fs r : NumWord}
    (hf : F32.isFinite freq.bits = true) (hpos : F32.lt 0#32 freq.bits = true) (hfs : RateLegal fs)
    (hr : drawLegal numF32 n r = true) (o : Osc) : OscInRange n { setFreq numF32 n o freq fs with phase := r } :=
  ⟨zero_le_increment h0 h hf hpos hfs o, fun _ => (drawLegal_iff n r).1 hr⟩

/-- Where `MIDI_FREQ`'s words lie (R222): above zero, and at least nine units of the format. -/
theorem midiFreq_bounds (note : BitVec 7) :
    F32.isFinite (midiFreq note) = true ∧ F32.lt 0#32 (midiFreq note) = true ∧ 9 ≤ F32.units (midiFreq note) := by
  have hoct : ∀ m < 12, 0x4102D013 ≤ midiOctave.getD m 0 ∧ midiOctave.getD m 0 ≤ 0x4176F110 := by decide
  obtain ⟨hlo, hhi⟩ := hoct (note.toNat % 12) (Nat.mod_lt _ (by norm_num))
  have hnote : note.toNat / 12 ≤ 10 := by have := note.isLt; omega
  have hword : (midiFreq note).toNat = midiOctave.getD (note.toNat % 12) 0 + note.toNat / 12 * 2 ^ 23 := by
    rw [midiFreq, BitVec.toNat_ofNat]
    omega
  have hmag : F32.mag (midiFreq note) = (midiFreq note).toNat := by unfold F32.mag; omega
  have hfin : F32.isFinite (midiFreq note) = true := by
    rw [F32.finite_iff, hmag]
    unfold F32.infMag
    omega
  have hmsb : (midiFreq note).msb = false := by
    rw [BitVec.msb_eq_decide, decide_eq_false_iff_not]
    omega
  refine ⟨hfin, F32.zero_lt_iff.2 ⟨F32.not_nan_of_finite hfin, hmsb, by omega⟩, ?_⟩
  calc 9 = F32.unitsOf 9 := (F32.unitsOf_small (by norm_num)).symm
    _ ≤ F32.units (midiFreq note) :=
      (F32.unitsOf_le_iff (by unfold F32.infMag; norm_num) ((F32.finite_iff _).1 hfin).le).2 (by omega)

/-- A number of at least `n` units divided by `n` does not round to zero. -/
theorem F32.div_ofInt_pos {n : Nat} (h0 : 0 < n) (h : n ≤ 2 ^ 24) {a : Word} (hf : F32.isFinite a = true)
    (hpos : F32.lt 0#32 a = true) (hn : n ≤ F32.units a) :
    F32.isFinite (F32.div a (F32.ofInt n)) = true ∧ F32.lt 0#32 (F32.div a (F32.ofInt n)) = true := by
  obtain ⟨hnf, hnpos⟩ := F32.ofInt_pos h0 h
  obtain ⟨-, -, hnmag⟩ := F32.zero_lt_iff.1 hnpos
  have hunits : F32.units (F32.ofInt n) = n * F32.one := by
    rw [F32.units, ← F32.natAbs_value, (F32.ofInt_nat h0 h).2, Int.natAbs_natCast]
  have hge : F32.one ≤ F32.units (F32.ofInt n) := by
    rw [hunits]
    exact Nat.le_mul_of_pos_left _ h0
  obtain ⟨hnan, hmsb⟩ := F32.unsigned_div hf hpos (F32.unsigned_of_pos hnpos)
  refine ⟨?_, F32.zero_lt_iff.2 ⟨hnan, hmsb, ?_⟩⟩
  · exact F32.finite_of_mag_le ((F32.finite_iff a).1 hf)
      (F32.mag_div_le hf hnf hnmag ((F32.finite_iff a).1 hf).le (Nat.mul_le_mul_left _ hge))
  · rw [F32.div_of_finite hf hnf hnmag, F32.mag_pack _ (F32.roundUnits_le _ _)]
    have hleast : 1 ≤ F32.roundUnits (F32.units a * F32.one) (F32.units (F32.ofInt n)) := by
      refine F32.le_roundUnits_of_le (F32.units_pos hnmag) (by unfold F32.infMag; norm_num) ?_
      rw [F32.unitsOf_small (by norm_num), one_mul, hunits]
      exact Nat.mul_le_mul_right _ hn
    omega

/-- The frequency of each of the eight slots is above zero (R223). -/
theorem slotFreq_pos (note : BitVec 7) {i : Nat} (hi : i < 8) :
    F32.isFinite (slotFreq numF32 (numF32.midi note) i).bits = true ∧
      F32.lt 0#32 (slotFreq numF32 (numF32.midi note) i).bits = true := by
  obtain ⟨hf, hpos, hunits⟩ := midiFreq_bounds note
  exact F32.div_ofInt_pos (n := i + 2) (by omega) (by omega) hf hpos (le_trans (by omega) hunits)

/-- Every offered draw is legal (R15). -/
def OffersLegal (n : Nat) (r : Rnd) : Prop := ∀ x ∈ r.offered, drawLegal numF32 n x = true

/-- The slots a note starts are in range, and the draws still offered are legal (R223). -/
theorem startSlots_inRange {n count : Nat} (h0 : 0 < n) (h : n ≤ 2 ^ 24) (hcount : count ≤ 8) (note : BitVec 7)
    {fs : NumWord} (hfs : RateLegal fs) (i : Nat) {r : Rnd} (hr : OffersLegal n r) (subs : List Slot) :
    (∀ sl ∈ (startSlots numF32 n count (numF32.midi note) fs i r subs).1, sl.live = true → OscInRange n sl.osc) ∧
      OffersLegal n (startSlots numF32 n count (numF32.midi note) fs i r subs).2 := by
  induction subs generalizing i r with
  | nil => exact ⟨fun sl hsl => absurd hsl List.not_mem_nil, hr⟩
  | cons sl rest ih =>
    unfold startSlots
    split_ifs with hlive
    · obtain ⟨hdraw, hoffers⟩ := draw_legal h0 h hr
      obtain ⟨hslots, hleft⟩ := ih (i + 1) hoffers
      obtain ⟨hf, hpos⟩ := slotFreq_pos note (i := i) (by omega)
      exact ⟨List.forall_mem_cons.2 ⟨fun _ => oscInRange_started h0 h hf hpos hfs hdraw sl.osc, hslots⟩, hleft⟩
    · obtain ⟨hslots, hleft⟩ := ih (i + 1) hr
      exact ⟨List.forall_mem_cons.2 ⟨fun hl => absurd hl (by simp), hslots⟩, hleft⟩

/-- A started voice is in range, and the draws still offered are legal (R223). -/
theorem startVoice_inRange {s : State} (hn : s.par.num = .f32) (h0 : 0 < s.par.tableSize)
    (h : s.par.tableSize ≤ 2 ^ 24) (hfs : RateLegal s.cfg.fs) (hr : OffersLegal s.par.tableSize s.rnd) (x : Voice)
    (note : BitVec 7) (vel : NumWord) (k : Kind) (sc : Int) :
    VoiceInRange s.par.tableSize (startVoice s x note vel k sc).1 ∧
      OffersLegal s.par.tableSize (startVoice s x note vel k sc).2 := by
  have hfmt : s.par.fmt = numF32 := fmt_f32 hn
  obtain ⟨hdraw, hoffers⟩ := draw_legal h0 h hr
  obtain ⟨hslots, hleft⟩ := startSlots_inRange h0 h (slotCount_le sc) note hfs 0 hoffers x.subs
  obtain ⟨hf, hpos, -⟩ := midiFreq_bounds note
  unfold startVoice VoiceInRange
  rw [hfmt]
  exact ⟨⟨oscInRange_started (freq := numF32.midi note) h0 h hf hpos hfs hdraw x.main, hslots⟩, hleft⟩

/-! ### The invariant -/

theorem phasesInRange_iff (s : State) :
    PhasesInRange s ↔ s.par.num = .f32 ∧ s.uops = [] ∧ s.par.tableSize ≤ 2 ^ 24 ∧ OffersLegal s.par.tableSize s.rnd ∧
      (s.prepared = true → RateLegal s.cfg.fs) ∧ ∀ x ∈ s.voices, x.busy = true → VoiceInRange s.par.tableSize x := Iff.rfl

/-- After reset no voice is busy; the table length and the draws offered are the host's. -/
theorem AtReset.phasesInRange {s : State} (h : AtReset s) (hn : s.par.num = .f32) (hsize : s.par.tableSize ≤ 2 ^ 24)
    (hr : OffersLegal s.par.tableSize s.rnd) : PhasesInRange s := by
  refine (phasesInRange_iff s).2 ⟨hn, h.uops, hsize, hr, fun hp => absurd hp (by simp [h.prepared]), fun x hx hb => ?_⟩
  rw [(h.voiceAtRest hx).1] at hb
  cases hb

/-- Every host command keeps the phases of busy voices in the table. -/
theorem phasesInRange_command {i : Instr} {s t : State} (hi : i.isInternal = false) (h0 : 0 < s.par.tableSize)
    (hs : PhasesInRange s) (h : exec i s = .next t) : PhasesInRange t := by
  obtain ⟨hn, huops, hsize, hoffers, hrate, hvoices⟩ := (phasesInRange_iff s).1 hs
  have hpar : t.par = s.par := (exec_sameShape h).1
  suffices hnew : OffersLegal s.par.tableSize t.rnd ∧ (t.prepared = true → RateLegal t.cfg.fs) ∧
      ∀ x ∈ t.voices, x.busy = true → VoiceInRange s.par.tableSize x by
    rw [phasesInRange_iff, hpar]
    exact ⟨hn, (exec_command_uops hi h).trans huops, hsize, hnew⟩
  cases exec_voiceEffect hi h with
  | kept voices prepared fs rnd =>
    rw [voices, prepared, fs, rnd]
    exact ⟨hoffers, hrate, hvoices⟩
  | allReset voices rnd rate =>
    rw [fmt_f32 hn] at rate
    rw [voices, rnd]
    exact ⟨hoffers, rate, List.forall_mem_map.2 fun x _ hb => by cases hb⟩
  | started v x note vel k sc prepared voice next =>
    subst next
    obtain ⟨hstarted, hleft⟩ := startVoice_inRange hn h0 hsize (hrate prepared) hoffers x note vel k sc
    refine ⟨hleft, hrate, fun y hy hb => ?_⟩
    obtain rfl | hy := mem_setVoice hy
    · exact hstarted
    · exact hvoices y hy hb
  | released v x voice busy next =>
    subst next
    refine ⟨hoffers, hrate, fun y hy hb => ?_⟩
    obtain rfl | hy := mem_setVoice hy
    · exact hvoices x (List.mem_of_getElem? voice) busy
    · exact hvoices y hy hb
  | rendered start count b b' ys prepared render next =>
    subst next
    exact ⟨hoffers, hrate, renderVoices_keeps (P := fun x => x.busy = true → VoiceInRange s.par.tableSize x)
      (fun x hb hx => voiceInRange_voiceLater hn h0 hsize (hx hb)) hvoices render⟩

/-- Settles O56: draws are legal, increments are not negative, and an advance by one below `num(N)` stays in the
table. -/
theorem stepKeepsPhasesInRange : Obligations.StepKeepsPhasesInRange := fun _ _ hs h =>
  step_keeps_of_command (P := PhasesInRange) (fun _ hu => hu.2.1) (fun _ _ _ _ _ hu => hu)
    (fun u hu => by
      obtain ⟨hn, -, hsize, hoffers, -⟩ := (phasesInRange_iff u).1 hu
      exact (atReset_applyReset u).phasesInRange hn hsize hoffers)
    (fun _ _ _ hi hlegal hu he => phasesInRange_command hi (tableSize_pos_of_legal hlegal) hu he) hs h

/-! ### After reset -/

theorem AtReset.memoriesLegal {s : State} (h : AtReset s) : MemoriesLegal s := by
  have htbl : ∀ k, s.tbl.get k = [] := fun k => by rw [h.tbl, PerKind.get_all]
  refine ⟨fun k => by rw [htbl k]; rfl, by rw [h.buf]; rfl, fun k c hc => ?_, fun c hc => ?_⟩
  · rw [htbl k] at hc
    cases hc
  · rw [h.buf] at hc
    cases hc

theorem AtReset.shapeLegal {s : State} (h : AtReset s) : ShapeLegal s := by
  rw [shapeLegal_iff, slotCounts, h.voices]
  simp [Voice.atReset]

/-- Settles O59: power-up leaves the block `AtReset`, in the default configuration and with no draw offered. -/
theorem resetMeetsTheInvariants : Obligations.ResetMeetsTheInvariants :=
  have hr : AtReset State.reset := atReset_reset
  ⟨hr.memoriesLegal, hr.tablesClosed, hr.controlLegal rfl, hr.voicesConsistent,
    hr.phasesInRange rfl (by decide) (fun _ hx => absurd hx List.not_mem_nil), hr.levelsInRange rfl, hr.shapeLegal⟩

end Sys2Proof.Machine
end

/-! The two memories (20_memory.md R61, R62, R64, R65): what every instruction does to them, that their cells stay at
addresses that exist and in rising order, and which commands reach them, the voices and the random source. -/

section
namespace Sys2Proof.Machine

/-! ### Legal tables -/

/-- A table is canonical and lists only words that exist (20_memory.md R61). -/
def TableLegal (p : Params) (m : Mem) : Prop := m.wf = true ∧ ∀ c ∈ m, c.1 ≤ p.tableSize

theorem memoriesLegal_iff (s : State) :
    MemoriesLegal s ↔ (∀ k, TableLegal s.par (s.tbl.get k)) ∧ BufLegal s.par s.buf := by
  constructor
  · rintro ⟨tblWf, bufWf, tblCells, bufCells⟩
    exact ⟨fun k => ⟨tblWf k, tblCells k⟩, bufWf, bufCells⟩
  · rintro ⟨htbl, bufWf, bufCells⟩
    exact ⟨fun k => (htbl k).1, bufWf, fun k => (htbl k).2, bufCells⟩

theorem tableLegal_nil (p : Params) : TableLegal p [] := ⟨rfl, fun _ hc => absurd hc List.not_mem_nil⟩

theorem bufLegal_nil (p : Params) : BufLegal p [] := ⟨rfl, fun _ hc => absurd hc List.not_mem_nil⟩

/-- The `N + 1` words of a build fill the addresses 0 to `N` (R131, R138). -/
theorem tableLegal_of_built {p : Params} {k : Kind} {harm : Nat} {f0 fs : NumWord} {words : List NumWord}
    (h : buildWords p.fmt p.tableSize k harm f0 fs = .ok words) : TableLegal p (Mem.fromWords 0 words) := by
  refine ⟨Mem.wf_fromWords 0 words, fun c hc => ?_⟩
  have hlen := buildWords_length h
  have hlast := (Mem.mem_fromWords hc).2
  omega

theorem tableLegal_buildTable {s t : State} {k : Kind} {harm : BitVec 5} {f0 fs : NumWord}
    (hs : ∀ k', TableLegal s.par (s.tbl.get k')) (h : buildTable s k harm f0 fs = .ok t) (k' : Kind) :
    TableLegal s.par (t.tbl.get k') := by
  obtain ⟨words, hbuilt, rfl⟩ := buildTable_eq_ok.1 h
  by_cases hk : k' = k
  · subst hk
    rw [PerKind.get_set_same]
    exact tableLegal_of_built hbuilt
  · rw [PerKind.get_set_other _ _ hk]
    exact hs k'

theorem tableLegal_rebuildTables {s t : State} (h : rebuildTables s = .ok t) (k : Kind) :
    TableLegal s.par (t.tbl.get k) := by
  obtain ⟨words, hbuilt, rfl⟩ := rebuildTables_eq_ok.1 h
  cases k <;> exact tableLegal_of_built (hbuilt _)

/-! ### The memories and the host commands -/

/-- What the host command `i` does to the two memories and to the random source: RELEASE can forget both memories,
PREPARE and SET_HARM can replace every table, RENDER alone writes the buffer, and NOTE_ON alone draws; the memories it
writes it leaves legal. -/
inductive MemoryEffect (s t : State) : Instr → Prop where
  | kept {i : Instr} (tbl : t.tbl = s.tbl) (buf : t.buf = s.buf) (rnd : t.rnd = s.rnd) : MemoryEffect s t i
  | forgotten (tbl : t.tbl = PerKind.all []) (buf : t.buf = []) (rnd : t.rnd = s.rnd) : MemoryEffect s t .release
  | rebuilt {i : Instr} (command : (∃ mb fs, i = .prepare mb fs) ∨ ∃ n, i = .setHarm n)
      (tbl : ∀ k, TableLegal s.par (t.tbl.get k)) (buf : t.buf = s.buf) (rnd : t.rnd = s.rnd) : MemoryEffect s t i
  | drew (note : BitVec 7) (vel : Word) (tbl : t.tbl = s.tbl) (buf : t.buf = s.buf) :
      MemoryEffect s t (.noteOn note vel)
  | rendered (start num : BitVec 16) (tbl : t.tbl = s.tbl) (buf : BufLegal s.par s.buf → BufLegal s.par t.buf)
      (rnd : t.rnd = s.rnd) : MemoryEffect s t (.render start num)

/-- `rebuild_all` leaves the buffer and the random source alone. -/
theorem rebuildTables_buf_rnd {s t : State} (h : rebuildTables s = .ok t) : t.buf = s.buf ∧ t.rnd = s.rnd := by
  obtain ⟨words, -, rfl⟩ := rebuildTables_eq_ok.1 h
  exact ⟨rfl, rfl⟩

theorem exec_memoryEffect {i : Instr} {s t : State} (hi : i.isInternal = false) (h : exec i s = .next t) :
    MemoryEffect s t i := by
  cases i with
  | prepare maxblk rate =>
    obtain ⟨-, -, -, -, u, hu, rfl⟩ := prepareBlock_eq_ok.1 ((finish_eq_next _ _).1 h)
    obtain ⟨buf, rnd⟩ := rebuildTables_buf_rnd hu
    have tbl := tableLegal_rebuildTables hu
    exact .rebuilt (.inl ⟨_, _, rfl⟩) tbl buf rnd
  | release =>
    cases h
    unfold releaseBlock
    split
    · exact .forgotten rfl rfl rfl
    · exact .kept rfl rfl rfl
  | setWave | setSub => cases h; exact .kept rfl rfl rfl
  | setHarm imm16 =>
    obtain ⟨-, hu⟩ | ⟨-, rfl⟩ := setHarmonics_eq_ok.1 ((finish_eq_next _ _).1 h)
    · obtain ⟨buf, rnd⟩ := rebuildTables_buf_rnd hu
      have tbl := tableLegal_rebuildTables hu
      exact .rebuilt (.inr ⟨_, rfl⟩) tbl buf rnd
    · exact .kept rfl rfl rfl
  | setAdsr attack decay sustain rel =>
    obtain ⟨-, u, rfl, rfl⟩ := setEnvelope_eq_ok.1 ((finish_eq_next _ _).1 h)
    split <;> exact .kept rfl rfl rfl
  | noteOn note velocity =>
    obtain ⟨-, -, ⟨-, rfl⟩ | ⟨v, -, hv⟩⟩ := noteOn_eq_ok.1 ((finish_eq_next _ _).1 h)
    · exact .kept rfl rfl rfl
    · obtain ⟨x, -, rfl⟩ := voiceNoteOn_eq_ok.1 hv
      exact .drew note velocity rfl rfl
  | noteOff tail note velocity =>
    obtain ⟨-, ⟨-, rfl⟩ | ⟨v, x, -, -, rfl⟩⟩ := noteOff_eq_ok.1 ((finish_eq_next _ _).1 h) <;> exact .kept rfl rfl rfl
  | render start num =>
    obtain ⟨-, -, -, b, ys, b', hclear, hrender, rfl⟩ := renderBlock_eq_ok.1 ((finish_eq_next _ _).1 h)
    exact .rendered start num rfl (fun hs => bufLegal_renderVoices (bufLegal_clearFrames hs hclear) hrender) rfl
  | _ => cases hi

theorem memoriesLegal_command {i : Instr} {s t : State} (hi : i.isInternal = false) (hs : MemoriesLegal s)
    (h : exec i s = .next t) : MemoriesLegal t := by
  obtain ⟨htbl, hbuf⟩ := (memoriesLegal_iff s).1 hs
  rw [memoriesLegal_iff, (exec_sameShape h).1]
  cases exec_memoryEffect hi h with
  | kept tbl buf | drew _ _ tbl buf => exact ⟨tbl ▸ htbl, buf ▸ hbuf⟩
  | forgotten tbl buf =>
    refine ⟨fun k => ?_, buf ▸ bufLegal_nil s.par⟩
    rw [tbl, PerKind.get_all]
    exact tableLegal_nil s.par
  | rebuilt _ tbl buf => exact ⟨tbl, buf ▸ hbuf⟩
  | rendered _ _ tbl buf => exact ⟨tbl ▸ htbl, buf hbuf⟩

/-! ### The memories and the internal operations -/

theorem bufLegal_renderVoice {s : State} {a count : Nat} {x x' : Voice} {b b' : Mem} (hb : BufLegal s.par b)
    (h : renderVoice s a count x b = .ok (x', b')) : BufLegal s.par b' :=
  have hone : renderVoices s a count [x] b = .ok ([x'], b') := by simp only [renderVoices, h, ok_bind]
  bufLegal_renderVoices hb hone

/-- Only `voice_render`, `buf_clear` and `mix_acc` write the buffer, at frames that exist (R225, R251, R253). -/
theorem bufLegal_internal {i : Instr} {s t : State} (hi : i.isInternal = true) (hs : BufLegal s.par s.buf)
    (h : exec i s = .next t) : BufLegal s.par t.buf := by
  cases i with
  | prepare | release | setWave | setHarm | setSub | setAdsr | noteOn | noteOff | render => cases hi
  | build kind harm f0 fs =>
    obtain ⟨words, -, rfl⟩ := buildTable_eq_ok.1 ((finish_eq_next _ _).1 h)
    exact hs
  | rebuildAll =>
    obtain ⟨buf, -⟩ := rebuildTables_buf_rnd ((finish_eq_next _ _).1 h)
    exact buf ▸ hs
  | oscSetFreq | oscSetRandomPhase | oscAdvance | oscStop | oscReset | envTrigger | envRelease | envReset
  | voiceNoteOff | voiceReset =>
    obtain ⟨x, -, rfl⟩ := onVoice_eq_ok.1 ((finish_eq_next _ _).1 h)
    exact hs
  | oscNextSample v o kind =>
    simp only [exec, execOscNextSample, finish_eq_next, bind_eq_ok] at h
    obtain ⟨x, -, ⟨y, o'⟩, -, ht⟩ := h
    cases ht
    exact hs
  | tblInterp kind phase =>
    simp only [exec, execTblInterp, finish_eq_next, bind_eq_ok] at h
    obtain ⟨y, -, ht⟩ := h
    cases ht
    exact hs
  | envRates => cases h; exact hs
  | envNext v =>
    simp only [exec, execEnvNext, finish_eq_next, bind_eq_ok] at h
    obtain ⟨x, -, ht⟩ := h
    cases ht
    exact hs
  | voiceNoteOn v note vel kind sc =>
    obtain ⟨x, -, rfl⟩ := voiceNoteOn_eq_ok.1 ((finish_eq_next _ _).1 h)
    exact hs
  | voiceRender v start num =>
    simp only [exec, execVoiceRender, finish_eq_next, bind_eq_ok] at h
    obtain ⟨x, -, ⟨x', b⟩, hrender, ht⟩ := h
    cases ht
    exact bufLegal_renderVoice hs hrender
  | bufClear start num =>
    have hclear := (finish_eq_next _ _).1 h
    unfold bufClear at hclear
    split at hclear
    · next b hb => cases hclear; exact bufLegal_clearFrames hs hb
    · cases hclear
  | mixAcc a y =>
    simp only [exec, execMixAcc, finish_eq_next, bind_eq_ok] at h
    obtain ⟨b, hmix, ht⟩ := h
    cases ht
    exact bufLegal_mixAcc hs hmix

theorem memoriesLegal_internal {i : Instr} {s t : State} (hi : i.isInternal = true) (hs : MemoriesLegal s)
    (h : exec i s = .next t) : MemoriesLegal t := by
  obtain ⟨htbl, hbuf⟩ := (memoriesLegal_iff s).1 hs
  rw [memoriesLegal_iff, (exec_sameShape h).1]
  refine ⟨?_, bufLegal_internal hi hbuf h⟩
  obtain ⟨k, harm, f0, fs, hb⟩ | hb | hsame := exec_internal_cases hi h
  · exact tableLegal_buildTable htbl hb
  · exact tableLegal_rebuildTables hb
  · rwa [hsame.tbl]

theorem memoriesLegal_exec {i : Instr} {s t : State} (hs : MemoriesLegal s) (h : exec i s = .next t) :
    MemoriesLegal t := by
  cases hi : i.isInternal with
  | false => exact memoriesLegal_command hi hs h
  | true => exact memoriesLegal_internal hi hs h

/-- Settles O52: reset empties both memories, and every instruction keeps, empties or replaces each of them, or writes
it at addresses that exist. -/
theorem stepKeepsMemoriesLegal : Obligations.StepKeepsMemoriesLegal := fun _ _ hs h =>
  step_keeps_of_exec (P := MemoriesLegal) (fun _ _ _ _ _ hu => hu) (fun _ _ hu => hu)
    (fun u _ => (atReset_applyReset u).memoriesLegal) (fun _ _ _ _ hu hi => memoriesLegal_exec hu hi) hs h

/-! ### Which command does what -/

/-- Every voice that is busy afterwards was busy before. -/
def NoVoiceStarts (s t : State) : Prop :=
  ∀ (v : Nat) (x y : Voice), s.voices[v]? = some x → t.voices[v]? = some y → y.busy = true → x.busy = true

/-- A voice that starts draws its main oscillator's phase (R223, R348). -/
theorem startVoice_draws (s : State) (x : Voice) (note : BitVec 7) (vel : NumWord) (k : Kind) (sc : Int) :
    (startVoice s x note vel k sc).2 ≠ s.rnd := by
  intro hsame
  have htaken : (startVoice s x note vel k sc).2.taken = s.rnd.taken := by rw [hsame]
  obtain ⟨hdraw, -⟩ := draw_cases s.par.fmt s.par.tableSize s.rnd
  simp only [startVoice, startSlots_taken, hdraw] at htaken
  omega

/-- A command that consumes no draw makes no voice busy (R228 (a)). -/
theorem VoiceEffect.noVoiceStarts {s t : State} (h : VoiceEffect s t) (hrnd : t.rnd = s.rnd) : NoVoiceStarts s t := by
  intro v x y hx hy hbusy
  cases h with
  | kept voices =>
    rw [voices, hx] at hy
    cases hy
    exact hbusy
  | allReset voices =>
    rw [voices, List.getElem?_map, hx] at hy
    cases hy
    cases hbusy
  | started u z note vel k sc _ _ next =>
    subst next
    exact absurd hrnd (startVoice_draws s z note vel k sc)
  | released u z voice busy next =>
    subst next
    by_cases huv : u = v
    · subst huv
      cases voice.symm.trans hx
      exact busy
    · rw [setVoice_voices, List.getElem?_set_ne huv, hx] at hy
      cases hy
      exact hbusy
  | rendered start count b b' ys _ render next =>
    subst next
    obtain ⟨-, hvoices, -⟩ := renderVoices_frame render
    obtain ⟨-, hkept, -⟩ := hvoices v x y hx hy
    exact hkept hbusy

/-- Settles O60: the memories and the draws by the effect of each command on them; and a command that draws nothing
starts no voice. -/
theorem onlyTheseCommandsDoThat : Obligations.OnlyTheseCommandsDoThat := by
  intro i s t hi h
  have hquiet (hrnd : t.rnd = s.rnd) : NoVoiceStarts s t := (exec_voiceEffect hi h).noVoiceStarts hrnd
  cases exec_memoryEffect hi h with
  | kept tbl buf rnd => exact ⟨.inl buf, .inl tbl, .inl (hquiet rnd), .inl rnd⟩
  | forgotten tbl buf rnd => exact ⟨.inr (.inl rfl), .inr (.inl rfl), .inl (hquiet rnd), .inl rnd⟩
  | rebuilt command tbl buf rnd => exact ⟨.inl buf, .inr (.inr command), .inl (hquiet rnd), .inl rnd⟩
  | drew note vel tbl buf => exact ⟨.inl buf, .inl tbl, .inr ⟨note, vel, rfl⟩, .inr ⟨note, vel, rfl⟩⟩
  | rendered start num tbl _ rnd =>
    exact ⟨.inr (.inr ⟨start, num, rfl⟩), .inl tbl, .inl (hquiet rnd), .inl rnd⟩

end Sys2Proof.Machine
end

/-! The two ends of the block's input: the bytes of a word on a byte-wide transport (20_memory.md R67; 30_encoding.md
R108), and the instruction a slot takes from the words and requests that wait (20_memory.md R71, R72). -/

section
namespace Sys2Proof.Machine

/-! ### The byte-wide transport -/

/-- A word is its four bytes, the least significant one last in the concatenation. -/
theorem append_bytes (w : Word) :
    w.extractLsb' 24 8 ++ w.extractLsb' 16 8 ++ w.extractLsb' 8 8 ++ w.extractLsb' 0 8 = w := by
  rw [BitVec.extractLsb'_append_extractLsb'_eq_extractLsb' (show 24 = 16 + 8 from rfl),
    BitVec.extractLsb'_append_extractLsb'_eq_extractLsb' (show 16 = 8 + 8 from rfl),
    BitVec.extractLsb'_append_extractLsb'_eq_extractLsb' (show 8 = 0 + 8 from rfl)]
  exact BitVec.extractLsb'_eq_self

/-- What arrives starts with a sent word's bytes: the word is received, then the rest. -/
theorem wordsOfBytes_bytesOfWord_append (w : Word) (bytes : List (BitVec 8)) :
    wordsOfBytes (bytesOfWord w ++ bytes) = w :: wordsOfBytes bytes :=
  congrArg (· :: wordsOfBytes bytes) (append_bytes w)

/-- Settles O6, by induction on the words sent. -/
theorem byteTransportKeepsTheWords : Obligations.ByteTransportKeepsTheWords := by
  refine ⟨fun ws => ?_, by decide⟩
  induction ws with
  | nil => rfl
  | cons w rest ih => rw [List.flatMap_cons, wordsOfBytes_bytesOfWord_append, ih]

/-! ### What a slot takes -/

theorem fetch_request {s : State} {r : UopRequest} {rest : List UopRequest} {i : Instr} (hu : s.uops = r :: rest)
    (hd : decodeUop r = .ok i) : fetch s = .runs i { s with uops := rest } := by
  simp only [fetch, hu, hd]

theorem fetch_rt {s : State} {i : Instr} {rest : List Word} (hu : s.uops = [])
    (hrt : decode s.rt = .ok (i, rest)) : fetch s = .runs i { s with rt := rest } := by
  simp only [fetch, hu, fetchPorts, hrt]

/-- A port whose command is not complete does not hold the other up (log entry 11). -/
theorem fetch_of_rt_incomplete {s : State} (hu : s.uops = []) (hrt : decode s.rt = .error .incomplete) :
    fetch s = fetchCtl s := by
  simp only [fetch, hu, fetchPorts, hrt]

theorem fetchCtl_runs {s : State} {i : Instr} {rest : List Word} (hctl : decode s.ctl = .ok (i, rest)) :
    fetchCtl s = .runs i { s with ctl := rest } := by
  simp only [fetchCtl, hctl]

theorem fetchCtl_waits {s : State} (hctl : decode s.ctl = .error .incomplete) : fetchCtl s = .waits := by
  simp only [fetchCtl, hctl]

theorem step_of_runs {s t : State} {i : Instr} (hp : paramsLegal s.par = true)
    (hf : fetch (openSlot s) = .runs i t) : step s = exec i t := by
  simp [step, hp, hf]

theorem step_of_waits {s : State} (hp : paramsLegal s.par = true) (hf : fetch (openSlot s) = .waits) :
    step s = .next (openSlot s) := by
  simp [step, hp, hf]

/-- Settles O7: the opening of the slot keeps the parameters, and a step runs what the slot takes. -/
theorem stepRunsTheDecodedInstruction : Obligations.StepRunsTheDecodedInstruction := by
  intro s hp
  refine ⟨(openSlot_keepsShape s).1, fun r rest i hu hd => ?_, fun i rest hu hrt => ?_,
    fun i rest hu hrt hctl => ?_, fun hu hrt hctl => ?_⟩
  · exact step_of_runs hp (fetch_request hu hd)
  · exact step_of_runs hp (fetch_rt hu hrt)
  · exact step_of_runs hp ((fetch_of_rt_incomplete hu hrt).trans (fetchCtl_runs hctl))
  · exact step_of_waits hp ((fetch_of_rt_incomplete hu hrt).trans (fetchCtl_waits hctl))

end Sys2Proof.Machine
end

/-! The opcode map as the encoding of the commands (30_encoding.md R91 to R101, R106): the header words each row admits,
the one inversion of the decoder, and that decoding and encoding undo each other. -/

section
namespace Sys2Proof

/-! ### Words under a mask -/

/-- A run of bits is its high part before its low part. -/
theorem extractLsb'_eq_append {m n k start : Nat} {w : BitVec m} {hi : BitVec n} {lo : BitVec k}
    (hhi : w.extractLsb' (start + k) n = hi) (hlo : w.extractLsb' start k = lo) :
    w.extractLsb' start (n + k) = hi ++ lo := by
  rw [← hhi, ← hlo, BitVec.extractLsb'_append_extractLsb'_eq_extractLsb' rfl]

/-- A word shows a pattern under a mask exactly when it is the pattern with the word's own bits outside the mask. -/
theorem and_mask_eq_iff {n : Nat} {w mask pattern : BitVec n} (hp : pattern &&& mask = pattern) :
    w &&& mask = pattern ↔ pattern ||| w &&& ~~~mask = w := by
  constructor
  · rintro rfl
    ext i hi
    cases h : mask[i] <;> simp [h]
  · intro h
    rw [← h, ← hp]
    ext i hi
    cases hm : mask[i] <;> simp [hm]

/-- The bits a mask fixes are the pattern's. -/
theorem extractLsb'_of_fixed {n k len : Nat} {w mask pattern : BitVec n}
    (hm : mask.extractLsb' k len = BitVec.allOnes len) :
    (pattern ||| w &&& ~~~mask).extractLsb' k len = pattern.extractLsb' k len := by
  refine BitVec.eq_of_getLsbD_eq fun i hi => ?_
  have hbit : mask.getLsbD (k + i) = true := by simpa [hi] using congrArg (·.getLsbD i) hm
  simp [hi, hbit]

/-- The bits a mask leaves open are the word's own. -/
theorem extractLsb'_of_open {n k len : Nat} {w mask pattern : BitVec n} (hn : k + len ≤ n)
    (hm : mask.extractLsb' k len = 0#len) (hp : pattern.extractLsb' k len = 0#len) :
    (pattern ||| w &&& ~~~mask).extractLsb' k len = w.extractLsb' k len := by
  refine BitVec.eq_of_getLsbD_eq fun i hi => ?_
  have hbit : mask.getLsbD (k + i) = false := by simpa [hi] using congrArg (·.getLsbD i) hm
  have hpat : pattern.getLsbD (k + i) = false := by simpa [hi] using congrArg (·.getLsbD i) hp
  have hlt : k + i < n := by omega
  simp only [BitVec.getLsbD_extractLsb', BitVec.getLsbD_or, BitVec.getLsbD_and, BitVec.getLsbD_not, hi, hbit, hpat, hlt,
    decide_true, Bool.true_and, Bool.false_or, Bool.not_false, Bool.and_true]

/-! ### The rows of the opcode map -/

/-- The row of the opcode map (R100) of a command. -/
def Cmd.row : Cmd → OpcodeRow
  | .prepare => ⟨.prepare, 0x01000000#32, 0xFFFF0000#32, 1⟩
  | .release => ⟨.release, 0x02000000#32, 0xFFFFFFFF#32, 0⟩
  | .setWave => ⟨.setWave, 0x10000000#32, 0xFFFFFFFC#32, 0⟩
  | .setHarm => ⟨.setHarm, 0x11000000#32, 0xFFFF0000#32, 0⟩
  | .setSub => ⟨.setSub, 0x12000000#32, 0xFFFF0000#32, 0⟩
  | .setAdsr => ⟨.setAdsr, 0x13000000#32, 0xFFFFFFFF#32, 4⟩
  | .noteOn => ⟨.noteOn, 0x20000000#32, 0xFFFFFF80#32, 1⟩
  | .noteOff => ⟨.noteOff, 0x21000000#32, 0xFFFFFE80#32, 1⟩
  | .render => ⟨.render, 0x30000000#32, 0xFFFF0000#32, 1⟩

theorem mem_opcodeMap_iff {r : OpcodeRow} : r ∈ opcodeMap ↔ ∃ c : Cmd, r = c.row := by
  constructor
  · intro h
    refine ⟨r.cmd, ?_⟩
    revert r
    decide
  · rintro ⟨c, rfl⟩
    cases c <;> decide

/-- Settles O3: a word that two rows select shows either pattern under both masks, and on both masks no two patterns of
the map agree. -/
theorem headerSelectsAtMostOneRow : Obligations.HeaderSelectsAtMostOneRow := by
  intro w r r' hr hr' h h'
  have hagree : r.pattern &&& r'.mask = r'.pattern &&& r.mask := by
    rw [← h, ← h', BitVec.and_assoc, BitVec.and_assoc, BitVec.and_comm r.mask]
  have hmap : ∀ r ∈ opcodeMap, ∀ r' ∈ opcodeMap,
      r.pattern &&& r'.mask = r'.pattern &&& r.mask → r = r' := by decide
  exact hmap r hr r' hr' hagree

/-- A header selects no row exactly when it matches none of the patterns (R101). -/
theorem rowOf_eq_none_iff {w : Word} : rowOf w = none ↔ ∀ r ∈ opcodeMap, w &&& r.mask ≠ r.pattern := by
  simp [rowOf, OpcodeRow.selects]

theorem rowOf_eq_some_iff {w : Word} {r : OpcodeRow} :
    rowOf w = some r ↔ ∃ c : Cmd, r = c.row ∧ w &&& c.row.mask = c.row.pattern := by
  constructor
  · intro h
    obtain ⟨c, rfl⟩ := mem_opcodeMap_iff.1 (List.mem_of_find?_eq_some h)
    exact ⟨c, rfl, by simpa [OpcodeRow.selects] using List.find?_some h⟩
  · rintro ⟨c, rfl, h⟩
    cases hrow : rowOf w with
    | none => exact absurd h (rowOf_eq_none_iff.1 hrow _ (mem_opcodeMap_iff.2 ⟨c, rfl⟩))
    | some r =>
      have hsel : w &&& r.mask = r.pattern := by simpa [OpcodeRow.selects] using List.find?_some hrow
      rw [headerSelectsAtMostOneRow w r c.row (List.mem_of_find?_eq_some hrow) (mem_opcodeMap_iff.2 ⟨c, rfl⟩) hsel h]

/-! ### The headers of a row -/

/-- The header `encode` writes for a command, from the fields that `decode` reads in a word (R91 to R98). -/
def Cmd.headerOf (c : Cmd) (w : Word) : Word :=
  match c with
  | .prepare => header 0x01#8 (0#8 ++ low16 w)
  | .release => header 0x02#8 0#24
  | .setWave => header 0x10#8 (0#22 ++ w.extractLsb' 0 2)
  | .setHarm => header 0x11#8 (0#8 ++ low16 w)
  | .setSub => header 0x12#8 (0#8 ++ low16 w)
  | .setAdsr => header 0x13#8 0#24
  | .noteOn => header 0x20#8 (0#17 ++ noteField w)
  | .noteOff => header 0x21#8 (0#15 ++ BitVec.ofBool (tField w) ++ 0#1 ++ noteField w)
  | .render => header 0x30#8 (0#8 ++ low16 w)

theorem eq_header {w : Word} {op : BitVec 8} {field : BitVec 24} (hop : w.extractLsb' 24 8 = op)
    (hfield : w.extractLsb' 0 24 = field) : w = header op field :=
  BitVec.extractLsb'_eq_self.symm.trans (extractLsb'_eq_append (n := 8) (k := 24) hop hfield)

theorem ofBool_tField (w : Word) : BitVec.ofBool (tField w) = w.extractLsb' 8 1 := by
  apply BitVec.eq_of_getLsbD_eq
  intro i hi
  obtain rfl : i = 0 := by omega
  simp [tField]

/-- The pattern of a row with a word's own bits where the mask is open is the header of the word's fields. -/
theorem masked_eq_headerOf (w : Word) (c : Cmd) : c.row.pattern ||| w &&& ~~~c.row.mask = c.headerOf w := by
  cases c with
  | prepare | setHarm | setSub | render =>
    exact eq_header (extractLsb'_of_fixed rfl) (extractLsb'_eq_append (n := 8) (k := 16)
      (extractLsb'_of_fixed rfl) (extractLsb'_of_open (by decide) rfl rfl))
  | release | setAdsr => exact eq_header (extractLsb'_of_fixed rfl) (extractLsb'_of_fixed rfl)
  | setWave =>
    exact eq_header (extractLsb'_of_fixed rfl) (extractLsb'_eq_append (n := 22) (k := 2)
      (extractLsb'_of_fixed rfl) (extractLsb'_of_open (by decide) rfl rfl))
  | noteOn =>
    exact eq_header (extractLsb'_of_fixed rfl) (extractLsb'_eq_append (n := 17) (k := 7)
      (extractLsb'_of_fixed rfl) (extractLsb'_of_open (by decide) rfl rfl))
  | noteOff =>
    rw [Cmd.headerOf, ofBool_tField]
    exact eq_header (extractLsb'_of_fixed rfl) (extractLsb'_eq_append (n := 17) (k := 7)
      (extractLsb'_eq_append (n := 16) (k := 1)
        (extractLsb'_eq_append (n := 15) (k := 1) (extractLsb'_of_fixed rfl) (extractLsb'_of_open (by decide) rfl rfl))
        (extractLsb'_of_fixed rfl))
      (extractLsb'_of_open (by decide) rfl rfl))

/-- The headers a row selects are those `encode` writes for its command. -/
theorem selected_iff {c : Cmd} {w : Word} : w &&& c.row.mask = c.row.pattern ↔ c.headerOf w = w := by
  rw [and_mask_eq_iff (by cases c <;> decide), masked_eq_headerOf]

theorem rowOf_eq_row_iff {c : Cmd} {w : Word} : rowOf w = some c.row ↔ c.headerOf w = w := by
  rw [← selected_iff]
  refine ⟨fun h => ?_, fun h => rowOf_eq_some_iff.2 ⟨c, rfl, h⟩⟩
  obtain ⟨c', hc, h⟩ := rowOf_eq_some_iff.1 h
  rwa [hc]

/-! ### What the decoder reads -/

/-- A header and the operand words after it are read as an instruction (R93 to R98): what `decode` answers, by
`decode_of_reads` and `reads_of_decode`. -/
inductive Cmd.Reads (w : Word) : Cmd → List Word → Instr → Prop
  | prepare {mb : BitVec 16} {a : Word} (hmb : low16 w = mb) : Reads w .prepare [a] (.prepare mb a)
  | release : Reads w .release [] .release
  | setWave {k : Kind} (hk : kindOf (w.extractLsb' 0 2) = k) : Reads w .setWave [] (.setWave k)
  | setHarm {n : BitVec 16} (hn : low16 w = n) : Reads w .setHarm [] (.setHarm n)
  | setSub {n : BitVec 16} (hn : low16 w = n) : Reads w .setSub [] (.setSub n)
  | setAdsr {a d s r : Word} : Reads w .setAdsr [a, d, s, r] (.setAdsr a d s r)
  | noteOn {note : BitVec 7} {v : Word} (hnote : noteField w = note) : Reads w .noteOn [v] (.noteOn note v)
  | noteOff {t : Bool} {note : BitVec 7} {v : Word} (ht : tField w = t) (hnote : noteField w = note) :
    Reads w .noteOff [v] (.noteOff t note v)
  | render {start num : BitVec 16} {a : Word} (hzero : a.extractLsb' 16 16 = 0#16) (hstart : low16 a = start)
      (hnum : low16 w = num) : Reads w .render [a] (.render start num)

/-- A command is decoded from its header and exactly its operand words. -/
theorem decode_of_reads {c : Cmd} {w : Word} {ops : List Word} {i : Instr} (hrow : rowOf w = some c.row)
    (h : Cmd.Reads w c ops i) (rest : List Word) : decode (w :: (ops ++ rest)) = .ok (i, rest) := by
  cases h <;> simp_all [decode, Cmd.row]

/-- Everything the decoder can have read when it answers an instruction. -/
theorem reads_of_decode {ws rest : List Word} {i : Instr} (h : decode ws = .ok (i, rest)) :
    ∃ (c : Cmd) (w : Word) (ops : List Word), rowOf w = some c.row ∧ Cmd.Reads w c ops i ∧ ws = w :: (ops ++ rest) := by
  obtain _ | ⟨w, ws⟩ := ws
  · cases h
  cases hrow : rowOf w with
  | none => simp [decode, hrow] at h
  | some r =>
    obtain ⟨c, rfl, -⟩ := rowOf_eq_some_iff.1 hrow
    simp only [decode, hrow] at h
    refine ⟨c, w, ?_⟩
    cases c with
    | release => cases h; exact ⟨[], hrow, .release, rfl⟩
    | setWave => cases h; exact ⟨[], hrow, .setWave rfl, rfl⟩
    | setHarm => cases h; exact ⟨[], hrow, .setHarm rfl, rfl⟩
    | setSub => cases h; exact ⟨[], hrow, .setSub rfl, rfl⟩
    | setAdsr =>
      obtain _ | ⟨a, _ | ⟨d, _ | ⟨s, _ | ⟨r, ws⟩⟩⟩⟩ := ws <;> cases h
      exact ⟨[a, d, s, r], hrow, .setAdsr, rfl⟩
    | prepare =>
      obtain _ | ⟨a, ws⟩ := ws <;> cases h
      exact ⟨[a], hrow, .prepare rfl, rfl⟩
    | noteOn =>
      obtain _ | ⟨v, ws⟩ := ws <;> cases h
      exact ⟨[v], hrow, .noteOn rfl, rfl⟩
    | noteOff =>
      obtain _ | ⟨v, ws⟩ := ws <;> cases h
      exact ⟨[v], hrow, .noteOff rfl rfl, rfl⟩
    | render =>
      obtain _ | ⟨a, ws⟩ := ws
      · cases h
      · simp only [Cmd.row] at h
        split_ifs at h with ha
        cases h
        exact ⟨[a], hrow, .render ha rfl rfl, rfl⟩

theorem Cmd.Reads.length {c : Cmd} {w : Word} {ops : List Word} {i : Instr} (h : Cmd.Reads w c ops i) :
    ops.length = c.row.operands := by
  cases h <;> rfl

/-! ### Encoding what was decoded -/

theorem kindBits_kindOf (b : BitVec 2) : kindBits (kindOf b) = b := by
  revert b; decide

theorem kindOf_kindBits (k : Kind) : kindOf (kindBits k) = k := by
  cases k <;> rfl

/-- A word with nothing in bits 31:16 is its low half. -/
theorem zero_append_low16 {a : Word} (h : a.extractLsb' 16 16 = 0#16) : 0#16 ++ low16 a = a :=
  (extractLsb'_eq_append (n := 16) (k := 16) h rfl).symm.trans BitVec.extractLsb'_eq_self

/-- What a header and its operand words are read as is written with the header of the fields and the same operands. -/
theorem encode_of_reads {c : Cmd} {w : Word} {ops : List Word} {i : Instr} (h : Cmd.Reads w c ops i) :
    encode i = .words (c.headerOf w :: ops) := by
  cases h with
  | setWave hk => simp only [encode, Cmd.headerOf, ← hk, kindBits_kindOf]
  | render hzero hstart hnum => simp only [encode, Cmd.headerOf, ← hstart, ← hnum, zero_append_low16 hzero]
  | release | setAdsr => rfl
  | prepare h | setHarm h | setSub h | noteOn h => rw [← h]; rfl
  | noteOff ht hnote => rw [← ht, ← hnote]; rfl

/-- Settles O2: `encode` writes the header of the fields read, which is the header itself since the row selects it. -/
theorem encodeOfDecodeIsTheWords : Obligations.EncodeOfDecodeIsTheWords := by
  intro ws i rest h
  obtain ⟨c, w, ops, hrow, hreads, rfl⟩ := reads_of_decode h
  refine ⟨w :: ops, ?_, rfl⟩
  rw [encode_of_reads hreads, rowOf_eq_row_iff.1 hrow]

/-! ### Decoding what was encoded -/

/-- The low bits of a header lie in its field part. -/
theorem extractLsb'_header {k : Nat} (hk : k ≤ 24) (op : BitVec 8) (field : BitVec 24) :
    (header op field).extractLsb' 0 k = field.extractLsb' 0 k :=
  BitVec.extractLsb'_append_eq_of_add_le (by omega)

theorem low16_header (op hi : BitVec 8) (lo : BitVec 16) : low16 (header op (hi ++ lo)) = lo :=
  (extractLsb'_header (by decide) ..).trans BitVec.extractLsb'_append_eq_right

theorem kindField_header (op : BitVec 8) (hi : BitVec 22) (b : BitVec 2) :
    (header op (hi ++ b)).extractLsb' 0 2 = b :=
  (extractLsb'_header (by decide) ..).trans BitVec.extractLsb'_append_eq_right

theorem noteField_header (op : BitVec 8) (hi : BitVec 17) (note : BitVec 7) :
    noteField (header op (hi ++ note)) = note :=
  (extractLsb'_header (by decide) ..).trans BitVec.extractLsb'_append_eq_right

/-- The flag `T` stands above one zero bit and the note (R97). -/
theorem tField_header (op : BitVec 8) (hi : BitVec 15) (t : Bool) (note : BitVec 7) :
    tField (header op (hi ++ BitVec.ofBool t ++ 0#1 ++ note)) = t := by
  simp only [tField, header, BitVec.getLsbD_append]
  simp

/-- The words `encode` writes for a command read as that command. -/
theorem reads_of_encode {i : Instr} {ws : List Word} (h : encode i = .words ws) :
    ∃ (c : Cmd) (w : Word) (ops : List Word), ws = w :: ops ∧ Cmd.Reads w c ops i := by
  cases i with
  | prepare mb fs => cases h; exact ⟨_, _, _, rfl, .prepare (low16_header ..)⟩
  | release => cases h; exact ⟨_, _, _, rfl, .release⟩
  | setWave k =>
    cases h
    exact ⟨_, _, _, rfl, .setWave ((congrArg kindOf (kindField_header ..)).trans (kindOf_kindBits k))⟩
  | setHarm n => cases h; exact ⟨_, _, _, rfl, .setHarm (low16_header ..)⟩
  | setSub n => cases h; exact ⟨_, _, _, rfl, .setSub (low16_header ..)⟩
  | setAdsr a d s r => cases h; exact ⟨_, _, _, rfl, .setAdsr⟩
  | noteOn note v => cases h; exact ⟨_, _, _, rfl, .noteOn (noteField_header ..)⟩
  | noteOff t note v => cases h; exact ⟨_, _, _, rfl, .noteOff (tField_header ..) (noteField_header ..)⟩
  | render start num =>
    cases h
    exact ⟨_, _, _, rfl, .render BitVec.extractLsb'_append_eq_left BitVec.extractLsb'_append_eq_right (low16_header ..)⟩
  | _ => cases h

/-- The words `encode` writes decode to the command they were written for, since the header is the one its fields
give. -/
theorem decode_of_encode {i : Instr} {ws : List Word} (h : encode i = .words ws) : decode ws = .ok (i, []) := by
  obtain ⟨c, w, ops, rfl, hreads⟩ := reads_of_encode h
  have hheader : c.headerOf w = w := by
    have hwords := (encode_of_reads hreads).symm.trans h
    injection hwords with hwords
    exact List.head_eq_of_cons_eq hwords
  simpa using decode_of_reads (rowOf_eq_row_iff.2 hheader) hreads []

theorem oscOf_oscBits (o : OscSel) : oscOf (oscBits o) = .ok o := by
  cases o with
  | main => rfl
  | sub i => revert i; decide

theorem decodeOsc_of_oscBits {r : UopRequest} {o : OscSel} (h : r.osc = oscBits o) (f : OscSel → Instr) :
    decodeOsc r f = .ok (f o) := by
  simp only [decodeOsc, h, oscOf_oscBits]

/-- The request `encode` writes for an internal operation names it (R106; log entry 2). -/
theorem decodeUop_of_encode {i : Instr} {r : UopRequest} (hi : i.encodable = true) (h : encode i = .request r) :
    decodeUop r = .ok i := by
  cases i with
  | prepare | release | setWave | setHarm | setSub | setAdsr | noteOn | noteOff | render => cases h
  | build k harm f0 fs =>
    cases h
    have hharm : harmInRange harm = true := hi
    simp [decodeUop, hharm, kindOf_kindBits]
  | oscSetFreq | oscSetRandomPhase | oscAdvance | oscStop | oscReset => cases h; exact decodeOsc_of_oscBits rfl _
  | oscNextSample v o k =>
    cases h
    refine (decodeOsc_of_oscBits rfl _).trans ?_
    rw [kindOf_kindBits]
  | tblInterp | voiceNoteOn => cases h; simp [decodeUop, kindOf_kindBits]
  | rebuildAll | envRates | envTrigger | envRelease | envNext | envReset | voiceNoteOff | voiceRender | voiceReset
  | bufClear | mixAcc => cases h; rfl

/-- Settles O1: a command's words decode to it, and an internal operation's request names it. -/
theorem decodeOfEncodeIsTheInstruction : Obligations.DecodeOfEncodeIsTheInstruction := by
  intro i hi
  cases h : encode i with
  | words ws => simp only [decodeEncoded, decode_of_encode h]
  | request r => simp only [decodeEncoded, decodeUop_of_encode hi h]

/-- Settles O5: each list of words is evaluated. -/
theorem writtenOutWordsDecode : Obligations.WrittenOutWordsDecode :=
  ⟨by decide, by decide, by decide, by decide, by decide, by decide, by decide, by decide, by decide⟩

/-! ### The length of a command -/

theorem commandLength_of_row {w : Word} {r : OpcodeRow} (h : rowOf w = some r) : commandLength w = r.operands + 1 := by
  simp only [commandLength, h]

/-- Every mask covers bits 31:24, so a selected header has the opcode of the row's pattern (R91). -/
theorem opcode_of_row {c : Cmd} {w : Word} (h : rowOf w = some c.row) :
    w.extractLsb' 24 8 = c.row.pattern.extractLsb' 24 8 := by
  rw [← rowOf_eq_row_iff.1 h, ← masked_eq_headerOf]
  exact extractLsb'_of_fixed (by cases c <;> rfl)

/-- No two rows of the map share an opcode. -/
theorem row_eq_of_opcode_eq {c c' : Cmd} (h : c.row.pattern.extractLsb' 24 8 = c'.row.pattern.extractLsb' 24 8) :
    c.row = c'.row := by
  have hmap : ∀ r ∈ opcodeMap, ∀ r' ∈ opcodeMap,
      r.pattern.extractLsb' 24 8 = r'.pattern.extractLsb' 24 8 → r = r' := by decide
  exact hmap _ (mem_opcodeMap_iff.2 ⟨c, rfl⟩) _ (mem_opcodeMap_iff.2 ⟨c', rfl⟩) h

/-- Settles O4: a decoded command's operand words are those its row counts, and the opcode fixes the row. -/
theorem lengthIsAFunctionOfTheOpcode : Obligations.LengthIsAFunctionOfTheOpcode := by
  refine ⟨fun w ws i rest h => ?_, fun w w' hw hw' hop => ?_⟩
  · obtain ⟨c, w, ops, hrow, hreads, heq⟩ := reads_of_decode h
    cases heq
    refine ⟨?_, Machine.decode_not_internal h⟩
    rw [commandLength_of_row hrow, ← hreads.length, List.length_cons, List.length_append]
    omega
  · obtain ⟨r, hr⟩ := Option.isSome_iff_exists.1 hw
    obtain ⟨r', hr'⟩ := Option.isSome_iff_exists.1 hw'
    obtain ⟨c, rfl, -⟩ := rowOf_eq_some_iff.1 hr
    obtain ⟨c', rfl, -⟩ := rowOf_eq_some_iff.1 hr'
    have hrow : c.row = c'.row := row_eq_of_opcode_eq (by rw [← opcode_of_row hr, ← opcode_of_row hr', hop])
    rw [commandLength_of_row hr, commandLength_of_row hr', hrow]

/-! ### Reserved encodings -/

theorem decode_reserved_header {w : Word} (h : ∀ r ∈ opcodeMap, w &&& r.mask ≠ r.pattern) (rest : List Word) :
    decode (w :: rest) = .error (.reserved w) := by
  simp only [decode, rowOf_eq_none_iff.2 h]

theorem and_highMask_of_high_eq_zero {a : Word} (h : a.extractLsb' 16 16 = 0#16) : a &&& 0xFFFF0000#32 = 0#32 := by
  have hsplit : (0#16 ++ low16 a) &&& (0xFFFF#16 ++ 0#16) = (0#16 &&& 0xFFFF#16) ++ (low16 a &&& 0#16) :=
    BitVec.and_append
  rw [zero_append_low16 h, BitVec.and_zero] at hsplit
  exact hsplit

/-- RENDER's operand word has only its low half (R98). -/
theorem decode_reserved_operand {w a : Word} (hw : w &&& 0xFFFF0000#32 = 0x30000000#32)
    (ha : a &&& 0xFFFF0000#32 ≠ 0#32) (rest : List Word) : decode (w :: a :: rest) = .error (.reserved a) := by
  have hrow : rowOf w = some Cmd.render.row := rowOf_eq_row_iff.2 (selected_iff.1 hw)
  have hhigh : a.extractLsb' 16 16 ≠ 0#16 := mt and_highMask_of_high_eq_zero ha
  simp only [decode, hrow, Cmd.row, if_neg hhigh]

end Sys2Proof

namespace Sys2Proof.Machine

theorem fetch_rt_reserved {s : State} {w : Word} (hu : s.uops = []) (hrt : decode s.rt = .error (.reserved w)) :
    fetch s = .violates (.reservedEncoding w .rt) := by
  simp only [fetch, hu, fetchPorts, hrt]

theorem fetchCtl_reserved {s : State} {w : Word} (hctl : decode s.ctl = .error (.reserved w)) :
    fetchCtl s = .violates (.reservedEncoding w .ctl) := by
  simp only [fetchCtl, hctl]

theorem step_of_violates {s : State} {f : Fault} (hp : paramsLegal s.par = true)
    (hf : fetch (openSlot s) = .violates f) : step s = .fault f := by
  simp [step, hp, hf]

/-- A reserved encoding at `RT` stops the run whatever `CTL` holds (log entry 11). -/
theorem step_rt_reserved {s : State} {w : Word} (hp : paramsLegal s.par = true) (hu : (openSlot s).uops = [])
    (hrt : decode (openSlot s).rt = .error (.reserved w)) : step s = .fault (.reservedEncoding w .rt) :=
  step_of_violates hp (fetch_rt_reserved hu hrt)

/-- A reserved encoding at `CTL` stops the run when `RT` holds no complete command (log entry 11). -/
theorem step_ctl_reserved {s : State} {w : Word} (hp : paramsLegal s.par = true) (hu : (openSlot s).uops = [])
    (hrt : decode (openSlot s).rt = .error .incomplete) (hctl : decode (openSlot s).ctl = .error (.reserved w)) :
    step s = .fault (.reservedEncoding w .ctl) :=
  step_of_violates hp ((fetch_of_rt_incomplete hu hrt).trans (fetchCtl_reserved hctl))

/-- Settles O8: each of the two reserved encodings, at each of the two ports. -/
theorem reservedEncodingIsCV1 : Obligations.ReservedEncodingIsCV1 := by
  intro s hp hu
  refine ⟨fun w rest hrt hw => ?_, fun w a rest hrt hw ha => ?_, fun w rest hrt hctl hw => ?_,
    fun w a rest hrt hctl hw ha => ?_⟩
  · exact step_rt_reserved hp hu (hrt ▸ decode_reserved_header hw rest)
  · exact step_rt_reserved hp hu (hrt ▸ decode_reserved_operand hw ha rest)
  · exact step_ctl_reserved hp hu hrt (hctl ▸ decode_reserved_header hw rest)
  · exact step_ctl_reserved hp hu hrt (hctl ▸ decode_reserved_operand hw ha rest)

end Sys2Proof.Machine
end

/-! What is not finite (30_encoding.md R99; 40_wavetable_builder.md R131; 60_exceptions.md R302): a build stops only at a
value that is not finite, and under `NUM_F32` a rate, a fundamental or an `F_BUILD` that is not finite is one. -/

section
namespace Sys2Proof.Machine

/-! ### Where a build stops -/

/-- Whatever value an operation stops at is not finite. -/
def StopsAtNonFinite {α β : Type} (F : NumFmt α) (m : Except α β) : Prop := ∀ x, m = .error x → F.isFinite x = false

theorem stopsAtNonFinite_ok {α β : Type} {F : NumFmt α} (y : β) : StopsAtNonFinite F (.ok y) := fun _ h => by cases h

theorem stopsAtNonFinite_finiteOr {α : Type} {F : NumFmt α} (x : α) : StopsAtNonFinite F (finiteOr F x) := by
  intro y h
  unfold finiteOr at h
  split_ifs at h with hx
  cases h
  simpa using hx

/-- A sequence stops where its first or its second operation does. -/
theorem StopsAtNonFinite.bind {α β γ : Type} {F : NumFmt α} {m : Except α β} {f : β → Except α γ}
    (hm : StopsAtNonFinite F m) (hf : ∀ y, StopsAtNonFinite F (f y)) : StopsAtNonFinite F (m >>= f) := by
  intro x h
  cases m with
  | error e => cases h; exact hm x rfl
  | ok y => exact hf y x h

section Build
variable {α : Type} {F : NumFmt α}

/-- A checked result and what follows it. -/
theorem StopsAtNonFinite.finiteOr_bind {β : Type} {x : α} {f : α → Except α β}
    (hf : ∀ y, StopsAtNonFinite F (f y)) : StopsAtNonFinite F (finiteOr F x >>= f) :=
  (stopsAtNonFinite_finiteOr x).bind hf

theorem stopsAtNonFinite_phaseMultiplier (k : Kind) (h : Nat) : StopsAtNonFinite F (phaseMultiplier F k h) := by
  cases k with
  | saw => exact .finiteOr_bind fun _ => .finiteOr_bind fun _ => stopsAtNonFinite_finiteOr _
  | sine | square | triangle => exact stopsAtNonFinite_ok _

theorem stopsAtNonFinite_amplitude (k : Kind) (n h : Nat) : StopsAtNonFinite F (amplitude F k n h) := by
  cases k with
  | sine | saw => exact stopsAtNonFinite_finiteOr _
  | square => exact .finiteOr_bind fun _ => .finiteOr_bind fun _ => stopsAtNonFinite_finiteOr _
  | triangle =>
    exact .finiteOr_bind fun _ => .finiteOr_bind fun _ => .finiteOr_bind fun _ => .finiteOr_bind fun _ =>
      stopsAtNonFinite_finiteOr _

theorem stopsAtNonFinite_partialAt (tableSize : Nat) (m amp : α) (i : Nat) :
    StopsAtNonFinite F (partialAt F tableSize m amp i) := by
  have htheta : StopsAtNonFinite F (theta F tableSize i) :=
    .finiteOr_bind fun _ => .finiteOr_bind fun _ => stopsAtNonFinite_finiteOr _
  exact htheta.bind fun _ => .finiteOr_bind fun _ => .finiteOr_bind fun _ => stopsAtNonFinite_finiteOr _

theorem stopsAtNonFinite_addPartial (tableSize : Nat) (m amp : α) (acc : List α) (i : Nat) :
    StopsAtNonFinite F (addPartial F tableSize m amp i acc) := by
  induction acc generalizing i with
  | nil => exact stopsAtNonFinite_ok _
  | cons x rest ih =>
    exact (stopsAtNonFinite_partialAt _ _ _ _).bind fun _ => .finiteOr_bind fun _ =>
      (ih (i + 1)).bind fun _ => stopsAtNonFinite_ok _

theorem stopsAtNonFinite_addHarmonics (tableSize : Nat) (k : Kind) (f0 nyq : α) (count n : Nat) (acc : List α) :
    StopsAtNonFinite F (addHarmonics F tableSize k f0 nyq count n acc) := by
  induction count generalizing n acc with
  | zero => exact stopsAtNonFinite_ok _
  | succ count ih =>
    refine .finiteOr_bind fun f => ?_
    split
    · exact stopsAtNonFinite_ok _
    · exact (stopsAtNonFinite_phaseMultiplier _ _).bind fun _ => (stopsAtNonFinite_amplitude _ _ _).bind fun _ =>
        (stopsAtNonFinite_addPartial _ _ _ _ _).bind fun acc => ih (n + 1) acc

theorem stopsAtNonFinite_divideBy (peak : α) (acc : List α) : StopsAtNonFinite F (divideBy F peak acc) := by
  induction acc with
  | nil => exact stopsAtNonFinite_ok _
  | cons x rest ih => exact .finiteOr_bind fun _ => ih.bind fun _ => stopsAtNonFinite_ok _

theorem stopsAtNonFinite_normalize (acc : List α) : StopsAtNonFinite F (normalize F acc) := by
  unfold normalize
  split
  · exact stopsAtNonFinite_divideBy _ _
  · exact stopsAtNonFinite_ok _

/-- A build stops at a value that is not finite (R131). -/
theorem stopsAtNonFinite_buildWords (tableSize : Nat) (k : Kind) (harm : Nat) (f0 fs : α) :
    StopsAtNonFinite F (buildWords F tableSize k harm f0 fs) :=
  .finiteOr_bind fun _ => (stopsAtNonFinite_addHarmonics _ _ _ _ _ _ _).bind fun _ =>
    (stopsAtNonFinite_normalize _).bind fun _ => stopsAtNonFinite_ok _

/-! ### The first values of a build -/

theorem finiteOr_eq_error {x : α} (h : F.isFinite x = false) : finiteOr F x = .error x := by
  simp [finiteOr, h]

/-- The first value a build computes is the Nyquist frequency. -/
theorem buildWords_nyquist {fs : α} (h : F.isFinite (F.div fs (F.ofInt 2)) = false) (tableSize : Nat) (k : Kind)
    (harm : Nat) (f0 : α) : buildWords F tableSize k harm f0 fs = .error (F.div fs (F.ofInt 2)) := by
  rw [buildWords, finiteOr_eq_error h, error_bind]

theorem harmonicNumber_one (k : Kind) : harmonicNumber k 1 = 1 := by cases k <;> rfl

/-- The second is the frequency of the first harmonic. -/
theorem buildWords_fundamental {f0 fs : α} (hfs : F.isFinite (F.div fs (F.ofInt 2)) = true) {harm : Nat}
    (hharm : 1 ≤ harm) (hf0 : F.isFinite (F.mul f0 (F.ofInt 1)) = false) (tableSize : Nat) (k : Kind) :
    buildWords F tableSize k harm f0 fs = .error (F.mul f0 (F.ofInt 1)) := by
  obtain ⟨count, rfl⟩ := Nat.exists_eq_add_of_le' hharm
  rw [buildWords, finiteOr_of hfs, ok_bind, addHarmonics, harmonicNumber_one, Nat.cast_one, finiteOr_eq_error hf0,
    error_bind, error_bind]

end Build

/-! ### What builds -/

theorem buildTable_error {s : State} {k : Kind} {h : BitVec 5} {f0 fs x : NumWord}
    (hx : buildWords s.par.fmt s.par.tableSize k h.toNat f0 fs = .error x) :
    buildTable s k h f0 fs = .error (.numInvalid [x]) := by
  simp only [buildTable, hx, raise_eq]

theorem rebuildTables_error {s : State} {x : NumWord}
    (hx : buildWords s.par.fmt s.par.tableSize .sine s.cfg.harm.toNat s.par.fBuild s.cfg.fs = .error x) :
    rebuildTables s = .error (.numInvalid [x]) := by
  rw [rebuildTables, buildTable_error hx, error_bind]

/-- With legal operands, PREPARE stops where its rebuild does (R270). -/
theorem prepareBlock_error {s : State} {mb : BitVec 16} {fs : NumWord} {f : Fault} (hfin : s.par.fmt.isFinite fs = true)
    (hpos : s.par.fmt.gt fs (s.par.fmt.ofInt 0) = true) (hmb : 1 ≤ mb.toNat) (hmb' : mb.toNat ≤ s.par.bufLen)
    (h : rebuildTables { s with cfg := { s.cfg with fs := fs, maxblk := mb } } = .error f) :
    prepareBlock s mb fs = .error f := by
  have hsize : ¬ (zext16 mb = 0 ∨ s.par.bufLen < zext16 mb) := by
    rw [zext16_eq]
    omega
  simp only [prepareBlock, hfin, hpos, Bool.not_true, Bool.false_eq_true, if_false, if_neg hsize, h, error_bind]

theorem setHarmonics_error {s : State} {n : BitVec 16} {f : Fault} (hp : s.prepared = true)
    (h : rebuildTables { s with cfg := { s.cfg with harm := clampHarm n } } = .error f) :
    setHarmonics s n = .error f := by
  rw [setHarmonics, if_pos hp, h]

/-! ### Operands -/

theorem prepareBlock_not_finite {s : State} {fs : NumWord} (h : s.par.fmt.isFinite fs = false) (mb : BitVec 16) :
    prepareBlock s mb fs = .error (.numInvalid [fs]) := by
  simp [prepareBlock, h]

theorem setEnvelope_not_finite {s : State} {a d u r : NumWord}
    (h : s.par.fmt.isFinite a = false ∨ s.par.fmt.isFinite d = false ∨ s.par.fmt.isFinite u = false ∨
      s.par.fmt.isFinite r = false) :
    setEnvelope s a d u r = .error (.numInvalid [a, d, u, r]) := by
  refine if_pos ?_
  obtain h | h | h | h := h <;> simp [h]

theorem noteOn_not_finite {s : State} {vel : NumWord} (h : s.par.fmt.isFinite vel = false) (note : BitVec 7) :
    noteOn s note vel = .error (.numInvalid [vel]) := by
  simp [noteOn, h]

theorem noteOff_not_finite {s : State} {vel : NumWord} (h : s.par.fmt.isFinite vel = false) (t : Bool)
    (note : BitVec 7) : noteOff s t note vel = .error (.numInvalid [vel]) := by
  simp [noteOff, h]

/-! ### `NUM_F32` -/

/-- What is neither finite nor a NaN is an infinity. -/
theorem F32.inf_of_not_finite {a : Word} (h : F32.isFinite a = false) (hnan : F32.isNaN a = false) :
    F32.isInf a = true :=
  (F32.finite_or_inf hnan).resolve_left (by simp [h])

theorem F32.not_finite_nan (op : Nat) (a b : Word) : F32.isFinite (F32.nan op a b) = false := by
  have hones : (F32.nan op a b).extractLsb' 22 9 = 0x1FF#9 :=
    (BitVec.extractLsb'_append_eq_of_le (by decide)).trans BitVec.extractLsb'_append_eq_right
  have hnat := congrArg BitVec.toNat hones
  simp only [BitVec.extractLsb'_toNat, Nat.shiftRight_eq_div_pow, BitVec.toNat_ofNat] at hnat
  refine decide_eq_false ?_
  unfold F32.mag F32.infMag
  omega

theorem F32.not_finite_inf (neg : Bool) : F32.isFinite (F32.pack neg F32.infMag) = false := by
  simp [F32.isFinite, F32.mag_pack]

theorem F32.div_not_finite {a b : Word} (ha : F32.isFinite a = false) (hb : F32.isFinite b = true) :
    F32.isFinite (F32.div a b) = false := by
  unfold F32.div
  rw [F32.not_nan_of_finite hb, F32.not_inf_of_finite hb, Bool.or_false]
  cases hnan : F32.isNaN a with
  | true => exact F32.not_finite_nan ..
  | false => rw [F32.inf_of_not_finite ha hnan]; exact F32.not_finite_inf _

theorem F32.mul_not_finite {a b : Word} (ha : F32.isFinite a = false) (hb : F32.isFinite b = true) :
    F32.isFinite (F32.mul a b) = false := by
  unfold F32.mul
  rw [F32.not_nan_of_finite hb, F32.not_inf_of_finite hb, Bool.or_false, Bool.or_false]
  cases hnan : F32.isNaN a with
  | true => exact F32.not_finite_nan ..
  | false =>
    rw [F32.inf_of_not_finite ha hnan, if_neg (by simp), if_pos rfl]
    split_ifs
    · exact F32.not_finite_nan ..
    · exact F32.not_finite_inf _

/-- Halving keeps a number finite. -/
theorem F32.finite_div_two {a : Word} (ha : F32.isFinite a = true) : F32.isFinite (F32.div a (F32.ofInt 2)) = true := by
  have htwo : F32.ofInt 2 = 0x40000000#32 := by decide
  rw [htwo]
  refine F32.finite_of_mag_le (m := F32.mag a) ((F32.finite_iff a).1 ha) ?_
  refine F32.mag_div_le ha (by decide) (by decide) ((F32.finite_iff a).1 ha).le (Nat.mul_le_mul_left _ ?_)
  decide

/-- Under `NUM_F32` an `F_BUILD` of infinity stops `rebuild_all` at its first product. -/
theorem rebuildTables_fBuild_infinite {s : State} (hn : s.par.num = .f32) (hF : s.par.fBuild = .f32 0x7F800000#32)
    (hfs : F32.isFinite s.cfg.fs.bits = true) (hharm : 1 ≤ s.cfg.harm.toNat) :
    rebuildTables s = .error (.numInvalid [.f32 0x7F800000#32]) := by
  have hprod : numF32.mul (.f32 0x7F800000#32) (numF32.ofInt 1) = .f32 0x7F800000#32 := by decide
  have hbuild := buildWords_fundamental (F := numF32) (f0 := .f32 0x7F800000#32) (F32.finite_div_two hfs) hharm
    (by decide) s.par.tableSize .sine
  rw [hprod] at hbuild
  refine rebuildTables_error ?_
  rw [fmt_f32 hn, hF, hbuild]

/-- Settles O19: an operand is tested before anything else, a build stops only at a value that is not finite, and the
first two values of a build carry the rate and the fundamental. -/
theorem nonFiniteOperandIsCV6 : Obligations.NonFiniteOperandIsCV6 := by
  intro s
  refine ⟨fun mb fs h => ?_, fun a d u r h => ?_, fun note vel h => ?_, fun t note vel h => ?_,
    fun k h f0 fs x hx => ?_, fun hn => ⟨fun k h f0 fs hfs => ?_, fun k h f0 fs hfs hh hf0 => ?_, fun hF => ?_⟩⟩
  · exact congrArg finish (prepareBlock_not_finite h mb)
  · exact congrArg finish (setEnvelope_not_finite h)
  · exact congrArg finish (noteOn_not_finite h note)
  · exact congrArg finish (noteOff_not_finite h t note)
  · exact ⟨stopsAtNonFinite_buildWords _ _ _ _ _ x hx, congrArg finish (buildTable_error hx)⟩
  · refine congrArg finish (buildTable_error ?_)
    rw [fmt_f32 hn, numword_f32 hn, numword_f32 hn]
    exact buildWords_nyquist (F := numF32) (fs := .f32 fs) (F32.div_not_finite hfs (by decide)) _ _ _ _
  · refine congrArg finish (buildTable_error ?_)
    rw [fmt_f32 hn, numword_f32 hn, numword_f32 hn]
    exact buildWords_fundamental (F := numF32) (f0 := .f32 f0) (fs := .f32 fs) (F32.finite_div_two hfs) hh
      (F32.mul_not_finite hf0 (by decide)) _ _
  · refine ⟨fun hfs hharm => ?_, fun hfs hp n => ?_, fun mb fs hfs hpos hmb hmb' hharm => ?_⟩
    · exact congrArg finish (rebuildTables_fBuild_infinite hn hF hfs hharm)
    · exact congrArg finish (setHarmonics_error hp (rebuildTables_fBuild_infinite hn hF hfs (clampHarm_bounds n).1))
    · refine congrArg finish (prepareBlock_error ?_ ?_ hmb hmb' ?_)
      · rwa [fmt_f32 hn, numword_f32 hn]
      · rw [fmt_f32 hn, numword_f32 hn, numF32_gt, numF32_ofInt, ofInt_zero]
        exact hpos
      · rw [numword_f32 hn]
        exact rebuildTables_fBuild_infinite hn hF hfs hharm

end Sys2Proof.Machine
end

/-! Bounds and zeros under `NUM_F32` (00_scope.md R11) that a build rests on (40_wavetable_builder.md R131, R137): results
within a whole number, which is how entry U4's ranges keep every intermediate finite, and what is zero whatever the sine
answers. -/

section
namespace Sys2Proof.Machine

/-! ### The words of whole numbers -/

theorem F32.mag_ofInt (n : Nat) : F32.mag (F32.ofInt n) = F32.roundUnits (n * F32.one) 1 := by
  rw [F32.ofInt, Int.natAbs_natCast, F32.mag_pack _ (F32.roundUnits_le _ _)]

theorem F32.msb_ofInt (n : Nat) : (F32.ofInt n).msb = false := by
  rw [F32.ofInt, F32.msb_pack _ (F32.roundUnits_le _ _)]
  exact decide_eq_false (by omega)

theorem F32.finite_ofInt {n : Nat} (h : n ≤ 2 ^ 24) : F32.isFinite (F32.ofInt n) = true := by
  rcases Nat.eq_zero_or_pos n with rfl | h0
  · decide
  · exact (F32.ofInt_nat h0 h).1

theorem F32.units_ofInt {n : Nat} (h : n ≤ 2 ^ 24) : F32.units (F32.ofInt n) = n * F32.one := by
  rcases Nat.eq_zero_or_pos n with rfl | h0
  · decide
  · have hvalue := (F32.ofInt_nat h0 h).2
    rw [F32.value, F32.msb_ofInt] at hvalue
    rw [if_neg Bool.false_ne_true] at hvalue
    exact_mod_cast hvalue

theorem F32.mag_ofInt_mono {m n : Nat} (h : m ≤ n) : F32.mag (F32.ofInt m) ≤ F32.mag (F32.ofInt n) := by
  rw [F32.mag_ofInt, F32.mag_ofInt]
  exact F32.roundUnits_mono Nat.one_pos Nat.one_pos (Nat.mul_le_mul_right _ (Nat.mul_le_mul_right _ h))

theorem F32.mag_ofInt_ne_zero {n : Nat} (h : 0 < n) : F32.mag (F32.ofInt n) ≠ 0 := by
  have hone : F32.mag (F32.ofInt (1 : Nat)) = 0x3F800000 := by decide
  have hmono : F32.mag (F32.ofInt (1 : Nat)) ≤ F32.mag (F32.ofInt n) := F32.mag_ofInt_mono h
  omega

/-- A product of whole numbers that the format holds is exact. -/
theorem F32.mul_ofInt {m n : Nat} (hm : m ≤ 2 ^ 24) (hn : n ≤ 2 ^ 24) :
    F32.mul (F32.ofInt m) (F32.ofInt n) = F32.ofInt (m * n : Nat) := by
  have hround : F32.roundUnits (m * F32.one * (n * F32.one)) F32.one = F32.roundUnits (m * n * F32.one) 1 := by
    have hcross : m * F32.one * (n * F32.one) * 1 = m * n * F32.one * F32.one := by ring
    exact le_antisymm (F32.roundUnits_mono F32.one_pos Nat.one_pos hcross.le)
      (F32.roundUnits_mono Nat.one_pos F32.one_pos hcross.ge)
  rw [F32.mul_of_finite (F32.finite_ofInt hm) (F32.finite_ofInt hn), F32.units_ofInt hm, F32.units_ofInt hn, hround,
    F32.msb_ofInt, F32.msb_ofInt, ← F32.mag_ofInt, ← F32.pack_self (F32.ofInt (m * n : Nat)), F32.msb_ofInt,
    F32.mag_pack _ (by rw [F32.mag_ofInt]; exact F32.roundUnits_le _ _)]
  rfl

/-- Multiplying by 1 changes no finite number. -/
theorem F32.mul_one {a : Word} (h : F32.isFinite a = true) : F32.mul a (F32.ofInt 1) = a := by
  have hunits : F32.units (F32.ofInt 1) = F32.one := (F32.units_ofInt (n := 1) (by norm_num)).trans (Nat.one_mul _)
  have hmsb : (F32.ofInt 1).msb = false := F32.msb_ofInt 1
  have hfinite : F32.isFinite (F32.ofInt 1) = true := F32.finite_ofInt (n := 1) (by norm_num)
  rw [F32.mul_of_finite h hfinite, hunits, hmsb, F32.units,
    F32.roundUnits_exact F32.one_pos ((F32.finite_iff a).1 h).le, Bool.bne_false, F32.pack_self]

/-! ### Results within a whole number -/

/-- A finite number of magnitude at most the whole number `c`. -/
def NumWithin (c : Nat) (x : NumWord) : Prop := numF32.isFinite x = true ∧ F32.units x.bits ≤ c * F32.one

/-- Magnitude bits up to those of a whole number the format holds. -/
theorem numWithin_of_mag_le {c : Nat} {x : NumWord} (hc : c ≤ 2 ^ 24)
    (h : F32.mag x.bits ≤ F32.mag (F32.ofInt c)) : NumWithin c x := by
  have hlt := (F32.finite_iff _).1 (F32.finite_ofInt hc)
  have hunits : F32.units x.bits ≤ F32.units (F32.ofInt c) := (F32.unitsOf_le_iff (h.trans hlt.le) hlt.le).2 h
  exact ⟨F32.finite_of_mag_le hlt h, hunits.trans (F32.units_ofInt hc).le⟩

theorem numWithin_ofInt {m c : Nat} (hm : m ≤ c) (hc : c ≤ 2 ^ 24) : NumWithin c (numF32.ofInt m) :=
  numWithin_of_mag_le hc (F32.mag_ofInt_mono hm)

theorem NumWithin.neg {c : Nat} {x : NumWord} (h : NumWithin c x) : NumWithin c (numF32.neg x) :=
  ⟨(F32.isFinite_neg _).trans h.1, (congrArg F32.unitsOf (F32.mag_neg _)).trans_le h.2⟩

theorem NumWithin.mul {c d e : Nat} {x y : NumWord} (hx : NumWithin c x) (hy : NumWithin d y) (h : c * d ≤ e)
    (he : e ≤ 2 ^ 24) : NumWithin e (numF32.mul x y) := by
  refine numWithin_of_mag_le he (F32.mag_mul_le hx.1 hy.1 ((F32.finite_iff _).1 (F32.finite_ofInt he)).le ?_)
  calc F32.units x.bits * F32.units y.bits ≤ c * F32.one * (d * F32.one) := Nat.mul_le_mul hx.2 hy.2
    _ = c * d * F32.one * F32.one := by ring
    _ ≤ e * F32.one * F32.one := Nat.mul_le_mul_right _ (Nat.mul_le_mul_right _ h)
    _ = F32.units (F32.ofInt e) * F32.one := by rw [F32.units_ofInt he]

theorem NumWithin.add {c d e : Nat} {x y : NumWord} (hx : NumWithin c x) (hy : NumWithin d y) (h : c + d ≤ e)
    (he : e ≤ 2 ^ 24) : NumWithin e (numF32.add x y) := by
  refine numWithin_of_mag_le he (F32.mag_add_le hx.1 hy.1 ((F32.finite_iff _).1 (F32.finite_ofInt he)).le ?_)
  calc (F32.value x.bits + F32.value y.bits).natAbs ≤ F32.units x.bits + F32.units y.bits :=
        (Int.natAbs_add_le _ _).trans_eq (congrArg₂ _ (F32.natAbs_value _) (F32.natAbs_value _))
    _ ≤ c * F32.one + d * F32.one := Nat.add_le_add hx.2 hy.2
    _ = (c + d) * F32.one := by ring
    _ ≤ e * F32.one := Nat.mul_le_mul_right _ h
    _ = F32.units (F32.ofInt e) := (F32.units_ofInt he).symm

theorem NumWithin.div_ofInt {c d n : Nat} {x : NumWord} (hx : NumWithin d x) (h0 : 0 < n) (hn : n ≤ 2 ^ 24)
    (h : d ≤ c * n) (hc : c ≤ 2 ^ 24) : NumWithin c (numF32.div x (numF32.ofInt n)) := by
  refine numWithin_of_mag_le hc (F32.mag_div_le hx.1 (F32.finite_ofInt hn) (F32.mag_ofInt_ne_zero h0)
    ((F32.finite_iff _).1 (F32.finite_ofInt hc)).le ?_)
  calc F32.units x.bits * F32.one ≤ d * F32.one * F32.one := Nat.mul_le_mul_right _ hx.2
    _ ≤ c * n * F32.one * F32.one := Nat.mul_le_mul_right _ (Nat.mul_le_mul_right _ h)
    _ = c * F32.one * (n * F32.one) := by ring
    _ = F32.units (F32.ofInt c) * F32.units (F32.ofInt n) := by rw [F32.units_ofInt hc, F32.units_ofInt hn]

/-- Entry U3 (c). -/
theorem numWithin_sin {x : NumWord} (h : numF32.isFinite x = true) : NumWithin 1 (numF32.sin x) :=
  numWithin_of_mag_le (by norm_num) ((F32.mag_sin h).trans (by decide))

/-- Multiples of a number by smaller whole numbers are finite where a larger multiple is. -/
theorem F32.finite_mul_ofInt {a : Word} {m n : Nat} (ha : F32.isFinite a = true) (hmn : m ≤ n) (hn : n ≤ 2 ^ 24)
    (h : F32.isFinite (F32.mul a (F32.ofInt n)) = true) : F32.isFinite (F32.mul a (F32.ofInt m)) = true := by
  have hm := hmn.trans hn
  rw [F32.finite_iff, F32.mul_of_finite ha (F32.finite_ofInt hn), F32.mag_pack _ (F32.roundUnits_le _ _),
    F32.units_ofInt hn] at h
  rw [F32.finite_iff, F32.mul_of_finite ha (F32.finite_ofInt hm), F32.mag_pack _ (F32.roundUnits_le _ _),
    F32.units_ofInt hm]
  refine lt_of_le_of_lt (F32.roundUnits_mono F32.one_pos F32.one_pos ?_) h
  exact Nat.mul_le_mul_right _ (Nat.mul_le_mul_left _ (Nat.mul_le_mul_right _ hmn))

/-! ### Signs and zeros of finite results -/

theorem F32.finite_of_not_nan_not_inf {a : Word} (hnan : F32.isNaN a = false) (hinf : F32.isInf a = false) :
    F32.isFinite a = true :=
  (F32.finite_or_inf hnan).resolve_right (by simp [hinf])

/-- Only finite numbers have a finite product. -/
theorem F32.finite_of_finite_mul {a b : Word} (h : F32.isFinite (F32.mul a b) = true) :
    F32.isFinite a = true ∧ F32.isFinite b = true := by
  unfold F32.mul at h
  split_ifs at h with hnan hinf
  · simp [F32.not_finite_nan] at h
  · simp [F32.not_finite_nan] at h
  · simp [F32.not_finite_inf] at h
  · simp only [Bool.or_eq_true, not_or, Bool.not_eq_true] at hnan hinf
    exact ⟨F32.finite_of_not_nan_not_inf hnan.1 hinf.1, F32.finite_of_not_nan_not_inf hnan.2 hinf.2⟩

theorem F32.msb_mul {a b : Word} (h : F32.isFinite (F32.mul a b) = true) : (F32.mul a b).msb = (a.msb != b.msb) := by
  obtain ⟨ha, hb⟩ := F32.finite_of_finite_mul h
  rw [F32.mul_of_finite ha hb, F32.msb_pack _ (F32.roundUnits_le _ _)]

theorem F32.msb_add {a b : Word} (ha : F32.isFinite a = true) (hb : F32.isFinite b = true) (hsa : a.msb = false)
    (hsb : b.msb = false) : (F32.add a b).msb = false := by
  have hva : 0 ≤ F32.value a := by rw [F32.value, hsa]; exact Int.natCast_nonneg _
  have hvb : 0 ≤ F32.value b := by rw [F32.value, hsb]; exact Int.natCast_nonneg _
  rw [F32.add_of_finite ha hb]
  split_ifs
  · rw [F32.msb_pack _ (Nat.zero_le _), hsa, Bool.false_and]
  · rw [F32.ofValue, F32.msb_pack _ (F32.roundUnits_le _ _)]
    exact decide_eq_false (by omega)

theorem F32.eq_zero_of_mag {a : Word} (h : F32.mag a = 0) (hs : a.msb = false) : a = 0#32 := by
  rw [← F32.pack_self a, h, hs]
  rfl

/-- Both zeros are the number 0. -/
theorem F32.eq_zero_iff_mag {a : Word} : F32.eq a 0#32 = true ↔ F32.mag a = 0 := by
  have heq : F32.eq a 0#32 = (!F32.isNaN a && decide (F32.key a = 0)) := by
    rw [F32.eq, show F32.isNaN 0#32 = false from rfl, Bool.not_false, Bool.and_true]
    rfl
  have hkey : F32.key a = 0 ↔ F32.mag a = 0 := by
    unfold F32.key
    split_ifs <;> omega
  rw [heq, Bool.and_eq_true, decide_eq_true_eq, hkey]
  refine and_iff_right_of_imp fun h => ?_
  simp [F32.isNaN, h, F32.infMag]

theorem F32.abs_le_one {a : Word} (h : F32.mag a ≤ 0x3F800000) : F32.le (F32.abs a) 0x3F800000#32 = true := by
  have hfinite : F32.isFinite (F32.abs a) = true := (F32.isFinite_abs a).trans (F32.finite_of_mag_le (by decide) h)
  have hkey : F32.key (F32.abs a) ≤ 0x3F800000 := by
    rw [F32.key, F32.msb_abs, if_neg Bool.false_ne_true, F32.mag_abs]
    exact_mod_cast h
  rw [F32.le, F32.not_nan_of_finite hfinite, show F32.key 0x3F800000#32 = 0x3F800000 by decide,
    decide_eq_true hkey]
  rfl

theorem F32.mag_mul_zero {a b : Word} (h : F32.isFinite (F32.mul a b) = true) (hb : F32.mag b = 0) :
    F32.mag (F32.mul a b) = 0 := by
  obtain ⟨ha, hbf⟩ := F32.finite_of_finite_mul h
  have hub : F32.units b = 0 := by rw [F32.units, hb]; rfl
  exact Nat.le_zero.1 (F32.mag_mul_le ha hbf (Nat.zero_le _) (by simp [hub]))

theorem F32.mag_add_zero {a b : Word} (ha : F32.mag a = 0) (hb : F32.mag b = 0) : F32.mag (F32.add a b) = 0 := by
  have hfinite : ∀ {x : Word}, F32.mag x = 0 → F32.isFinite x = true := fun h =>
    F32.finite_of_mag_le (m := 0) (by decide) h.le
  have hvalue : ∀ {x : Word}, F32.mag x = 0 → F32.value x = 0 := fun h =>
    Int.natAbs_eq_zero.1 ((F32.natAbs_value _).trans (by rw [h]; rfl))
  exact Nat.le_zero.1 (F32.mag_add_le (hfinite ha) (hfinite hb) (Nat.zero_le _) (by simp [hvalue ha, hvalue hb]))

theorem F32.mag_div_zero {a b : Word} (ha : F32.mag a = 0) (hb : F32.isFinite b = true) (h0 : F32.mag b ≠ 0) :
    F32.mag (F32.div a b) = 0 := by
  have hua : F32.units a = 0 := by rw [F32.units, ha]; rfl
  have hfa : F32.isFinite a = true := F32.finite_of_mag_le (m := 0) (by decide) ha.le
  exact Nat.le_zero.1 (F32.mag_div_le hfa hb h0 (Nat.zero_le _) (by simp [hua]))

/-- +0 divided by any whole number but 0 is +0, one past the largest finite number included. -/
theorem F32.zero_div_ofInt {n : Nat} (h : 0 < n) : F32.div 0#32 (F32.ofInt n) = 0#32 := by
  have hnan : F32.isNaN (F32.ofInt n) = false := F32.isNaN_pack _ (F32.roundUnits_le _ _)
  cases hinf : F32.isInf (F32.ofInt n) with
  | true =>
    rw [F32.div, hnan, hinf, F32.msb_ofInt]
    rfl
  | false =>
    have hfinite := F32.finite_of_not_nan_not_inf hnan hinf
    refine F32.eq_zero_of_mag (F32.mag_div_zero rfl hfinite (F32.mag_ofInt_ne_zero h)) ?_
    rw [F32.div_of_finite rfl hfinite (F32.mag_ofInt_ne_zero h), F32.msb_pack _ (F32.roundUnits_le _ _), F32.msb_ofInt]
    rfl

/-- Entry U3 (b): the sine of any finite multiple of +0 by a number without a sign is +0. -/
theorem F32.sin_mul_zero {a : Word} (hs : a.msb = false) (h : F32.isFinite (F32.mul a 0#32) = true) :
    F32.sin (F32.mul a 0#32) = 0#32 := by
  have hzero : F32.mul a 0#32 = 0#32 :=
    F32.eq_zero_of_mag (F32.mag_mul_zero h rfl) (by rw [F32.msb_mul h, hs]; rfl)
  rw [hzero]
  rfl

end Sys2Proof.Machine
end

/-! The normalizer (40_wavetable_builder.md R137): the peak as the largest magnitude, in any number format whose comparison
orders the magnitudes, and what a division by it leaves under `NUM_F32`. -/

section
namespace Sys2Proof.Machine

/-- The peak is the value it starts from or the magnitude of some word, and nothing is above it. `key` gives the order of
the magnitudes, which `gt` has to be on the numbers that meet `P`. -/
theorem peakFrom_spec {α β : Type} [LinearOrder β] {F : NumFmt α} {P : α → Prop} {key : α → β}
    (hgt : ∀ a b, P a → P b → (F.gt a b = true ↔ key b < key a)) {peak : α} {acc : List α} (hpeak : P peak)
    (hacc : ∀ x ∈ acc, P (F.abs x)) :
    (peakFrom F peak acc = peak ∨ ∃ x ∈ acc, peakFrom F peak acc = F.abs x) ∧
      key peak ≤ key (peakFrom F peak acc) ∧ ∀ x ∈ acc, key (F.abs x) ≤ key (peakFrom F peak acc) := by
  induction acc generalizing peak with
  | nil => exact ⟨.inl rfl, le_rfl, fun _ hx => absurd hx List.not_mem_nil⟩
  | cons x rest ih =>
    obtain ⟨hx, hrest⟩ := List.forall_mem_cons.1 hacc
    simp only [List.exists_mem_cons_iff, List.forall_mem_cons]
    rw [peakFrom]
    split_ifs with hc
    · obtain ⟨hmem, hle, hall⟩ := ih hx hrest
      have hlt := (hgt _ _ hx hpeak).1 hc
      exact ⟨.inr hmem, hlt.le.trans hle, hle, hall⟩
    · obtain ⟨hmem, hle, hall⟩ := ih hpeak hrest
      have hge := not_lt.1 fun hlt => hc ((hgt _ _ hx hpeak).2 hlt)
      exact ⟨hmem.imp_right .inr, hle, hge.trans hle, hall⟩

/-- Among numbers without a sign the magnitude bits are the order. -/
theorem F32.Unsigned.lt_iff {a b : Word} (ha : F32.Unsigned a) (hb : F32.Unsigned b) :
    F32.lt a b = true ↔ F32.mag a < F32.mag b := by
  simp [F32.lt, F32.key, ha.1, hb.1, ha.2, hb.2]

/-- A word divided by a magnitude at least its own is at most 1. -/
theorem F32.mag_div_peak {a b : Word} (hb : F32.isFinite b = true) (h0 : F32.mag b ≠ 0) (h : F32.mag a ≤ F32.mag b) :
    F32.mag (F32.div a b) ≤ 0x3F800000 := by
  have hlt := (F32.finite_iff b).1 hb
  refine F32.mag_div_le (F32.finite_of_mag_le hlt h) hb h0 (by decide) ?_
  rw [F32.unitsOf_one, Nat.mul_comm]
  exact Nat.mul_le_mul_left _ ((F32.unitsOf_le_iff (h.trans hlt.le) hlt.le).2 h)

/-- The normalizer under `NUM_F32`: a sum that is zero everywhere is left alone, any other is divided by the largest
magnitude in it. -/
theorem normalize_numF32 {acc : List NumWord} (hacc : ∀ x ∈ acc, F32.isFinite x.bits = true) :
    ((∀ x ∈ acc, F32.mag x.bits = 0) ∧ normalize numF32 acc = .ok acc) ∨
      ∃ peak : NumWord, F32.isFinite peak.bits = true ∧ F32.mag peak.bits ≠ 0 ∧
        (∀ x ∈ acc, F32.mag x.bits ≤ F32.mag peak.bits) ∧ (∃ x ∈ acc, F32.mag x.bits = F32.mag peak.bits) ∧
        normalize numF32 acc = .ok (acc.map fun x => numF32.div x peak) := by
  have hzero : F32.Unsigned (numF32.ofInt 0).bits := ⟨by decide, by decide⟩
  have habs : ∀ x ∈ acc, F32.Unsigned (numF32.abs x).bits := fun x hx =>
    ⟨F32.not_nan_of_finite ((F32.isFinite_abs _).trans (hacc x hx)), F32.msb_abs _⟩
  obtain ⟨hmem, -, hall⟩ := peakFrom_spec (F := numF32) (P := fun a => F32.Unsigned a.bits)
    (key := fun a => F32.mag a.bits) (fun _ _ ha hb => hb.lt_iff ha) hzero habs
  simp only [numF32_abs, NumWord.bits_f32, F32.mag_abs] at hmem hall
  rw [normalize]
  generalize peakFrom numF32 (numF32.ofInt 0) acc = peak at hmem hall ⊢
  have hgt : numF32.gt peak (numF32.ofInt 0) = true ↔ F32.mag peak.bits ≠ 0 := by
    have hpeak : F32.Unsigned peak.bits := by
      rcases hmem with rfl | ⟨x, hx, rfl⟩
      · exact hzero
      · exact habs x hx
    exact (hzero.lt_iff hpeak).trans Nat.pos_iff_ne_zero
  by_cases h0 : F32.mag peak.bits = 0
  · rw [if_neg fun h => hgt.1 h h0]
    exact .inl ⟨fun x hx => Nat.le_zero.1 (h0 ▸ hall x hx), rfl⟩
  · obtain ⟨y, hy, hpeak⟩ := hmem.resolve_left fun h => h0 (h ▸ by decide)
    have hmag : F32.mag y.bits = F32.mag peak.bits := by rw [hpeak, NumWord.bits_f32, F32.mag_abs]
    have hfinite : F32.isFinite peak.bits = true := by rw [hpeak]; exact (F32.isFinite_abs _).trans (hacc y hy)
    rw [if_pos (hgt.2 h0)]
    exact .inr ⟨peak, hfinite, h0, hall, ⟨y, hy, hmag⟩, divideBy_eq_ok.2 ⟨rfl, fun x hx =>
      F32.finite_of_mag_le (by decide) (F32.mag_div_peak hfinite h0 (hall x hx))⟩⟩

/-- A silent sum stays as it is. -/
theorem normalize_silent {acc : List NumWord} (h : ∀ x ∈ acc, F32.mag x.bits = 0) : normalize numF32 acc = .ok acc := by
  have hfinite : ∀ x ∈ acc, F32.isFinite x.bits = true := fun x hx =>
    F32.finite_of_mag_le (m := 0) (by decide) (h x hx).le
  rcases normalize_numF32 hfinite with ⟨-, hkeep⟩ | ⟨peak, -, hp0, -, ⟨x, hx, hpeak⟩, -⟩
  · exact hkeep
  · exact absurd (hpeak.symm.trans (h x hx)) hp0

end Sys2Proof.Machine
end

/-! What a build that completes has put into the table (40_wavetable_builder.md R131 to R139): index 0 holds a zero, since
every partial there is a multiple of the sine of +0, and the division by the peak leaves 1 or -1 where the peak was. -/

section
namespace Sys2Proof.Machine

/-! ### One partial and the sum -/

section Sum
variable {α : Type} {F : NumFmt α}

/-- Every word of the sum is its old word and the partial at its index, added and found finite. -/
theorem addPartial_getElem? {n : Nat} {m amp : α} {acc out : List α} {i : Nat}
    (h : addPartial F n m amp i acc = .ok out) {j : Nat} {y : α} (hy : out[j]? = some y) :
    ∃ x t, acc[j]? = some x ∧ partialAt F n m amp (i + j) = .ok t ∧ F.isFinite y = true ∧ y = F.add x t := by
  induction acc generalizing i j out with
  | nil => cases h; simp at hy
  | cons x rest ih =>
    simp only [addPartial, bind_eq_ok, finiteOr_eq_ok] at h
    obtain ⟨t, ht, _, ⟨hfinite, rfl⟩, ys, hys, hout⟩ := h
    cases hout
    cases j with
    | zero => cases hy; exact ⟨x, t, rfl, ht, hfinite, rfl⟩
    | succ j =>
      obtain ⟨x', t', hx', ht', hy'⟩ := ih hys hy
      exact ⟨x', t', hx', by rwa [Nat.add_right_comm] at ht', hy'⟩

/-- What every partial keeps, their sum keeps. -/
theorem addHarmonics_keeps {P : List α → Prop} {n : Nat} {k : Kind} {f0 nyq : α}
    (hP : ∀ ord m amp acc out, phaseMultiplier F k (harmonicNumber k ord) = .ok m →
      addPartial F n m amp 0 acc = .ok out → P acc → P out)
    {count ord : Nat} {acc out : List α} (h : addHarmonics F n k f0 nyq count ord acc = .ok out) (hacc : P acc) :
    P out := by
  induction count generalizing ord acc with
  | zero => cases h; exact hacc
  | succ count ih =>
    simp only [addHarmonics, bind_eq_ok] at h
    obtain ⟨f, -, h⟩ := h
    split_ifs at h
    · cases h; exact hacc
    · simp only [bind_eq_ok] at h
      obtain ⟨m, hm, amp, -, acc', hacc', h⟩ := h
      exact ih h (hP _ _ _ _ _ hm hacc' hacc)

theorem withGuard_getElem?_zero {acc : List α} (h : acc ≠ []) : (withGuard F acc)[0]? = acc[0]? :=
  List.getElem?_append_left (List.length_pos_of_ne_nil h)

/-- The guard brings no new word into a table. -/
theorem mem_withGuard {acc : List α} (h : acc ≠ []) {x : α} : x ∈ withGuard F acc ↔ x ∈ acc := by
  cases acc with
  | nil => exact absurd rfl h
  | cons y rest =>
    rw [withGuard, List.mem_append, List.mem_singleton]
    exact or_iff_left_of_imp fun hx => hx ▸ List.mem_cons_self

theorem withGuard_replicate (n : Nat) :
    withGuard F (List.replicate n (F.ofInt 0)) = List.replicate (n + 1) (F.ofInt 0) := by
  rw [withGuard, List.replicate_succ']
  cases n <;> rfl

end Sum

/-! ### Index 0 under `NUM_F32` -/

/-- No phase multiplier that a build goes on with has a sign (R132 to R135). -/
theorem msb_phaseMultiplier {k : Kind} {h : Nat} {m : NumWord} (hm : phaseMultiplier numF32 k h = .ok m) :
    m.bits.msb = false := by
  cases k with
  | sine | square | triangle => cases hm; exact F32.msb_ofInt h
  | saw =>
    simp only [phaseMultiplier, bind_eq_ok, finiteOr_eq_ok] at hm
    obtain ⟨_, ⟨hdetune, rfl⟩, _, ⟨-, rfl⟩, hprod, rfl⟩ := hm
    simp only [numF32_isFinite, numF32_mul, numF32_add, numF32_ofInt, numF32_lit, NumWord.bits_f32] at hdetune hprod ⊢
    have hdetune0 : (F32.mul (F32.lit 5 2) (F32.ofInt h)).msb = false := by
      rw [F32.msb_mul hdetune, F32.msb_ofInt]
      decide
    rw [F32.msb_mul hprod, F32.msb_ofInt, F32.msb_add (by decide) hdetune (by decide) hdetune0]
    rfl

/-- A partial at index 0 is a zero (R131, entry U3). -/
theorem partialAt_zero {n : Nat} (hn : 0 < n) {m amp t : NumWord} (hm : m.bits.msb = false)
    (h : partialAt numF32 n m amp 0 = .ok t) : F32.mag t.bits = 0 := by
  simp only [partialAt, theta, bind_eq_ok, finiteOr_eq_ok] at h
  obtain ⟨_, ⟨_, ⟨-, rfl⟩, _, ⟨-, rfl⟩, -, rfl⟩, _, ⟨hphase, rfl⟩, _, ⟨-, rfl⟩, hprod, rfl⟩ := h
  have htheta : F32.mul (F32.mul (F32.ofInt 2) F32.pi) (F32.ofInt (0 : Nat)) = 0#32 := by decide
  simp only [numF32_isFinite, numF32_mul, numF32_div, numF32_sin, numF32_ofInt, numF32_pi, NumWord.bits_f32, htheta,
    F32.zero_div_ofInt hn] at hphase hprod ⊢
  rw [F32.sin_mul_zero hm hphase] at hprod ⊢
  exact F32.mag_mul_zero hprod rfl

/-- Every word of a sum of partials is finite, and the one at index 0 is a zero. -/
def StartsAtZero (acc : List NumWord) : Prop :=
  (∀ x ∈ acc, F32.isFinite x.bits = true) ∧ ∀ x, acc[0]? = some x → F32.mag x.bits = 0

theorem startsAtZero_replicate (n : Nat) : StartsAtZero (List.replicate n (numF32.ofInt 0)) := by
  have hzero : ∀ x ∈ List.replicate n (numF32.ofInt 0), x = .f32 0x00000000#32 := fun x hx =>
    (List.eq_of_mem_replicate hx).trans (congrArg NumWord.f32 ofInt_zero)
  refine ⟨fun x hx => ?_, fun x hx => ?_⟩
  · rw [hzero x hx]; decide
  · rw [hzero x (List.mem_of_getElem? hx)]; decide

theorem startsAtZero_addPartial {n : Nat} (hn : 0 < n) {m amp : NumWord} {acc out : List NumWord}
    (hm : m.bits.msb = false) (h : addPartial numF32 n m amp 0 acc = .ok out) (hacc : StartsAtZero acc) :
    StartsAtZero out := by
  refine ⟨fun y hy => ?_, fun y hy => ?_⟩
  · obtain ⟨j, hj⟩ := List.mem_iff_getElem?.1 hy
    obtain ⟨x, t, -, -, hfinite, -⟩ := addPartial_getElem? h hj
    exact hfinite
  · obtain ⟨x, t, hx, ht, -, rfl⟩ := addPartial_getElem? h hy
    exact F32.mag_add_zero (hacc.2 x hx) (partialAt_zero hn hm ht)

theorem startsAtZero_addHarmonics {n : Nat} (hn : 0 < n) {k : Kind} {f0 nyq : NumWord} {count ord : Nat}
    {acc : List NumWord}
    (h : addHarmonics numF32 n k f0 nyq count ord (List.replicate n (numF32.ofInt 0)) = .ok acc) : StartsAtZero acc :=
  addHarmonics_keeps (fun _ _ _ _ _ hm hout => startsAtZero_addPartial hn (msb_phaseMultiplier hm) hout) h
    (startsAtZero_replicate n)

/-! ### The table -/

/-- Settles O30: the sum is zero at index 0, and the normalizer keeps a silent sum or divides by the largest magnitude. -/
theorem builtTableIsSilentOrPeaksAtExactlyOne : Obligations.BuiltTableIsSilentOrPeaksAtExactlyOne := by
  intro n k harm f0 fs words hn h
  refine ⟨buildWords_length h, buildWords_guard hn h, ?_⟩
  obtain ⟨-, acc, out, hsum, hnorm, rfl⟩ := buildWords_eq_ok.1 h
  obtain ⟨hfinite, hfirst⟩ := startsAtZero_addHarmonics hn hsum
  have hlen : out.length = n := by simp [normalize_length hnorm, addHarmonics_length hsum]
  have hne : out ≠ [] := List.ne_nil_of_length_pos (hlen ▸ hn)
  simp only [withGuard_getElem?_zero hne, mem_withGuard hne, F32.eq_zero_iff_mag]
  rcases normalize_numF32 hfinite with ⟨hsilent, hkeep⟩ | ⟨peak, hpf, hp0, hmax, ⟨x, hx, hpeak⟩, hdiv⟩
  · cases hkeep.symm.trans hnorm
    exact ⟨hfirst, .inl hsilent⟩
  · cases hdiv.symm.trans hnorm
    refine ⟨fun w hw => ?_, .inr ⟨fun w hw => ?_, ?_⟩⟩
    · obtain ⟨y, hy, rfl⟩ := Option.map_eq_some_iff.1 ((List.getElem?_map ..).symm.trans hw)
      exact F32.mag_div_zero (hfirst y hy) hpf hp0
    · obtain ⟨y, hy, rfl⟩ := List.mem_map.1 hw
      exact F32.abs_le_one (F32.mag_div_peak hpf hp0 (hmax y hy))
    · obtain ⟨i, hi⟩ := List.mem_iff_getElem?.1 hx
      have hlt : i < n := by
        rw [← hlen, List.length_map]
        exact (List.getElem?_eq_some_iff.1 hi).1
      refine ⟨i, numF32.div x peak, hlt, ?_, ?_⟩
      · rw [withGuard, List.getElem?_append_left (hlen ▸ hlt), List.getElem?_map, hi]
        rfl
      · rw [numF32_div, F32.div_same_mag (hfinite x hx) hpf hpeak hp0]
        cases x.bits.msb != peak.bits.msb
        · exact .inl rfl
        · exact .inr rfl

/-- Settles O31: the first harmonic is the fundamental itself and ends the sum, and the zeros left are not divided. -/
theorem fundamentalAtNyquistGivesASilentTable : Obligations.FundamentalAtNyquistGivesASilentTable := by
  intro n k harm f0 fs hn hf0 hfs hge
  have hsum : addHarmonics numF32 n k f0 (numF32.div fs (numF32.ofInt 2)) harm 1 (List.replicate n (numF32.ofInt 0))
      = .ok (List.replicate n (numF32.ofInt 0)) := by
    cases harm with
    | zero => rfl
    | succ count =>
      have hfirst : numF32.mul f0 (numF32.ofInt (1 : Nat)) = .f32 f0.bits := congrArg NumWord.f32 (F32.mul_one hf0)
      rw [addHarmonics, harmonicNumber_one, hfirst, finiteOr_of hf0, ok_bind]
      exact if_pos hge
  have hsilent : ∀ x ∈ List.replicate n (numF32.ofInt 0), F32.mag x.bits = 0 := fun x hx => by
    rw [List.eq_of_mem_replicate hx]
    decide
  have hwords : List.replicate (n + 1) (.f32 0x00000000#32) = withGuard numF32 (List.replicate n (numF32.ofInt 0)) := by
    rw [withGuard_replicate, numF32_ofInt, ofInt_zero]
  exact buildWords_eq_ok.2 ⟨F32.finite_div_two hfs, _, _, hsum, normalize_silent hsilent, hwords⟩

end Sys2Proof.Machine
end

/-! That a build completes under `NUM_F32` (93_implementation_defined.md U4): every intermediate of R131 stays within a whole
number that the format holds, so `build` and `rebuild_all` answer a state. -/

section
namespace Sys2Proof.Machine

/-! ### Operations that complete -/

/-- An operation that does not stop, and what its answer meets. -/
def Completes {ε α : Type} (P : α → Prop) (m : Except ε α) : Prop := ∃ x, m = .ok x ∧ P x

theorem completes_ok {ε α : Type} {P : α → Prop} {x : α} (h : P x) : Completes P (.ok x : Except ε α) := ⟨x, rfl, h⟩

theorem Completes.bind {ε α β : Type} {P : α → Prop} {Q : β → Prop} {m : Except ε α} {f : α → Except ε β}
    (hm : Completes P m) (hf : ∀ x, P x → Completes Q (f x)) : Completes Q (m >>= f) := by
  obtain ⟨x, rfl, hx⟩ := hm
  exact hf x hx

/-- A checked result completes with itself where it is finite. -/
theorem completes_finiteOr {α : Type} {F : NumFmt α} {P : α → Prop} {x : α} (h : F.isFinite x = true) (hP : P x) :
    Completes P (finiteOr F x) :=
  ⟨x, finiteOr_of h, hP⟩

/-- A checked result within a whole number completes within it. -/
theorem completes_within {c : Nat} {x : NumWord} (h : NumWithin c x) : Completes (NumWithin c) (finiteOr numF32 x) :=
  completes_finiteOr h.1 h

theorem numWithin_one : NumWithin 1 (numF32.ofInt 1) := ⟨by decide, by decide⟩

/-! ### One partial -/

/-- Sixteen ordinals reach harmonic 31, or 16 where every harmonic counts (R132 to R135). -/
theorem harmonicNumber_bounds (k : Kind) {n : Nat} (h0 : 1 ≤ n) (h : n ≤ 16) :
    1 ≤ harmonicNumber k n ∧ harmonicNumber k n ≤ 31 ∧ (k = .saw → harmonicNumber k n ≤ 16) := by
  cases k <;> simp [harmonicNumber] <;> omega

theorem phaseMultiplier_completes {k : Kind} {h : Nat} (h31 : h ≤ 31) (hsaw : k = .saw → h ≤ 16) :
    Completes (NumWithin 272) (phaseMultiplier numF32 k h) := by
  cases k with
  | sine | square | triangle => exact completes_ok (numWithin_ofInt (by omega) (by norm_num))
  | saw =>
    have hh : NumWithin 16 (numF32.ofInt h) := numWithin_ofInt (hsaw rfl) (by norm_num)
    have hdetune : NumWithin 1 (numF32.lit 5 2) := ⟨by decide, by decide⟩
    exact (completes_within (hdetune.mul hh (e := 16) (by norm_num) (by norm_num))).bind fun t ht =>
      (completes_within (numWithin_one.add ht (e := 17) (by norm_num) (by norm_num))).bind fun u hu =>
        completes_within (hh.mul hu (by norm_num) (by norm_num))

theorem amplitude_completes {k : Kind} (n : Nat) {h : Nat} (h0 : 1 ≤ h) (h31 : h ≤ 31) :
    Completes (NumWithin 2) (amplitude numF32 k n h) := by
  cases k with
  | sine | saw => exact completes_within (numWithin_one.div_ofInt h0 (by omega) (by omega) (by norm_num))
  | square =>
    have hscale : NumWithin 2 (numF32.div (numF32.ofInt 4) numF32.pi) := ⟨by decide, by decide⟩
    have hinv : NumWithin 1 (numF32.div (numF32.ofInt 1) (numF32.ofInt h)) :=
      numWithin_one.div_ofInt h0 (by omega) (by omega) (by norm_num)
    exact (completes_within hscale).bind fun c hc =>
      (completes_within hinv).bind fun t ht => completes_within (hc.mul ht (by norm_num) (by norm_num))
  | triangle =>
    have hsquare : numF32.isFinite (numF32.mul numF32.pi numF32.pi) = true := by decide
    have hscale : NumWithin 1 (numF32.div (numF32.ofInt 8) (numF32.mul numF32.pi numF32.pi)) :=
      ⟨by decide, by decide⟩
    have hq0 : 0 < h * h := by positivity
    have hq : h * h ≤ 2 ^ 24 := (Nat.mul_le_mul h31 h31).trans (by norm_num)
    have hmul : numF32.mul (numF32.ofInt h) (numF32.ofInt h) = numF32.ofInt (h * h : Nat) :=
      congrArg NumWord.f32 (F32.mul_ofInt (by omega) (by omega))
    have hmulFinite : numF32.isFinite (numF32.ofInt (h * h : Nat)) = true := F32.finite_ofInt hq
    have hsign : NumWithin 1 (if n % 2 = 1 then numF32.ofInt 1 else numF32.neg (numF32.ofInt 1)) := by
      split_ifs
      · exact numWithin_one
      · exact numWithin_one.neg
    rw [amplitude, finiteOr_of hsquare, ok_bind, hmul, finiteOr_of hmulFinite]
    exact (completes_within hscale).bind fun c hc =>
      (completes_within (hsign.div_ofInt hq0 hq (c := 1) (by omega) (by norm_num))).bind fun t ht =>
        completes_within (hc.mul ht (by norm_num) (by norm_num))

theorem theta_completes {n i : Nat} (h0 : 0 < n) (hn : n ≤ 65536) (hi : i ≤ n) :
    Completes (NumWithin 7) (theta numF32 n i) := by
  have hturn : NumWithin 7 (numF32.mul (numF32.ofInt 2) numF32.pi) := ⟨by decide, by decide⟩
  have hindex : NumWithin n (numF32.ofInt i) := numWithin_ofInt hi (by omega)
  exact (completes_within hturn).bind fun t ht =>
    (completes_within (ht.mul hindex le_rfl (by omega))).bind fun u hu =>
      completes_within (hu.div_ofInt h0 (by omega) le_rfl (by norm_num))

/-- A partial of amplitude at most 2 is at most 2 (R131, entry U3 (c)). -/
theorem partialAt_completes {n i : Nat} (h0 : 0 < n) (hn : n ≤ 65536) (hi : i ≤ n) {m amp : NumWord}
    (hm : NumWithin 272 m) (hamp : NumWithin 2 amp) : Completes (NumWithin 2) (partialAt numF32 n m amp i) :=
  (theta_completes h0 hn hi).bind fun _ ht =>
    (completes_within (hm.mul ht (e := 1904) (by norm_num) (by norm_num))).bind fun _ hu =>
      (completes_within (numWithin_sin hu.1)).bind fun _ hw =>
        completes_within (hamp.mul hw (by norm_num) (by norm_num))

/-! ### The sum -/

theorem addPartial_completes {n c : Nat} (h0 : 0 < n) (hn : n ≤ 65536) (hc : c + 2 ≤ 2 ^ 24) {m amp : NumWord}
    (hm : NumWithin 272 m) (hamp : NumWithin 2 amp) {acc : List NumWord} {i : Nat} (hi : i + acc.length ≤ n)
    (hacc : ∀ x ∈ acc, NumWithin c x) :
    Completes (fun out => ∀ y ∈ out, NumWithin (c + 2) y) (addPartial numF32 n m amp i acc) := by
  induction acc generalizing i with
  | nil => exact completes_ok fun _ hy => absurd hy List.not_mem_nil
  | cons x rest ih =>
    rw [List.length_cons] at hi
    obtain ⟨hx, hrest⟩ := List.forall_mem_cons.1 hacc
    exact (partialAt_completes h0 hn (by omega) hm hamp).bind fun t ht =>
      (completes_within (hx.add ht le_rfl hc)).bind fun y hy => (ih (by omega) hrest).bind fun ys hys =>
        completes_ok (List.forall_mem_cons.2 ⟨hy, hys⟩)

/-- The sum over at most 16 ordinals: before ordinal `n` every word is within `2 * n`. -/
theorem addHarmonics_completes {n : Nat} (h0 : 0 < n) (hn : n ≤ 65536) {k : Kind} {f0 nyq : NumWord}
    (hf0 : F32.isFinite f0.bits = true) (hf31 : F32.isFinite (F32.mul f0.bits (F32.ofInt 31)) = true) {count ord : Nat}
    {acc : List NumWord} (hord : 1 ≤ ord) (hcount : ord + count ≤ 17) (hlen : acc.length = n)
    (hacc : ∀ x ∈ acc, NumWithin (2 * ord) x) :
    Completes (fun out => ∀ y ∈ out, F32.isFinite y.bits = true) (addHarmonics numF32 n k f0 nyq count ord acc) := by
  induction count generalizing ord acc with
  | zero => exact completes_ok fun y hy => (hacc y hy).1
  | succ count ih =>
    obtain ⟨h1, h31, hsaw⟩ := harmonicNumber_bounds k hord (by omega)
    refine (completes_finiteOr (P := fun _ => True) (F32.finite_mul_ofInt hf0 h31 (by norm_num) hf31) trivial).bind
      fun f _ => ?_
    split_ifs
    · exact completes_ok fun y hy => (hacc y hy).1
    · refine (phaseMultiplier_completes h31 hsaw).bind fun m hm => (amplitude_completes ord h1 h31).bind fun amp hamp => ?_
      obtain ⟨out, hout, hwithin⟩ := addPartial_completes h0 hn (by omega) hm hamp (i := 0) (by omega) hacc
      rw [hout, ok_bind]
      exact ih (by omega) (by omega) ((addPartial_length hout).trans hlen) hwithin

/-- A build on operands of entry U4's range completes. -/
theorem buildWords_completes {n : Nat} {k : Kind} {harm : Nat} {f0 fs : NumWord} (hharm : harm ≤ 16)
    (h : BuildInRange n f0 fs) : ∃ words, buildWords numF32 n k harm f0 fs = .ok words := by
  obtain ⟨h0, hn, hfs, hf0, hf31⟩ := h
  have hzero : ∀ x ∈ List.replicate n (numF32.ofInt 0), NumWithin (2 * 1) x := fun x hx => by
    rw [List.eq_of_mem_replicate hx]
    exact ⟨by decide, by decide⟩
  obtain ⟨acc, hsum, hfinite⟩ := addHarmonics_completes (k := k) (nyq := numF32.div fs (numF32.ofInt 2)) (count := harm)
    h0 hn hf0 hf31 le_rfl (by omega) List.length_replicate hzero
  have hnorm : ∃ out, normalize numF32 acc = .ok out := by
    rcases normalize_numF32 hfinite with ⟨-, hkeep⟩ | ⟨peak, -, -, -, -, hdiv⟩
    · exact ⟨_, hkeep⟩
    · exact ⟨_, hdiv⟩
  obtain ⟨out, hout⟩ := hnorm
  exact ⟨withGuard numF32 out, buildWords_eq_ok.2 ⟨F32.finite_div_two hfs, acc, out, hsum, hout, rfl⟩⟩

/-! ### The operations -/

/-- The internal operation `build` on operands of entry U4's range writes one table and its attributes. -/
theorem build_replaces {s : State} {k : Kind} {h : BitVec 5} {f0 fs : Word} (hnum : s.par.num = .f32)
    (hh : h.toNat ≤ 16) (hrange : BuildInRange s.par.tableSize (.f32 f0) (.f32 fs)) :
    ∃ words, buildWords numF32 s.par.tableSize k h.toNat (.f32 f0) (.f32 fs) = .ok words ∧
      exec (.build k h f0 fs) s = .next { s with
        tbl := s.tbl.set k (Mem.fromWords 0 words)
        tblAttr := s.tblAttr.set k { h := h, fs := .f32 fs } } := by
  obtain ⟨words, hwords⟩ := buildWords_completes (k := k) hh hrange
  refine ⟨words, hwords, (finish_eq_next _ _).2 (buildTable_eq_ok.2 ⟨words, ?_, ?_⟩)⟩
  · rw [fmt_f32 hnum, numword_f32 hnum, numword_f32 hnum, hwords]
  · rw [numword_f32 hnum]

/-- Settles O29: a build in range completes, and a build that completes writes one table. -/
theorem buildReplacesOneWholeTable : Obligations.BuildReplacesOneWholeTable := by
  refine ⟨fun s k h f0 fs hnum hh hrange => ?_, fun s hnum hh hrange => ?_⟩
  · obtain ⟨words, hwords, hexec⟩ := build_replaces (k := k) hnum hh hrange
    have hlen := buildWords_length hwords
    have hread : ∀ {t : State} {i x}, t.tbl = s.tbl.set k (Mem.fromWords 0 words) → words[i]? = some x →
        tblRead t k i = x := fun ht hx => tblRead_of_fromWords (by rw [ht, PerKind.get_set_same]) hx
    refine ⟨_, words, hexec, hwords, hlen, fun i x => hread rfl, ?_, ?_, ?_, rfl⟩
    · have hguard := List.getElem?_eq_getElem (l := words) (i := 0) (by omega)
      rw [hread rfl hguard]
      exact hread rfl ((buildWords_guard hrange.1 hwords).trans hguard)
    · exact PerKind.get_set_same ..
    · exact fun k' hk' => ⟨PerKind.get_set_other _ _ hk', PerKind.get_set_other _ _ hk'⟩
  · choose words hwords using fun k => buildWords_completes (k := k) hh hrange
    refine ⟨_, (finish_eq_next _ _).2 (rebuildTables_eq_ok.2 ⟨words, ?_, rfl⟩), ?_, rfl⟩
    · rwa [fmt_f32 hnum]
    · intro k
      refine ⟨words k, hwords k, ?_⟩
      cases k <;> exact ⟨rfl, rfl⟩

end Sys2Proof.Machine
end

/-! The builder over the reals (40_wavetable_builder.md R131 to R138): no value stops a build there, the sum over the ordinals
is `realSum`, and a format of number words that is `NUM_REAL` builds the same values (log entry 1). -/

section
namespace Sys2Proof.Machine

/-! ### The real numbers, field by field -/

@[simp] theorem numReal_ofInt (k : Int) : numReal.ofInt k = (k : ℝ) := rfl
@[simp] theorem numReal_lit (m d : Nat) : numReal.lit m d = (m : ℝ) / 10 ^ d := rfl
@[simp] theorem numReal_add (a b : ℝ) : numReal.add a b = a + b := rfl
@[simp] theorem numReal_mul (a b : ℝ) : numReal.mul a b = a * b := rfl
@[simp] theorem numReal_div (a b : ℝ) : numReal.div a b = a / b := rfl
@[simp] theorem numReal_neg (a : ℝ) : numReal.neg a = -a := rfl
@[simp] theorem numReal_abs (a : ℝ) : numReal.abs a = |a| := rfl
@[simp] theorem numReal_sin (a : ℝ) : numReal.sin a = Real.sin a := rfl
@[simp] theorem numReal_pi : numReal.pi = Real.pi := rfl
@[simp] theorem numReal_gt_iff (a b : ℝ) : numReal.gt a b = true ↔ b < a := decide_eq_true_iff
@[simp] theorem numReal_ge_iff (a b : ℝ) : numReal.ge a b = true ↔ b ≤ a := decide_eq_true_iff

/-- Every real number passes the builder's test. -/
@[simp] theorem finiteOr_numReal (x : ℝ) : finiteOr numReal x = .ok x := rfl

/-! ### One partial -/

/-- The harmonics of the square and the triangle (R134, R135). -/
theorem cast_oddHarmonic {n : Nat} (h : 1 ≤ n) : ((2 * n - 1 : Nat) : ℝ) = 2 * n - 1 := by
  rw [Nat.cast_pred (by omega), Nat.cast_mul, Nat.cast_ofNat]

theorem phaseMultiplier_numReal (k : Kind) {n : Nat} (h : 1 ≤ n) :
    phaseMultiplier numReal k (harmonicNumber k n) = .ok (realMultiplier k n) := by
  cases k with
  | sine => simp [phaseMultiplier, harmonicNumber, realMultiplier]
  | saw => norm_num [phaseMultiplier, harmonicNumber, realMultiplier]
  | square | triangle => simp [phaseMultiplier, harmonicNumber, realMultiplier, cast_oddHarmonic h]

/-- The alternating sign of R135, by the parity of the ordinal. -/
theorem neg_one_pow_succ (n : Nat) : (if n % 2 = 1 then (1 : ℝ) else -1) = (-1) ^ (n + 1) := by
  rcases Nat.mod_two_eq_zero_or_one n with h | h
  · rw [if_neg (by omega), Odd.neg_one_pow (Nat.odd_iff.2 (by omega))]
  · rw [if_pos h, Even.neg_one_pow (Nat.even_iff.2 (by omega))]

theorem amplitude_numReal (k : Kind) {n : Nat} (h : 1 ≤ n) :
    amplitude numReal k n (harmonicNumber k n) = .ok (realAmplitude k n) := by
  cases k with
  | sine | saw => simp [amplitude, harmonicNumber, realAmplitude]
  | square => simp [amplitude, harmonicNumber, realAmplitude, cast_oddHarmonic h]
  | triangle => simp [amplitude, harmonicNumber, realAmplitude, cast_oddHarmonic h, neg_one_pow_succ]

theorem partialAt_numReal (n : Nat) (m amp : ℝ) (i : Nat) :
    partialAt numReal n m amp i = .ok (amp * Real.sin (m * (2 * Real.pi * i / n))) := by
  simp [partialAt, theta]

/-! ### The sum -/

/-- Adding a partial to a list of the values of `g` at the indices `i`, `i + 1`, ... -/
theorem addPartial_numReal (n : Nat) (m amp : ℝ) (g : Nat → ℝ) (i len : Nat) :
    addPartial numReal n m amp i ((List.range' i len).map g)
      = .ok ((List.range' i len).map fun j => g j + amp * Real.sin (m * (2 * Real.pi * j / n))) := by
  induction len generalizing i with
  | zero => rfl
  | succ len ih =>
    simp only [List.range'_succ, List.map_cons, addPartial, partialAt_numReal, finiteOr_numReal, ok_bind, ih]
    rfl

theorem realSum_succ (k : Kind) (n count i : Nat) :
    realSum k n (count + 1) i
      = realSum k n count i
        + realAmplitude k (count + 1) * Real.sin (realMultiplier k (count + 1) * (2 * Real.pi * i / n)) := by
  simp [realSum, List.range_succ]

/-- The sums of the first `count` partials at every index below the guard. -/
noncomputable def realSums (k : Kind) (n count : Nat) : List ℝ := (List.range n).map (realSum k n count)

theorem realSums_zero (k : Kind) (n : Nat) : realSums k n 0 = List.replicate n (numReal.ofInt 0) := by
  refine List.eq_replicate_iff.2 ⟨by simp [realSums], fun x hx => ?_⟩
  obtain ⟨i, -, rfl⟩ := List.mem_map.1 hx
  simp [realSum]

theorem addPartial_realSums (k : Kind) (n count : Nat) :
    addPartial numReal n (realMultiplier k (count + 1)) (realAmplitude k (count + 1)) 0 (realSums k n count)
      = .ok (realSums k n (count + 1)) := by
  rw [realSums, realSums, List.range_eq_range', addPartial_numReal]
  exact congrArg Except.ok (List.map_congr_left fun i _ => (realSum_succ k n count i).symm)

/-- The sum goes on from `start` partials to the first harmonic at or above Nyquist, or over `count` more (R136). -/
theorem addHarmonics_numReal (k : Kind) (n count start : Nat) (f0 nyq : ℝ) :
    ∃ stop, start ≤ stop ∧ stop ≤ start + count ∧
      addHarmonics numReal n k f0 nyq count (start + 1) (realSums k n start) = .ok (realSums k n stop) ∧
      (∀ j, start < j → j ≤ stop → f0 * (harmonicNumber k j : ℝ) < nyq) ∧
      (stop < start + count → nyq ≤ f0 * (harmonicNumber k (stop + 1) : ℝ)) := by
  induction count generalizing start with
  | zero => exact ⟨start, le_rfl, le_rfl, rfl, fun j h1 h2 => absurd h1 (by omega), fun h => absurd h (by omega)⟩
  | succ count ih =>
    have hge : numReal.ge (numReal.mul f0 (numReal.ofInt (harmonicNumber k (start + 1)))) nyq = true ↔
        nyq ≤ f0 * (harmonicNumber k (start + 1) : ℝ) := by simp
    by_cases hstop : nyq ≤ f0 * (harmonicNumber k (start + 1) : ℝ)
    · refine ⟨start, le_rfl, by omega, ?_, fun j h1 h2 => absurd h1 (by omega), fun _ => hstop⟩
      rw [addHarmonics, finiteOr_numReal, ok_bind, if_pos (hge.2 hstop)]
    · obtain ⟨stop, hle, hle', hsum, hbelow, hend⟩ := ih (start + 1)
      refine ⟨stop, by omega, by omega, ?_, fun j h1 h2 => ?_, fun h => hend (by omega)⟩
      · rw [addHarmonics, finiteOr_numReal, ok_bind, if_neg (mt hge.1 hstop), phaseMultiplier_numReal k (by omega),
          amplitude_numReal k (by omega), ok_bind, ok_bind, addPartial_realSums, ok_bind, hsum]
      · rcases Nat.eq_or_lt_of_le h1 with rfl | h1
        · exact not_le.1 hstop
        · exact hbelow j h1 h2

/-! ### The peak -/

/-- The peak is the largest magnitude of a table that is not empty, and divides every word where it is above 0 (R137). -/
theorem normalize_numReal {acc : List ℝ} (hne : acc ≠ []) :
    ∃ peak, (∀ x ∈ acc, |x| ≤ peak) ∧ (∃ x ∈ acc, |x| = peak) ∧
      normalize numReal acc = .ok (acc.map fun x => if 0 < peak then x / peak else x) := by
  obtain ⟨hmem, hzero, hall⟩ := peakFrom_spec (F := numReal) (P := fun _ => True) (key := id)
    (fun a b _ _ => numReal_gt_iff a b) (peak := numReal.ofInt 0) (acc := acc) trivial fun _ _ => trivial
  simp only [numReal_abs, numReal_ofInt, Int.cast_zero, id_eq] at hmem hzero hall
  rw [normalize, numReal_ofInt, Int.cast_zero]
  generalize peakFrom numReal 0 acc = peak at hmem hzero hall ⊢
  refine ⟨peak, hall, ?_, ?_⟩
  · rcases hmem with rfl | ⟨x, hx, hpeak⟩
    · obtain ⟨x, hx⟩ := List.exists_mem_of_ne_nil acc hne
      exact ⟨x, hx, le_antisymm (hall x hx) (abs_nonneg x)⟩
    · exact ⟨x, hx, hpeak.symm⟩
  · by_cases hpos : 0 < peak
    · simp only [if_pos ((numReal_gt_iff peak 0).2 hpos), if_pos hpos]
      exact divideBy_eq_ok.2 ⟨rfl, fun _ _ => rfl⟩
    · simp only [if_neg (mt (numReal_gt_iff peak 0).1 hpos), if_neg hpos, List.map_id']

/-! ### Formats that are `NUM_REAL` -/

/-- An operation on number words and one on the reals that both answer, the second with the value of the first's. -/
def ReadsAs {α β : Type} (v : α → β) (m : Except NumWord α) (r : Except ℝ β) : Prop := ∃ x, m = .ok x ∧ r = .ok (v x)

theorem readsAs_ok {α β : Type} {v : α → β} {x : α} {y : β} (h : v x = y) : ReadsAs v (.ok x) (.ok y) :=
  ⟨x, rfl, congrArg Except.ok h.symm⟩

theorem ReadsAs.bind {α β γ δ : Type} {v : α → β} {w : γ → δ} {m : Except NumWord α} {r : Except ℝ β}
    {f : α → Except NumWord γ} {g : β → Except ℝ δ} (h : ReadsAs v m r) (hfg : ∀ x, ReadsAs w (f x) (g (v x))) :
    ReadsAs w (m >>= f) (r >>= g) := by
  obtain ⟨x, rfl, rfl⟩ := h
  exact hfg x

section Coded
variable {F : NumFmt NumWord} {val : NumWord → ℝ}

theorem ReadsReal.finiteOr (h : ReadsReal F val) {x : NumWord} {y : ℝ} (hxy : val x = y) :
    ReadsAs val (finiteOr F x) (finiteOr numReal y) :=
  ⟨x, finiteOr_of (h.isFinite x), congrArg Except.ok hxy.symm⟩

theorem ReadsReal.phaseMultiplier (h : ReadsReal F val) (k : Kind) (n : Nat) :
    ReadsAs val (phaseMultiplier F k n) (phaseMultiplier numReal k n) := by
  cases k with
  | sine | square | triangle => exact readsAs_ok (h.ofInt _)
  | saw =>
    exact (h.finiteOr (by rw [h.mul, h.lit, h.ofInt])).bind fun t => (h.finiteOr (by rw [h.add, h.ofInt])).bind fun u =>
      h.finiteOr (by rw [h.mul, h.ofInt])

theorem ReadsReal.amplitude (h : ReadsReal F val) (k : Kind) (n m : Nat) :
    ReadsAs val (amplitude F k n m) (amplitude numReal k n m) := by
  have hinv : val (F.div (F.ofInt 1) (F.ofInt m)) = numReal.div (numReal.ofInt 1) (numReal.ofInt m) := by
    rw [h.div, h.ofInt, h.ofInt]
  cases k with
  | sine | saw => exact h.finiteOr hinv
  | square =>
    exact (h.finiteOr (by rw [h.div, h.ofInt, h.pi])).bind fun c => (h.finiteOr hinv).bind fun t =>
      h.finiteOr (h.mul c t)
  | triangle =>
    have hsign : val (if n % 2 = 1 then F.ofInt 1 else F.neg (F.ofInt 1))
        = if n % 2 = 1 then numReal.ofInt 1 else numReal.neg (numReal.ofInt 1) := by
      split_ifs
      · exact h.ofInt 1
      · rw [h.neg, h.ofInt]
    exact (h.finiteOr (by rw [h.mul, h.pi])).bind fun p => (h.finiteOr (by rw [h.div, h.ofInt])).bind fun c =>
      (h.finiteOr (by rw [h.mul, h.ofInt])).bind fun q => (h.finiteOr (by rw [h.div, hsign])).bind fun t =>
        h.finiteOr (h.mul c t)

theorem ReadsReal.partialAt (h : ReadsReal F val) (n : Nat) (m amp : NumWord) (i : Nat) :
    ReadsAs val (partialAt F n m amp i) (partialAt numReal n (val m) (val amp) i) := by
  have htheta : ReadsAs val (theta F n i) (theta numReal n i) :=
    (h.finiteOr (by rw [h.mul, h.ofInt, h.pi])).bind fun t => (h.finiteOr (by rw [h.mul, h.ofInt])).bind fun u =>
      h.finiteOr (by rw [h.div, h.ofInt])
  exact htheta.bind fun t => (h.finiteOr (h.mul m t)).bind fun u => (h.finiteOr (h.sin u)).bind fun w =>
    h.finiteOr (h.mul amp w)

theorem ReadsReal.addPartial (h : ReadsReal F val) (n : Nat) (m amp : NumWord) (i : Nat) (acc : List NumWord) :
    ReadsAs (List.map val) (addPartial F n m amp i acc) (addPartial numReal n (val m) (val amp) i (acc.map val)) := by
  induction acc generalizing i with
  | nil => exact readsAs_ok rfl
  | cons x rest ih =>
    exact (h.partialAt n m amp i).bind fun t => (h.finiteOr (h.add x t)).bind fun y => (ih (i + 1)).bind fun ys =>
      readsAs_ok rfl

theorem ReadsReal.addHarmonics (h : ReadsReal F val) (n : Nat) (k : Kind) (f0 nyq : NumWord) (count ord : Nat)
    (acc : List NumWord) :
    ReadsAs (List.map val) (addHarmonics F n k f0 nyq count ord acc)
      (addHarmonics numReal n k (val f0) (val nyq) count ord (acc.map val)) := by
  induction count generalizing ord acc with
  | zero => exact readsAs_ok rfl
  | succ count ih =>
    refine (h.finiteOr (by rw [h.mul, h.ofInt])).bind fun f => ?_
    rw [h.ge]
    split_ifs
    · exact readsAs_ok rfl
    · exact (h.phaseMultiplier k _).bind fun m => (h.amplitude k ord _).bind fun amp =>
        (h.addPartial n m amp 0 acc).bind fun acc => ih (ord + 1) acc

theorem ReadsReal.peakFrom (h : ReadsReal F val) (peak : NumWord) (acc : List NumWord) :
    val (peakFrom F peak acc) = peakFrom numReal (val peak) (acc.map val) := by
  induction acc generalizing peak with
  | nil => rfl
  | cons x rest ih =>
    rw [List.map_cons, Machine.peakFrom, Machine.peakFrom, ih, h.gt, h.abs, apply_ite val, h.abs]

theorem ReadsReal.divideBy (h : ReadsReal F val) (peak : NumWord) (acc : List NumWord) :
    ReadsAs (List.map val) (divideBy F peak acc) (divideBy numReal (val peak) (acc.map val)) := by
  induction acc with
  | nil => exact readsAs_ok rfl
  | cons x rest ih => exact (h.finiteOr (h.div x peak)).bind fun y => ih.bind fun ys => readsAs_ok rfl

theorem ReadsReal.normalize (h : ReadsReal F val) (acc : List NumWord) :
    ReadsAs (List.map val) (normalize F acc) (normalize numReal (acc.map val)) := by
  have hpeak := h.peakFrom (F.ofInt 0) acc
  rw [h.ofInt] at hpeak
  rw [Machine.normalize, Machine.normalize, h.gt, hpeak, h.ofInt, ← hpeak]
  split_ifs
  · exact h.divideBy _ acc
  · exact readsAs_ok rfl

theorem ReadsReal.withGuard (h : ReadsReal F val) (acc : List NumWord) :
    (withGuard F acc).map val = withGuard numReal (acc.map val) := by
  cases acc with
  | nil => exact congrArg (fun x => [x]) (h.ofInt 0)
  | cons x rest => simp [Machine.withGuard]

theorem ReadsReal.buildWords (h : ReadsReal F val) (n : Nat) (k : Kind) (harm : Nat) (f0 fs : NumWord) :
    ReadsAs (List.map val) (buildWords F n k harm f0 fs) (buildWords numReal n k harm (val f0) (val fs)) := by
  refine (h.finiteOr (by rw [h.div, h.ofInt])).bind fun nyq => ?_
  have hsum := h.addHarmonics n k f0 nyq harm 1 (List.replicate n (F.ofInt 0))
  rw [List.map_replicate, h.ofInt] at hsum
  exact hsum.bind fun acc => (h.normalize acc).bind fun out => readsAs_ok (h.withGuard out)

end Coded

/-! ### The table -/

/-- Settles O32: the sum over the reals is `realSum` up to the first harmonic at or above Nyquist, and the normalizer divides
it by its largest magnitude. -/
theorem realTableIsTheNormalizedPartialSum : Obligations.RealTableIsTheNormalizedPartialSum := by
  refine ⟨fun n k harm f0 fs hn => ?_, fun F val h n k harm f0 fs => h.buildWords n k harm f0 fs⟩
  obtain ⟨count, -, hle, hsum, hbelow, hend⟩ := addHarmonics_numReal k n harm 0 f0 (numReal.div fs (numReal.ofInt 2))
  have hne : realSums k n count ≠ [] := List.ne_nil_of_length_pos (by simpa [realSums] using hn)
  obtain ⟨peak, hall, ⟨x, hx, hpeak⟩, hnorm⟩ := normalize_numReal hne
  rw [realSums_zero] at hsum
  have hwords := buildWords_eq_ok.2 ⟨rfl, _, _, hsum, hnorm, rfl⟩
  refine ⟨_, count, peak, hwords, buildWords_length hwords, by omega, ?_, ?_, ?_, ?_, ?_, buildWords_guard hn hwords⟩
  · exact fun j h1 h2 => by simpa using hbelow j h1 h2
  · simpa using hend
  · exact fun i hi => hall _ (List.mem_map_of_mem (List.mem_range.2 hi))
  · obtain ⟨i, hi, rfl⟩ := List.mem_map.1 hx
    exact ⟨i, List.mem_range.1 hi, hpeak⟩
  · intro i hi
    rw [withGuard, List.getElem?_append_left (by simpa [realSums] using hi)]
    simp [realSums, hi]

end Sys2Proof.Machine
end

/-! The phase accumulator (41_phase_accumulator.md R160 to R168): an operation on an oscillator writes that oscillator alone,
and a phase stays in `0 <= PHASE < num(N)` over the reals as it does under `NUM_F32`. -/

section
namespace Sys2Proof.Machine

/-! ### One oscillator of a voice -/

/-- Writing one oscillator of a voice changes that oscillator alone (R25, R26). -/
theorem sameButOsc_withOsc (x : Voice) (sel : OscSel) (o : Osc) : SameButOsc x (x.withOsc sel o) sel := by
  obtain ⟨hbusy, hnote, hgain, hkind, henv, hlen, hlive⟩ := withOsc_fields x sel o
  exact ⟨hbusy, hnote, hgain, hkind, henv, hlen, hlive, fun _ hne => osc_withOsc_other x o hne⟩

/-- An update of one oscillator of a voice that exists goes on, and writes what the update gives. -/
theorem finish_onOsc_of {s : State} {v : Nat} {x : Voice} (hx : s.voices[v]? = some x) (h8 : x.subs.length = 8)
    (sel : OscSel) (f : Osc → Osc) :
    ∃ y, finish (onVoice s v fun u => u.withOsc sel (f (u.osc sel))) = .next { s with voices := s.voices.set v y } ∧
      SameButOsc x y sel ∧ y.osc sel = f (x.osc sel) :=
  ⟨x.withOsc sel (f (x.osc sel)), by rw [onVoice_of hx, finish_ok]; rfl, sameButOsc_withOsc x sel _,
    osc_withOsc_same h8 sel _⟩

/-- The phase after an advance: one addition, at most one subtraction (R163). -/
theorem advance_phase {α : Type} (F : NumFmt α) (n : Nat) (o : OscOf α) :
    (advance F n o).phase
      = if F.ge (F.add o.phase o.inc) (F.ofInt n) then F.sub (F.add o.phase o.inc) (F.ofInt n)
        else F.add o.phase o.inc :=
  apply_ite OscOf.phase _ _ _

/-- Settles O33: each operation is an update of one oscillator of the voice. -/
theorem oscillatorOperationsWriteOneOscillator : Obligations.OscillatorOperationsWriteOneOscillator := by
  rintro s v o x _ rfl hx h8
  refine ⟨fun freq fs => ?_, ?_, finish_onOsc_of hx h8 o (stopOsc s.par.fmt),
    finish_onOsc_of hx h8 o (resetOsc s.par.fmt)⟩
  · exact finish_onOsc_of hx h8 o fun w => setFreq s.par.fmt s.par.tableSize w (numword s.par freq) (numword s.par fs)
  · obtain ⟨y, hexec, hsame, hosc⟩ := finish_onOsc_of hx h8 o (advance s.par.fmt s.par.tableSize)
    exact ⟨y, hexec, hsame, by rw [hosc, advance_inc], by rw [hosc, advance_phase]⟩

/-- Settles O34: the operation is one draw, then an update of one oscillator; a draw with nothing offered is legal. -/
theorem randomPhaseTakesOneDraw : Obligations.RandomPhaseTakesOneDraw := by
  intro s v o x hnum hx h8 h0 hn
  obtain ⟨htaken, hoffered, hphase⟩ := draw_cases s.par.fmt s.par.tableSize s.rnd
  obtain ⟨y, hexec, hsame, hosc⟩ := finish_onOsc_of
    (s := { s with rnd := (s.rnd.draw s.par.fmt s.par.tableSize).2 }) hx h8 o
    fun w => { w with phase := (s.rnd.draw s.par.fmt s.par.tableSize).1 }
  refine ⟨_, y, hexec, rfl, hsame, by rw [hosc], htaken, fun r rest hoff => ?_, fun hoff => ?_⟩
  · rw [hosc, hphase, hoffered, hoff]
    exact ⟨rfl, rfl⟩
  · rw [hosc, hoffered, PhaseInTable, hphase, hoff, fmt_f32 hnum]
    exact ⟨(drawLegal_iff _ _).1 (drawLegal_freeDraw h0 hn s.rnd.taken), rfl⟩

/-! ### The sample -/

/-- The next sample at a phase that can be read: its value, and the oscillator advanced (R167). -/
theorem execOscNextSample_of_read {s : State} {v : Nat} {x : Voice} {sel : OscSel} {k : Kind} {r : NumWord}
    (hx : s.voices[v]? = some x) (hr : interpolate s k (x.osc sel).phase = .ok r) :
    execOscNextSample v sel k s
      = .next { s with
          voices := s.voices.set v (x.withOsc sel (advance s.par.fmt s.par.tableSize (x.osc sel))), ret := r } := by
  rw [execOscNextSample, getVoice_of hx, ok_bind, nextSample_eq_ok.2 ⟨hr, rfl⟩]
  rfl

/-- The next sample at a phase outside the table is `CV5` (R181, R302). -/
theorem execOscNextSample_outside {s : State} {v : Nat} {x : Voice} {sel : OscSel} {k : Kind}
    (hx : s.voices[v]? = some x) (ho : PhaseOutside s (x.osc sel).phase) :
    execOscNextSample v sel k s = .fault (.phaseRange k (x.osc sel).phase) := by
  rw [execOscNextSample, getVoice_of hx, ok_bind, nextSample, interpolate_outside k ho]
  rfl

/-- Settles O37: the read comes first and either answers or stops; only then the oscillator advances. -/
theorem nextSampleReadsThenAdvances : Obligations.NextSampleReadsThenAdvances := by
  rintro s v o k x _ rfl hx
  refine ⟨fun j h8 hfin hfloor hj => ?_, execOscNextSample_outside hx⟩
  refine ⟨_, execOscNextSample_of_read hx (interpolate_of_floor hfin hfloor hj), sameButOsc_withOsc x o _, ?_, ?_⟩
  · rw [osc_withOsc_same h8, advance_inc]
  · rw [osc_withOsc_same h8, advance_phase]

/-! ### The range of a phase -/

@[simp] theorem numReal_sub (a b : ℝ) : numReal.sub a b = a - b := rfl

/-- One advance by a legal increment keeps the phase in the table, over the reals (R164): the sum is below `2 * N`, and `N`
is taken away exactly when the sum reaches it. -/
theorem advance_numReal_bounds {n : Nat} {o : OscOf ℝ} (hp0 : 0 ≤ o.phase) (hpn : o.phase < n) (hi0 : 0 ≤ o.inc)
    (hin : o.inc < n) : 0 ≤ (advance numReal n o).phase ∧ (advance numReal n o).phase < n := by
  rw [advance_phase]
  simp only [numReal_ge_iff, numReal_add, numReal_sub, numReal_ofInt, Int.cast_natCast]
  split_ifs with hwrap
  · constructor <;> linarith
  · exact ⟨add_nonneg hp0 hi0, not_le.1 hwrap⟩

/-- The increment of a positive frequency is not negative, over the reals (R161). -/
theorem setFreq_numReal_nonneg (n : Nat) (o : OscOf ℝ) {freq fs : ℝ} (hf : 0 < freq) (hfs : 0 < fs) :
    0 ≤ (setFreq numReal n o freq fs).inc := by
  simp only [setFreq, numReal_mul, numReal_div, numReal_ofInt, Int.cast_natCast]
  positivity

/-- A reset oscillator's phase, 0, is in the table (R166). -/
theorem phaseInTable_resetOsc {n : Nat} (h0 : 0 < n) (h : n ≤ 2 ^ 24) (o : Osc) :
    PhaseInTable n (resetOsc numF32 o) := by
  obtain ⟨-, hpos⟩ := F32.ofInt_pos h0 h
  simp only [PhaseInTable, resetOsc, numF32_ofInt, ofInt_zero, NumWord.bits_f32]
  exact ⟨rfl, hpos⟩

/-- Settles O35: over the reals by the bound on the sum, under `NUM_F32` by the bounds its rounding keeps. -/
theorem advanceKeepsThePhaseInTheTable : Obligations.AdvanceKeepsThePhaseInTheTable := by
  refine ⟨fun n o _ => ⟨advance_numReal_bounds, Int.cast_zero, Int.cast_zero, fun _ _ => setFreq_numReal_nonneg n o⟩,
    fun n o h0 hn => ⟨phaseInTable_advance h0 hn, phaseInTable_resetOsc h0 hn o, fun r => (drawLegal_iff n r).1, ?_, ?_⟩⟩
  · simp only [stopOsc, numF32_ofInt, ofInt_zero, NumWord.bits_f32]
    rfl
  · exact fun freq fs hf hfs hfpos hfspos => zero_le_increment h0 hn hf hfpos ⟨hfs, hfspos⟩ o

end Sys2Proof.Machine
end

/-! The table reader (42_table_reader.md R180 to R183): a read answers the interpolant or stops, the interpolant lies between
its two words over the reals, and at an integer phase it is the table's own word under `NUM_F32`. -/

section
namespace Sys2Proof.Machine

/-! ### The operation -/

/-- The operation is the read; its value goes to `ret`. -/
theorem exec_tblInterp_of_read {s : State} {k : Kind} {w : Word} {y : NumWord}
    (h : interpolate s k (numword s.par w) = .ok y) : exec (.tblInterp k w) s = .next { s with ret := y } := by
  simp only [exec, execTblInterp, h, ok_bind, finish_ok, State.answer]

/-- Where the read stops, the operation stops (R305). -/
theorem exec_tblInterp_of_fault {s : State} {k : Kind} {w : Word} {f : Fault}
    (h : interpolate s k (numword s.par w) = .error f) : exec (.tblInterp k w) s = .fault f := by
  simp only [exec, execTblInterp, h, error_bind, finish_error]

/-- Settles O36: the read answers the interpolant at a table index and is `CV5` outside the table. -/
theorem tableReadInterpolatesOrIsCV5 : Obligations.TableReadInterpolatesOrIsCV5 := by
  rintro s k w _ _ rfl rfl hfin
  constructor
  · intro j hfloor hj
    exact exec_tblInterp_of_read (interpolate_of_floor hfin hfloor hj)
  · intro hout
    exact exec_tblInterp_of_fault (interpolate_outside k ⟨hfin, hout⟩)

/-! ### The interpolant over the reals -/

theorem lerp_numReal (a b frac : ℝ) : lerp numReal a b frac = a + frac * (b - a) := rfl

/-- The interpolant lies between its two words (R182), in whichever order these stand. -/
theorem lerp_numReal_between {a b frac : ℝ} (h0 : 0 ≤ frac) (h1 : frac ≤ 1) :
    min a b ≤ lerp numReal a b frac ∧ lerp numReal a b frac ≤ max a b := by
  rw [lerp_numReal]
  rcases le_total a b with hab | hba
  · have hlow : 0 ≤ frac * (b - a) := mul_nonneg h0 (sub_nonneg.2 hab)
    have hhigh : frac * (b - a) ≤ b - a := mul_le_of_le_one_left (sub_nonneg.2 hab) h1
    rw [min_eq_left hab, max_eq_right hab]
    constructor <;> linarith
  · have hhigh : frac * (b - a) ≤ 0 := mul_nonpos_of_nonneg_of_nonpos h0 (sub_nonpos.2 hba)
    have hlow : 0 ≤ (1 - frac) * (a - b) := mul_nonneg (sub_nonneg.2 h1) (sub_nonneg.2 hba)
    rw [min_eq_right hba, max_eq_left hba]
    constructor <;> linarith

/-- A bound on the magnitude of both words is one on their interpolant. -/
theorem abs_lerp_numReal_le {a b frac c : ℝ} (ha : |a| ≤ c) (hb : |b| ≤ c) (h0 : 0 ≤ frac) (h1 : frac ≤ 1) :
    |lerp numReal a b frac| ≤ c := by
  obtain ⟨hmin, hmax⟩ := lerp_numReal_between (a := a) (b := b) h0 h1
  obtain ⟨ha1, ha2⟩ := abs_le.1 ha
  obtain ⟨hb1, hb2⟩ := abs_le.1 hb
  exact abs_le.2 ⟨(le_min ha1 hb1).trans hmin, hmax.trans (max_le ha2 hb2)⟩

/-- A normalized word has magnitude at most 1 (R137): it was divided by the peak, or the peak is 0. -/
theorem abs_le_one_of_normalize_numReal {acc out : List ℝ} (hne : acc ≠ []) (h : normalize numReal acc = .ok out) :
    ∀ x ∈ out, |x| ≤ 1 := by
  obtain ⟨peak, hall, -, hnorm⟩ := normalize_numReal hne
  cases hnorm.symm.trans h
  intro x hx
  obtain ⟨y, hy, rfl⟩ := List.mem_map.1 hx
  split_ifs with hpos
  · rw [abs_div, abs_of_pos hpos]
    exact div_le_one_of_le₀ (hall y hy) hpos.le
  · exact (hall y hy).trans ((not_lt.1 hpos).trans zero_le_one)

/-- Every word of a built table has magnitude at most 1 over the reals, guard included (R38 (c)). -/
theorem abs_le_one_of_buildWords_numReal {n : Nat} (hn : 0 < n) {k : Kind} {harm : Nat} {f0 fs : ℝ} {words : List ℝ}
    (h : buildWords numReal n k harm f0 fs = .ok words) : ∀ x ∈ words, |x| ≤ 1 := by
  obtain ⟨-, acc, out, hsum, hnorm, rfl⟩ := buildWords_eq_ok.1 h
  have hlen : acc.length = n := (addHarmonics_length hsum).trans List.length_replicate
  have hacc : acc ≠ [] := List.ne_nil_of_length_pos (hlen ▸ hn)
  have hout : out ≠ [] := List.ne_nil_of_length_pos (by rw [normalize_length hnorm, hlen]; exact hn)
  exact fun x hx => abs_le_one_of_normalize_numReal hacc hnorm x ((mem_withGuard hout).1 hx)

/-- Settles O38: the interpolant lies between its two words, and no word of a built table is above 1 in magnitude. -/
theorem realInterpolantLiesBetweenItsWords : Obligations.RealInterpolantLiesBetweenItsWords := by
  refine ⟨fun a b frac h0 h1 => lerp_numReal_between h0 h1.le, fun n k harm f0 fs hn => ?_⟩
  obtain ⟨words, -, -, hwords, hlen, -⟩ := realTableIsTheNormalizedPartialSum.1 n k harm f0 fs hn
  have hunit := abs_le_one_of_buildWords_numReal hn hwords
  refine ⟨words, hwords, fun phase h0 hlt => ?_⟩
  have hfloor : ⌊phase⌋₊ < n := (Nat.floor_lt h0).2 hlt
  have hj : ⌊phase⌋₊ < words.length := by omega
  have hj' : ⌊phase⌋₊ + 1 < words.length := by omega
  have hfrac0 : 0 ≤ phase - (⌊phase⌋₊ : ℝ) := sub_nonneg.2 (Nat.floor_le h0)
  have hfrac1 : phase - (⌊phase⌋₊ : ℝ) ≤ 1 := sub_le_iff_le_add'.2 (Nat.lt_floor_add_one phase).le
  exact ⟨⌊phase⌋₊, words[⌊phase⌋₊], words[⌊phase⌋₊ + 1], (Int.natCast_floor_eq_floor h0).symm,
    List.getElem?_eq_getElem hj, List.getElem?_eq_getElem hj',
    abs_lerp_numReal_le (hunit _ (List.getElem_mem hj)) (hunit _ (List.getElem_mem hj')) hfrac0 hfrac1⟩

/-! ### Integer phases under `NUM_F32` -/

theorem F32.eq_refl {a : Word} (h : F32.isFinite a = true) : F32.eq a a = true := by
  simp [F32.eq, F32.not_nan_of_finite h]

/-- Words of magnitude bits 0 are the number 0, whatever their signs. -/
theorem F32.eq_of_mag_zero {a b : Word} (ha : F32.mag a = 0) (hb : F32.mag b = 0) : F32.eq a b = true := by
  have hkey : ∀ {x : Word}, F32.mag x = 0 → F32.key x = 0 := fun h => by simp [F32.key, h]
  have hnan : ∀ {x : Word}, F32.mag x = 0 → F32.isNaN x = false := fun h => by simp [F32.isNaN, h]
  simp [F32.eq, hkey ha, hkey hb, hnan ha, hnan hb]

theorem F32.value_eq_zero_iff {a : Word} : F32.value a = 0 ↔ F32.mag a = 0 := by
  rw [← Int.natAbs_eq_zero, F32.natAbs_value]
  exact ⟨F32.unitsOf_eq_zero, fun h => by rw [h, F32.unitsOf_zero]⟩

/-- Rounding the value of a finite word that is not 0 gives that word. -/
theorem F32.ofValue_value {a : Word} (h : F32.isFinite a = true) (h0 : F32.mag a ≠ 0) :
    F32.ofValue (F32.value a) = a := by
  have hsign : decide (F32.value a < 0) = a.msb := by
    have hpos : 0 < F32.units a := F32.units_pos h0
    rw [F32.value]
    cases a.msb <;> simp [hpos]
  have hround := F32.roundUnits_exact Nat.one_pos ((F32.finite_iff a).1 h).le
  rw [Nat.mul_one] at hround
  rw [F32.ofValue, hsign, F32.natAbs_value, hround, F32.pack_self]

/-- Adding a zero of either sign to a finite number keeps the number; -0 may become +0. -/
theorem F32.add_zero_eq {a z : Word} (ha : F32.isFinite a = true) (hz : F32.mag z = 0) :
    F32.eq (F32.add a z) a = true := by
  by_cases h0 : F32.mag a = 0
  · exact F32.eq_of_mag_zero (F32.mag_add_zero h0 hz) h0
  · have hfz : F32.isFinite z = true := F32.finite_of_mag_le (m := 0) (by decide) hz.le
    have hadd : F32.add a z = a := by
      rw [F32.add_of_finite ha hfz, F32.value_eq_zero_iff.2 hz, Int.add_zero,
        if_neg (mt F32.value_eq_zero_iff.1 h0), F32.ofValue_value ha h0]
    rw [hadd]
    exact F32.eq_refl ha

/-- A finite number less itself is +0. -/
theorem F32.sub_self {a : Word} (h : F32.isFinite a = true) : F32.sub a a = 0#32 := by
  rw [F32.sub_of_finite h h, if_pos (Int.sub_self _), Bool.and_not_self]
  rfl

/-- Zero times a finite number is a zero. -/
theorem F32.mag_zero_mul {b : Word} (h : F32.isFinite b = true) : F32.mag (F32.mul 0#32 b) = 0 :=
  Nat.le_zero.1 (F32.mag_mul_le rfl h (Nat.zero_le _) (by
    rw [show F32.units 0#32 = 0 from rfl, Nat.zero_mul]
    exact Nat.zero_le _))

/-- The difference of two numbers of magnitude at most 1 is finite: it is at most 2. -/
theorem F32.finite_sub_of_inUnit {a b : Word} (ha : F32.inUnit a = true) (hb : F32.inUnit b = true) :
    F32.isFinite (F32.sub a b) = true := by
  have hbound : ∀ {x : Word}, F32.inUnit x = true → F32.isFinite x = true ∧ (F32.value x).natAbs ≤ F32.one := by
    intro x hx
    have hmag : F32.mag x ≤ 0x3F800000 := of_decide_eq_true hx
    have hfin : F32.isFinite x = true := F32.finite_of_mag_le (by decide) hmag
    have hunits := (F32.unitsOf_le_iff ((F32.finite_iff x).1 hfin).le (by decide)).2 hmag
    exact ⟨hfin, (F32.natAbs_value x).trans_le (hunits.trans F32.unitsOf_one.le)⟩
  obtain ⟨hfa, hva⟩ := hbound ha
  obtain ⟨hfb, hvb⟩ := hbound hb
  have htwo : F32.unitsOf 0x40000000 = 2 * F32.one := by decide
  refine F32.finite_of_mag_le (m := 0x40000000) (by decide) (F32.mag_sub_le hfa hfb (by decide) ?_)
  omega

/-- The floor of the word of a whole number the format holds is that number. -/
theorem F32.floor_ofInt {n : Nat} (h : n ≤ 2 ^ 24) : F32.floor (F32.ofInt n) = n := by
  rw [F32.floor, F32.value, F32.msb_ofInt, if_neg Bool.false_ne_true, F32.units_ofInt h, Nat.cast_mul]
  exact Int.mul_ediv_cancel _ (by exact_mod_cast F32.one_pos.ne')

/-- With a fraction of +0 the interpolant is its first word (R181, corner case; R183). -/
theorem lerp_numF32_zero {a b : NumWord} (ha : F32.inUnit a.bits = true) (hb : F32.inUnit b.bits = true) :
    F32.eq (lerp numF32 a b (.f32 0#32)).bits a.bits = true :=
  F32.add_zero_eq (F32.finite_of_mag_le (by decide) (of_decide_eq_true ha))
    (F32.mag_zero_mul (F32.finite_sub_of_inUnit hb ha))

/-- A read at the word of a table index is the interpolant with a fraction of +0. -/
theorem interpolate_ofInt {s : State} (hnum : s.par.num = .f32) (k : Kind) {j : Nat} (hj : j < s.par.tableSize)
    (hsize : s.par.tableSize ≤ 2 ^ 24) :
    interpolate s k (.f32 (F32.ofInt j)) = .ok (lerp numF32 (tblRead s k j) (tblRead s k (j + 1)) (.f32 0#32)) := by
  have hle : j ≤ 2 ^ 24 := by omega
  have hfmt : s.par.fmt = numF32 := fmt_f32 hnum
  have hfin := F32.finite_ofInt hle
  have hfrac : numF32.sub (.f32 (F32.ofInt j)) (numF32.ofInt j) = .f32 0#32 := congrArg _ (F32.sub_self hfin)
  rw [interpolate_of_floor (by rw [hfmt]; exact hfin) (by rw [hfmt]; exact F32.floor_ofInt hle) hj, hfmt, hfrac]

/-- Settles O39: at an integer phase the fraction is +0, so a zero is added to the table's word. -/
theorem readingAtAnIntegerPhaseIsTheTableWord : Obligations.ReadingAtAnIntegerPhaseIsTheTableWord := by
  intro s k j hnum hj hsize ha hb
  refine ⟨_, exec_tblInterp_of_read ?_, lerp_numF32_zero ha hb⟩
  rw [numword_f32 hnum]
  exact interpolate_ofInt hnum k hj hsize

end Sys2Proof.Machine
end

/-! The envelope generator (43_envelope_generator.md R190 to R199): each operation writes the envelope of one voice, the ramp
of each stage, and over the reals the number of samples each ramp takes. -/

section
namespace Sys2Proof.Machine

/-! ### The envelope of one voice -/

/-- An update of the envelope of a voice that exists goes on, and writes that envelope alone. -/
theorem finish_onEnv_of {s : State} {v : Nat} {x : Voice} (hx : s.voices[v]? = some x) (f : Env → Env) :
    finish (onVoice s v fun u => { u with env := f u.env })
      = .next { s with voices := s.voices.set v { x with env := f x.env } } := by
  rw [onVoice_of hx, finish_ok]
  rfl

/-- Settles O40: the rates are computed from the control registers, and the other two each update one envelope. -/
theorem envelopeRatesTriggerAndReset : Obligations.EnvelopeRatesTriggerAndReset := by
  refine ⟨?_, fun s v x hx => ⟨finish_onEnv_of hx (envTrigger s.par.fmt), finish_onEnv_of hx (envReset s.par.fmt)⟩⟩
  rintro s _ rfl
  rfl

/-! ### The release -/

/-- From a stage that holds a level the release starts at that level, with the step that covers it (R193). -/
theorem envRelease_of_held {α : Type} (F : NumFmt α) (r fs : α) {e : EnvOf α}
    (h : e.stage = .attack ∨ e.stage = .decay ∨ e.stage = .sustain) :
    envRelease F r fs e = ⟨.release, e.level, rampStep F e.level (F.mul r fs)⟩ := by
  rcases h with h | h | h <;> rw [envRelease, h]

/-- In the idle and release stages a release does nothing (R193). -/
theorem envRelease_of_idle_or_release {α : Type} (F : NumFmt α) (r fs : α) {e : EnvOf α}
    (h : e.stage = .idle ∨ e.stage = .release) : envRelease F r fs e = e := by
  rcases h with h | h <;> rw [envRelease, h]

/-- Settles O41: a release latches the step of the level held, and an envelope it leaves alone is written back. -/
theorem envelopeReleaseLatchesItsStep : Obligations.EnvelopeReleaseLatchesItsStep := by
  rintro s v x _ rfl hx
  have hexec : exec (.envRelease v) s
      = .next (setVoice s v { x with env := envRelease s.par.fmt s.cfg.r s.cfg.fs x.env }) := finish_onEnv_of hx _
  refine ⟨fun hheld => ?_, fun hrest => ?_⟩
  · rw [hexec, envRelease_of_held _ _ _ hheld]
    rfl
  · rw [hexec, envRelease_of_idle_or_release _ _ _ hrest]
    exact congrArg _ (setVoice_self hx)

/-! ### One sample of the envelope, by stage (R194) -/

section Next
variable {α : Type} (F : NumFmt α) (inc dec sus : α) {e : EnvOf α}

theorem envNext_idle (h : e.stage = .idle) : (envNext F inc dec sus e).1 = e := by
  rw [envNext, h]

theorem envNext_attack (h : e.stage = .attack) : (envNext F inc dec sus e).1
    = if F.ge (F.add e.level inc) (F.ofInt 1) then ⟨.decay, F.ofInt 1, e.relDec⟩
      else ⟨.attack, F.add e.level inc, e.relDec⟩ := by
  rw [envNext, h]
  exact apply_ite _ _ _ _

theorem envNext_decay (h : e.stage = .decay) : (envNext F inc dec sus e).1
    = if F.le (F.sub e.level dec) sus then ⟨.sustain, sus, e.relDec⟩
      else ⟨.decay, F.sub e.level dec, e.relDec⟩ := by
  rw [envNext, h]
  exact apply_ite _ _ _ _

theorem envNext_sustain (h : e.stage = .sustain) : (envNext F inc dec sus e).1 = ⟨.sustain, sus, e.relDec⟩ := by
  rw [envNext, h]

theorem envNext_release (h : e.stage = .release) : (envNext F inc dec sus e).1
    = if F.le (F.sub e.level e.relDec) (F.ofInt 0) then ⟨.idle, F.ofInt 0, e.relDec⟩
      else ⟨.release, F.sub e.level e.relDec, e.relDec⟩ := by
  rw [envNext, h]
  exact apply_ite _ _ _ _

/-- No call changes the release step latched. -/
theorem envNext_relDec : (envNext F inc dec sus e).1.relDec = e.relDec := by
  unfold envNext
  cases e.stage with
  | idle | sustain => rfl
  | attack | decay | release => simp only; split_ifs <;> rfl

/-- The value returned is the level after the update, and zero while idle. -/
theorem envNext_value :
    (envNext F inc dec sus e).2 = if e.stage = .idle then F.ofInt 0 else (envNext F inc dec sus e).1.level := by
  unfold envNext
  cases e.stage with
  | idle | sustain => rfl
  | attack | decay | release => simp only [reduceCtorEq, if_false]; split_ifs <;> rfl

end Next

/-- The operation `env_next` writes the envelope one sample later, and answers the value returned. -/
theorem exec_envNext_of {s : State} {v : Nat} {x : Voice} (hx : s.voices[v]? = some x) :
    exec (.envNext v) s = .next { s with
      voices := s.voices.set v { x with env := (envStep s x.env).1 }, ret := (envStep s x.env).2 } := by
  change execEnvNext v s = _
  rw [execEnvNext, getVoice_of hx, ok_bind]
  rfl

/-- Settles O42: the operation is one call of `env_next`, whose stage and level are those of the voice's stage. -/
theorem envelopeNextFollowsTheRampLaw : Obligations.EnvelopeNextFollowsTheRampLaw := by
  rintro s v x _ rfl hx
  refine ⟨(envStep s x.env).1.stage, (envStep s x.env).1.level, ?_, fun h => ?_, fun h => ?_, fun h => ?_, fun h => ?_,
    fun h => ?_⟩
  · have hrel : (envStep s x.env).1.relDec = x.env.relDec := envNext_relDec _ _ _ _
    have hval : (envStep s x.env).2 = _ := envNext_value _ _ _ _
    rw [exec_envNext_of hx, hval, ← hrel]
    rfl
  · rw [envStep, envNext_idle _ _ _ _ h]
    exact ⟨h, rfl⟩
  · rw [envStep, envNext_attack _ _ _ _ h]
    split_ifs <;> exact ⟨rfl, rfl⟩
  · rw [envStep, envNext_decay _ _ _ _ h]
    split_ifs <;> exact ⟨rfl, rfl⟩
  · rw [envStep, envNext_sustain _ _ _ _ h]
    exact ⟨rfl, rfl⟩
  · rw [envStep, envNext_release _ _ _ _ h]
    split_ifs <;> exact ⟨rfl, rfl⟩

/-! ### How long a ramp takes, over the reals -/

@[simp] theorem numReal_le_iff (a b : ℝ) : numReal.le a b = true ↔ a ≤ b := decide_eq_true_iff
@[simp] theorem numReal_eq_iff (a b : ℝ) : numReal.eq a b = true ↔ a = b := decide_eq_true_iff

/-- Over the reals the step of a ramp is the quotient whatever the ramp covers: 0 divided by any length is 0. -/
theorem rampStep_numReal (x t : ℝ) : rampStep numReal x t = x / t := by
  unfold rampStep
  split_ifs with h
  · have hx : x = 0 := by simpa using h
    rw [hx, zero_div]
  · rfl

theorem attackRate_numReal (a fs : ℝ) : attackRate numReal a fs = 1 / (a * fs) := by simp [attackRate]

theorem decayRate_numReal (d sus fs : ℝ) : decayRate numReal d sus fs = (1 - sus) / (d * fs) := by
  simp [decayRate, rampStep_numReal]

/-- A stage that takes `n` calls of `env_next`: the first `n - 1` stay in it, and call `n` leaves the envelope `last`. -/
def StageTakes {α : Type} (F : NumFmt α) (inc dec sus : α) (e : EnvOf α) (n : Nat) (last : EnvOf α) : Prop :=
  (∀ j, j < n → (envAfter F inc dec sus e j).stage = e.stage) ∧ envAfter F inc dec sus e n = last

/-- `j` steps that cover `x` in `t` have covered it exactly from `ceil(t)` on. -/
theorem le_steps_iff {x t : ℝ} (hx : 0 < x) (ht : 0 < t) (j : Nat) : x ≤ j * (x / t) ↔ ⌈t⌉₊ ≤ j := by
  rw [Nat.ceil_le, ← mul_div_assoc, le_div_iff₀ ht, mul_comm x t, mul_le_mul_iff_left₀ hx]

/-- A stage whose level moves by one step a call, and ends where the level reaches `Ends`, takes as many calls as steps
reach that from `x`. -/
theorem stageTakes_of_ramp {inc dec sus x step rel : ℝ} {stage : Stage} {n : Nat} {last : EnvOf ℝ} {Ends : ℝ → Prop}
    [DecidablePred Ends] (hn : 0 < n)
    (hnext : ∀ l, (envNext numReal inc dec sus ⟨stage, l, rel⟩).1
      = if Ends (l + step) then last else ⟨stage, l + step, rel⟩)
    (hends : ∀ j : Nat, Ends (x + j * step) ↔ n ≤ j) : StageTakes numReal inc dec sus ⟨stage, x, rel⟩ n last := by
  have hlevel (j : Nat) : x + j * step + step = x + (j + 1 : Nat) * step := by push_cast; ring
  have hramp (j : Nat) (hj : j < n) :
      envAfter numReal inc dec sus ⟨stage, x, rel⟩ j = ⟨stage, x + j * step, rel⟩ := by
    induction j with
    | zero => simp [envAfter]
    | succ j ih => rw [envAfter, ih (by omega), hnext, hlevel, if_neg (by rw [hends]; omega)]
  refine ⟨fun j hj => by rw [hramp j hj], ?_⟩
  obtain ⟨m, rfl⟩ := Nat.exists_eq_succ_of_ne_zero hn.ne'
  rw [envAfter, hramp m m.lt_succ_self, hnext, hlevel, if_pos ((hends _).2 le_rfl)]

/-- The attack climbs from 0 to 1 (R197). -/
theorem attack_takes {a fs : ℝ} (ht : 0 < a * fs) (dec sus rel : ℝ) :
    StageTakes numReal (attackRate numReal a fs) dec sus ⟨.attack, 0, rel⟩ ⌈a * fs⌉₊ ⟨.decay, 1, rel⟩ := by
  rw [attackRate_numReal]
  refine stageTakes_of_ramp (Ends := fun l => 1 ≤ l) (step := 1 / (a * fs)) (Nat.ceil_pos.2 ht) (fun l => ?_)
    (fun j => ?_)
  · rw [envNext_attack _ _ _ _ rfl]
    simp only [numReal_ge_iff, numReal_add, numReal_ofInt, Int.cast_one]
  · rw [zero_add, le_steps_iff one_pos ht]

/-- The decay falls from 1 to a sustain level below 1 (R197). -/
theorem decay_takes {d sus fs : ℝ} (hsus : sus < 1) (ht : 0 < d * fs) (inc rel : ℝ) :
    StageTakes numReal inc (decayRate numReal d sus fs) sus ⟨.decay, 1, rel⟩ ⌈d * fs⌉₊ ⟨.sustain, sus, rel⟩ := by
  rw [decayRate_numReal]
  refine stageTakes_of_ramp (Ends := (· ≤ sus)) (step := -((1 - sus) / (d * fs))) (Nat.ceil_pos.2 ht) (fun l => ?_)
    (fun j => ?_)
  · rw [envNext_decay _ _ _ _ rfl]
    simp only [numReal_le_iff, numReal_sub, sub_eq_add_neg]
  · rw [← le_steps_iff (sub_pos.2 hsus) ht]
    constructor <;> intro h <;> linarith

/-- The release falls from a level above 0 to 0 (R197). -/
theorem release_takes {level t : ℝ} (hlevel : 0 < level) (ht : 0 < t) (inc dec sus : ℝ) :
    StageTakes numReal inc dec sus ⟨.release, level, level / t⟩ ⌈t⌉₊ ⟨.idle, 0, level / t⟩ := by
  refine stageTakes_of_ramp (Ends := (· ≤ 0)) (step := -(level / t)) (Nat.ceil_pos.2 ht) (fun l => ?_) (fun j => ?_)
  · rw [envNext_release _ _ _ _ rfl]
    simp only [numReal_le_iff, numReal_sub, numReal_ofInt, Int.cast_zero, sub_eq_add_neg]
  · rw [← le_steps_iff hlevel ht]
    constructor <;> intro h <;> linarith

/-- A decay to a sustain level of 1 has step 0 and ends on its first call (R197). -/
theorem envAfter_decay_to_one (d fs inc rel : ℝ) :
    envAfter numReal inc (decayRate numReal d 1 fs) 1 ⟨.decay, 1, rel⟩ 1 = ⟨.sustain, 1, rel⟩ := by
  rw [envAfter, envAfter, envNext_decay _ _ _ _ rfl, decayRate_numReal, if_pos (by simp)]

/-- A release from level 0 has step 0 and ends on its first call (R197). -/
theorem envAfter_release_from_zero (t inc dec sus : ℝ) :
    (envAfter numReal inc dec sus ⟨.release, 0, 0 / t⟩ 1).stage = .idle := by
  rw [envAfter, envAfter, envNext_release _ _ _ _ rfl, if_pos (by simp)]

/-- The sustain holds (R194). -/
theorem envAfter_sustain {α : Type} (F : NumFmt α) (inc dec sus rel : α) (j : Nat) :
    envAfter F inc dec sus ⟨.sustain, sus, rel⟩ j = ⟨.sustain, sus, rel⟩ := by
  induction j with
  | zero => rfl
  | succ j ih => rw [envAfter, ih, envNext_sustain _ _ _ _ rfl]

/-- A format that is `NUM_REAL` goes through the stages and levels of the reals, its release step included (log entry 1). -/
theorem ReadsReal.envAfter {F : NumFmt NumWord} {val : NumWord → ℝ} (h : ReadsReal F val) (inc dec sus : NumWord)
    (e : Env) (j : Nat) :
    let r := Machine.envAfter F inc dec sus e j
    (⟨r.stage, val r.level, val r.relDec⟩ : EnvOf ℝ)
      = Machine.envAfter numReal (val inc) (val dec) (val sus) ⟨e.stage, val e.level, val e.relDec⟩ j := by
  induction j with
  | zero => rfl
  | succ j ih =>
    obtain ⟨hstage, hlevel, hrel, -⟩ := h.envNext inc dec sus (Machine.envAfter F inc dec sus e j)
    simp only [Machine.envAfter, hstage, hlevel, hrel, ← ih]

/-- Settles O43: each ramp over the reals takes the ceiling of its length, and a format that is `NUM_REAL` follows it. -/
theorem realSegmentLengths : Obligations.RealSegmentLengths := by
  refine ⟨fun a d sus r fs rel ha hd _ _ hr hfs => ?_, fun F val h inc dec sus e j => ?_⟩
  · have htrigger : envTrigger numReal ⟨.idle, 0, rel⟩ = ⟨.attack, 0, rel⟩ := by simp [envTrigger]
    obtain ⟨hclimbs, htop⟩ := attack_takes (mul_pos ha hfs) (decayRate numReal d sus fs) sus rel
    simp only [htrigger]
    refine ⟨hclimbs, htop, fun hsus => decay_takes hsus (mul_pos hd hfs) _ rel, ?_, envAfter_sustain _ _ _ _ _,
      fun level _ stage hheld => ?_⟩
    · rintro rfl
      exact envAfter_decay_to_one d fs _ rel
    · rw [envRelease_of_held numReal r fs hheld, rampStep_numReal, numReal_mul]
      refine ⟨fun hpos => ?_, ?_⟩
      · obtain ⟨hfalls, hzero⟩ := release_takes hpos (mul_pos hr hfs) _ _ sus
        exact ⟨hfalls, by rw [hzero], by rw [hzero]⟩
      · rintro rfl
        exact envAfter_release_from_zero _ _ _ _
  · have hread := h.envAfter inc dec sus e j
    exact ⟨congrArg EnvOf.stage hread, congrArg EnvOf.level hread⟩

end Sys2Proof.Machine
end

/-! Voice control (44_voice.md R223 to R227): what starting, releasing, resetting and rendering a voice does, and the
order in which a started voice takes its draws (70_reset_and_hazards.md R348). -/

section
namespace Sys2Proof.Machine

/-! ### Starting a voice -/

/-- The operation `voice_note_on` is the start of the voice it names (R223). -/
theorem exec_voiceNoteOn_of {s : State} {v : Nat} {x : Voice} (hx : s.voices[v]? = some x) (note : BitVec 7) (vel : Word)
    (k : Kind) (sc : BitVec 16) :
    exec (.voiceNoteOn v note vel k sc) s
      = .next { setVoice s v (startVoice s x note (numword s.par vel) k (sext16 sc)).1 with
          rnd := (startVoice s x note (numword s.par vel) k (sext16 sc)).2 } :=
  (finish_eq_next _ _).2 (voiceNoteOn_eq_ok.2 ⟨x, hx, rfl⟩)

/-- The count of R223 is the operand clamped to 0 to 8. -/
theorem lt_slotCount_iff (i : Nat) (sc : Int) : i < slotCount sc ↔ (i : Int) < max 0 (min 8 sc) := by
  unfold slotCount clampInt
  split_ifs <;> omega

/-- Which slots of a started voice are live (R223). -/
theorem startVoice_live_iff {s : State} {x : Voice} {note : BitVec 7} {vel : NumWord} {k : Kind} {sc : Int} {i : Nat}
    {sl : Slot} (h : (startVoice s x note vel k sc).1.subs[i]? = some sl) :
    sl.live = true ↔ (i : Int) < max 0 (min 8 sc) ∧
      s.par.fmt.lt (s.par.fmt.div (s.par.fmt.midi note) (s.par.fmt.ofInt ((i : Int) + 2)))
        (s.par.fmt.div s.cfg.fs (s.par.fmt.ofInt 2)) = true := by
  have hi : i < x.subs.length := by
    have := (List.getElem?_eq_some_iff.1 h).1
    rwa [startVoice, startSlots_length] at this
  obtain ⟨sl', hsl', hlive, -⟩ := startSlots_get (F := s.par.fmt) (n := s.par.tableSize) (count := slotCount sc)
    (f := s.par.fmt.midi note) (fs := s.cfg.fs) (i := 0) (r := (s.rnd.draw s.par.fmt s.par.tableSize).2)
    (List.getElem?_eq_getElem hi)
  obtain rfl : sl' = sl := Option.some.inj (hsl'.symm.trans h)
  rw [hlive, zero_add, lt_slotCount_iff]

/-- A started voice takes one draw for its main oscillator and one for each live slot (R223, R348). -/
theorem startVoice_taken (s : State) (x : Voice) (note : BitVec 7) (vel : NumWord) (k : Kind) (sc : Int) :
    (startVoice s x note vel k sc).2.taken
      = s.rnd.taken + 1 + ((startVoice s x note vel k sc).1.subs.filter Slot.live).length := by
  rw [startVoice, startSlots_taken, (draw_cases _ _ _).1]

/-- With nine values offered, those a started voice takes are the main oscillator's phase, then the live slots' in
ascending index (R348): there are at most eight slots to draw for. -/
theorem startVoice_offered {s : State} (h9 : 9 ≤ s.rnd.offered.length) (x : Voice) (note : BitVec 7) (vel : NumWord)
    (k : Kind) (sc : Int) :
    s.rnd.offered = (startVoice s x note vel k sc).1.main.phase
      :: (((startVoice s x note vel k sc).1.subs.filter Slot.live).map (fun sl => sl.osc.phase)
        ++ (startVoice s x note vel k sc).2.offered) := by
  obtain ⟨-, htail, hhead⟩ := draw_cases s.par.fmt s.par.tableSize s.rnd
  cases hoff : s.rnd.offered with
  | nil => simp [hoff] at h9
  | cons first rest =>
    have hrest : (s.rnd.draw s.par.fmt s.par.tableSize).2.offered = rest := by rw [htail, hoff, List.tail_cons]
    have hcount := slotCount_le sc
    rw [hoff, List.length_cons] at h9
    have hslots := startSlots_offered s.par.fmt s.par.tableSize (slotCount sc) (s.par.fmt.midi note) s.cfg.fs 0
      (s.rnd.draw s.par.fmt s.par.tableSize).2 x.subs (by rw [hrest]; omega)
    rw [hrest] at hslots
    rw [hoff, List.headD_cons] at hhead
    exact congrArg₂ List.cons hhead.symm hslots

/-- Settles O44: the operation writes `startVoice`'s registers and random source. -/
theorem voiceNoteOnStartsTheVoice : Obligations.VoiceNoteOnStartsTheVoice := by
  rintro s v note vel k sc x _ rfl hx
  exact ⟨_, _, exec_voiceNoteOn_of hx note vel k sc, rfl, rfl, rfl, rfl, rfl, rfl, rfl, rfl, startSlots_length ..,
    fun _ _ => startVoice_live_iff, startVoice_taken ..⟩

/-- Settles O45: the voice that was started is the one looked at afterwards, and `startVoice` draws in R348's order. -/
theorem drawsGoToMainThenLiveSlotsInOrder : Obligations.DrawsGoToMainThenLiveSlotsInOrder := by
  intro s t v note vel k sc y h hy h9
  obtain ⟨x, hx, rfl⟩ := voiceNoteOn_eq_ok.1 ((finish_eq_next _ _).1 h)
  have hstarted : (startVoice s x note (numword s.par vel) k (sext16 sc)).1 = y := by
    have hv := (List.getElem?_eq_some_iff.1 hx).1
    rw [setVoice_voices, List.getElem?_set_self hv] at hy
    exact Option.some.inj hy
  rw [← hstarted]
  exact startVoice_offered h9 x note _ k _

/-! ### Releasing and resetting a voice -/

/-- A release keeps the level (R193). -/
theorem envRelease_level {α : Type} (F : NumFmt α) (r fs : α) (e : EnvOf α) : (envRelease F r fs e).level = e.level := by
  unfold envRelease
  split <;> rfl

/-- Settles O46: `voice_note_off` is `env_release` by definition, and `voice_reset` writes `resetVoice`'s registers. -/
theorem voiceNoteOffAndReset : Obligations.VoiceNoteOffAndReset := by
  intro s v x hx
  refine ⟨fun vel t => ⟨rfl, _, finish_onEnv_of hx (envRelease s.par.fmt s.cfg.r s.cfg.fs), envRelease_level ..⟩, ?_⟩
  have hreset : exec (.voiceReset v) s = .next { s with voices := s.voices.set v (resetVoice s.par.fmt x) } :=
    congrArg finish (onVoice_of hx)
  exact ⟨_, hreset, voiceAtRest_resetVoice s.par.fmt x, rfl, rfl, rfl, rfl, rfl, clearLive_osc x.subs⟩

/-! ### One sample of a voice -/

/-- Accumulating at a frame that exists completes. -/
theorem mixAcc_completes {s : State} {a : Nat} (ha : a < s.par.bufLen) (b : Mem) (y : NumWord) :
    ∃ b', mixAcc s b a y = .ok b' := ⟨_, if_pos ha⟩

/-- One more frame of a voice that can be read (R225): its output is accumulated, and the loop goes on with the voice
one sample later, or ends with it freed. -/
theorem renderLoop_readable {s : State} {x : Voice} (hx : VoiceReadable s x) {a : Nat} (ha : a < s.par.bufLen) (count : Nat)
    (b : Mem) :
    ∃ b', mixAcc s b a (voiceOutput s x) = .ok b' ∧
      renderLoop s (count + 1) a x b
        = if (voiceLater s x).env.stage = .idle then .ok (voiceLater s x, b')
          else renderLoop s count (a + 1) (voiceLater s x) b' := by
  obtain ⟨b', hmix⟩ := mixAcc_completes ha b (voiceOutput s x)
  refine ⟨b', hmix, ?_⟩
  rw [voiceSample_later (voiceSample_readable hx)]
  simp only [renderLoop, voiceSample_readable hx, ok_bind, hmix, envActive]
  by_cases hidle : (envStep s x.env).1.stage = .idle <;> simp [hidle, freeVoice]

/-! ### The operation `voice_render` -/

/-- An oscillator in the table with a legal increment is so after an advance (R164). -/
theorem oscRenderable_advance {n : Nat} (h0 : 0 < n) (h : n ≤ 2 ^ 24) {o : Osc}
    (ho : PhaseInTable n o ∧ IncrementLegal n o) :
    PhaseInTable n (advance numF32 n o) ∧ IncrementLegal n (advance numF32 n o) := by
  refine ⟨phaseInTable_advance h0 h ho.1 ho.2, ?_⟩
  unfold IncrementLegal
  rw [advance_inc]
  exact ho.2

/-- A voice that can be rendered can be rendered on from its next sample, freed or not (R164, R225). -/
theorem renderable_voiceLater {s : State} (hn : s.par.num = .f32) (h0 : 0 < s.par.tableSize) (h : s.par.tableSize ≤ 2 ^ 24)
    {x : Voice} (hx : VoiceRenderable s.par.tableSize x) : VoiceRenderable s.par.tableSize (voiceLater s x) := by
  obtain ⟨hmain, hsubs⟩ := hx
  unfold voiceLater
  rw [fmt_f32 hn]
  dsimp only
  split_ifs with hidle
  · exact ⟨oscRenderable_advance h0 h hmain, fun _ hsl hlive => absurd hlive (by simp [live_of_mem_clearLive hsl])⟩
  · refine ⟨oscRenderable_advance h0 h hmain, fun sl hsl hlive => ?_⟩
    obtain ⟨sl₀, hmem, rfl⟩ := List.mem_map.1 hsl
    split_ifs at hlive ⊢ with hlive₀
    · exact oscRenderable_advance h0 h (hsubs sl₀ hmem hlive₀)
    · exact absurd hlive hlive₀

/-- The render loop of a voice that can be rendered runs to its end on frames that exist (R225). -/
theorem renderLoop_completes {s : State} (hn : s.par.num = .f32) (h0 : 0 < s.par.tableSize) (h : s.par.tableSize ≤ 2 ^ 24)
    {count a : Nat} (ha : a + count ≤ s.par.bufLen) {x : Voice} (hx : VoiceRenderable s.par.tableSize x) (b : Mem) :
    ∃ x' b', renderLoop s count a x b = .ok (x', b') := by
  induction count generalizing a x b with
  | zero => exact ⟨x, b, rfl⟩
  | succ count ih =>
    obtain ⟨b', -, hloop⟩ := renderLoop_readable (readable_of_renderable hn h0 h hx) (by omega : a < _) count b
    rw [hloop]
    split_ifs
    · exact ⟨_, _, rfl⟩
    · exact ih (by omega) (renderable_voiceLater hn h0 h hx) b'

/-- The operation `voice_render` is the render of the voice it names (R225). -/
theorem exec_voiceRender_of {s : State} {v : Nat} {x x' : Voice} {b : Mem} {start num : BitVec 16}
    (hx : s.voices[v]? = some x) (h : renderVoice s start.toNat num.toNat x s.buf = .ok (x', b)) :
    exec (.voiceRender v start num) s = .next { setVoice s v x' with buf := b } := by
  simp only [exec, execVoiceRender, getVoice_of hx, zext16_eq, h, ok_bind, finish_ok]

/-- A render that stops, stops the operation. -/
theorem exec_voiceRender_fault {s : State} {v : Nat} {x : Voice} {f : Fault} {start num : BitVec 16}
    (hx : s.voices[v]? = some x) (h : renderVoice s start.toNat num.toNat x s.buf = .error f) :
    exec (.voiceRender v start num) s = .fault f := by
  simp only [exec, execVoiceRender, getVoice_of hx, zext16_eq, h, ok_bind, error_bind, finish_error]

/-- A busy voice whose first read is outside the table stops at its first frame (R181, R302). -/
theorem renderVoice_outside {s : State} {x : Voice} {phase : NumWord} (hbusy : x.busy = true)
    (ho : FirstPhaseOutside s x phase) {count : Nat} (hcount : 0 < count) (a : Nat) (b : Mem) :
    renderVoice s a count x b = .error (.phaseRange x.kind phase) := by
  obtain ⟨count, rfl⟩ := Nat.exists_eq_succ_of_ne_zero hcount.ne'
  rw [renderVoice, if_pos hbusy, renderLoop, voiceSample_outside ho, error_bind]

/-- Settles O47: a voice that can be rendered stays one through the loop, so the loop meets no fault. -/
theorem voiceRenderRunsToItsEnd : Obligations.VoiceRenderRunsToItsEnd := by
  refine fun s v start num x hx => ⟨fun hidle => ?_, fun hn h0 h hfits hbusy hrend => ?_, fun phase hbusy hnum ho => ?_⟩
  · rw [exec_voiceRender_of hx (renderVoice_idle hidle), setVoice_self hx]
  · obtain ⟨x', b, hloop⟩ := renderLoop_completes hn h0 h hfits hrend s.buf
    have hrender : renderVoice s start.toNat num.toNat x s.buf = .ok (x', b) := (if_pos hbusy).trans hloop
    obtain ⟨-, -, -, hframe⟩ := renderVoice_frame hrender
    exact ⟨_, exec_voiceRender_of hx hrender, rfl, List.length_set, fun u hu => List.getElem?_set_ne (Ne.symm hu),
      fun c a _ ha hout => hframe c a ha hout⟩
  · exact exec_voiceRender_fault hx (renderVoice_outside hbusy ho hnum _ _)

/-! ### One rendered frame -/

/-- A voice after one sample of a render: a busy one a sample later, an idle one as it was (R225). -/
def voiceNext (s : State) (x : Voice) : Voice := if x.busy then voiceLater s x else x

/-- The word of a frame after the busy voices have been accumulated in ascending index (R253, R254). -/
def mixVoices (s : State) (acc : NumWord) (xs : List Voice) : NumWord :=
  (xs.filter Voice.busy).foldl (fun acc x => s.par.fmt.add acc (voiceOutput s x)) acc

/-- One frame of one voice: its next sample's registers, and its output, when busy, in every channel of the frame. -/
theorem renderVoice_oneFrame {s : State} {x : Voice} (hx : x.busy = true → VoiceReadable s x) {a : Nat}
    (ha : a < s.par.bufLen) (b : Mem) :
    ∃ b', renderVoice s a 1 x b = .ok (voiceNext s x, b') ∧
      ∀ c, c < s.par.channels → bufRead s b' c a = mixVoices s (bufRead s b c a) [x] := by
  by_cases hbusy : x.busy = true
  · obtain ⟨b', hmix, hloop⟩ := renderLoop_readable (hx hbusy) ha 0 b
    refine ⟨b', ?_, fun c hc => ?_⟩
    · rw [renderVoice, if_pos hbusy, hloop, renderLoop_zero, ite_self, voiceNext, if_pos hbusy]
    · rw [(mixAcc_ok hmix).2 c a ha, if_pos ⟨rfl, hc⟩]
      simp [mixVoices, hbusy]
  · refine ⟨b, ?_, fun c _ => by simp [mixVoices, hbusy]⟩
    rw [renderVoice_idle (by simpa using hbusy), voiceNext, if_neg hbusy]

/-- One frame of a list of voices, in ascending index (R252, R254). -/
theorem renderVoices_oneFrame {s : State} {xs : List Voice} (hxs : ∀ x ∈ xs, x.busy = true → VoiceReadable s x) {a : Nat}
    (ha : a < s.par.bufLen) (b : Mem) :
    ∃ b', renderVoices s a 1 xs b = .ok (xs.map (voiceNext s), b') ∧
      ∀ c, c < s.par.channels → bufRead s b' c a = mixVoices s (bufRead s b c a) xs := by
  induction xs generalizing b with
  | nil => exact ⟨b, rfl, fun _ _ => rfl⟩
  | cons x rest ih =>
    obtain ⟨hx, hrest⟩ := List.forall_mem_cons.1 hxs
    obtain ⟨b₁, hvoice, hsum₁⟩ := renderVoice_oneFrame hx ha b
    obtain ⟨b₂, hvoices, hsum₂⟩ := ih hrest b₁
    refine ⟨b₂, by simp only [renderVoices, hvoice, hvoices, ok_bind, List.map_cons], fun c hc => ?_⟩
    rw [hsum₂ c hc, hsum₁ c hc]
    simp only [mixVoices, ← List.foldl_append, ← List.filter_append, List.singleton_append]

/-- Everything a RENDER of one frame does when every busy voice can be read (R252). -/
theorem exec_render_oneFrame {s : State} {start : BitVec 16} (hprep : s.prepared = true) (hstart : start.toNat < s.par.bufLen)
    (hblk : 1 ≤ s.cfg.maxblk.toNat) (hxs : ∀ x ∈ s.voices, x.busy = true → VoiceReadable s x) :
    ∃ b, exec (.render start 1#16) s = .next { s with voices := s.voices.map (voiceNext s), buf := b } ∧
      (∀ c a, a < s.par.bufLen → ¬ (start.toNat ≤ a ∧ a < start.toNat + 1) → bufRead s b c a = bufRead s s.buf c a) ∧
      ∀ c, c < s.par.channels → bufRead s b c start.toNat = mixVoices s (s.par.fmt.ofInt 0) s.voices := by
  obtain ⟨b₀, hclear⟩ := clearFrames_completes s.buf (show start.toNat + 1 ≤ s.par.bufLen from hstart)
  obtain ⟨-, hcleared⟩ := clearFrames_ok hclear
  obtain ⟨b, hrender, hsum⟩ := renderVoices_oneFrame hxs hstart b₀
  obtain ⟨-, -, hframe⟩ := renderVoices_frame hrender
  refine ⟨b, (finish_eq_next _ _).2 (renderBlock_eq_ok.2 ⟨hprep, hstart, hblk, b₀, _, b, hclear, hrender, rfl⟩),
    fun c a ha hout => ?_, fun c hc => ?_⟩
  · rw [hframe c a ha hout, hcleared c a ha, if_neg (by tauto)]
  · rw [hsum c hc, hcleared c _ hstart, if_pos ⟨le_rfl, by omega, hc⟩]

/-- With one element alone passing a test, the elements that pass are that one. -/
theorem filter_eq_singleton_of_sole {α : Type} {test : α → Bool} {xs : List α} {v : Nat} {x : α} (hx : xs[v]? = some x)
    (hpass : test x = true) (hsole : ∀ u y, u ≠ v → xs[u]? = some y → test y = false) : xs.filter test = [x] := by
  induction xs generalizing v with
  | nil => simp at hx
  | cons z rest ih =>
    cases v with
    | zero =>
      obtain rfl : z = x := Option.some.inj hx
      have hrest : rest.filter test = [] := by
        refine List.filter_eq_nil_iff.2 fun y hy => ?_
        obtain ⟨u, hu⟩ := List.mem_iff_getElem?.1 hy
        simp [hsole (u + 1) y (by omega) hu]
      rw [List.filter_cons_of_pos hpass, hrest]
    | succ v =>
      have hz : test z = false := hsole 0 z (by omega) rfl
      rw [List.filter_cons_of_neg (by simp [hz])]
      exact ih hx fun u y hu hy => hsole (u + 1) y (by omega) hy

/-- With one busy voice alone, that one alone moves on (R225). -/
theorem map_voiceNext_of_sole {s : State} {v : Nat} {x : Voice} (hx : s.voices[v]? = some x) (hbusy : x.busy = true)
    (hsole : ∀ u y, u ≠ v → s.voices[u]? = some y → y.busy = false) :
    s.voices.map (voiceNext s) = s.voices.set v (voiceLater s x) := by
  refine List.ext_getElem? fun u => ?_
  rw [List.getElem?_map]
  by_cases huv : u = v
  · subst huv
    rw [List.getElem?_set_self (List.getElem?_eq_some_iff.1 hx).1, hx, Option.map_some, voiceNext, if_pos hbusy]
  · rw [List.getElem?_set_ne (Ne.symm huv)]
    cases hy : s.voices[u]? with
    | none => rfl
    | some y => rw [Option.map_some, voiceNext, hsole u y huv hy, if_neg Bool.false_ne_true]

/-- Settles O28: the frame is cleared, then each busy voice's output is accumulated in ascending index. -/
theorem renderOfOneFrameSumsTheBusyVoices : Obligations.RenderOfOneFrameSumsTheBusyVoices := by
  intro s start hprep hstart hblk hxs
  obtain ⟨b, hexec, hframe, hsum⟩ := exec_render_oneFrame hprep hstart hblk hxs
  refine ⟨_, hexec, rfl, fun c a _ => hframe c a, rfl, hsum, fun v x hx hbusy hsole => ⟨?_, fun c hc => ?_⟩⟩
  · exact map_voiceNext_of_sole hx hbusy hsole
  · refine (hsum c hc).trans ?_
    rw [mixVoices, filter_eq_singleton_of_sole hx hbusy hsole]
    rfl

end Sys2Proof.Machine
end

/-! `MIDI_FREQ` under `NUM_F32` (44_voice.md R222): each entry is the nearest finite number to its tempered pitch, since
it lies within half the format's spacing of it, and an octave adds one to the exponent. -/

section
namespace Sys2Proof.Machine

/-! ### Normal words -/

/-- The word of no sign whose magnitude is `(2^23 + f) * 2^k` units of 2^-149. -/
def F32.normal (k f : Nat) : Word := F32.pack false (k * 2 ^ 23 + (2 ^ 23 + f))

/-- Magnitude bits of an exponent that the format has are below the infinity's. -/
theorem F32.normal_lt_infMag {k f : Nat} (hk : k ≤ 253) (hf : f < 2 ^ 23) : k * 2 ^ 23 + (2 ^ 23 + f) < F32.infMag := by
  unfold F32.infMag
  omega

theorem F32.mag_normal {k f : Nat} (hk : k ≤ 253) (hf : f < 2 ^ 23) :
    F32.mag (F32.normal k f) = k * 2 ^ 23 + (2 ^ 23 + f) := F32.mag_pack _ (F32.normal_lt_infMag hk hf).le

theorem F32.msb_normal {k f : Nat} (hk : k ≤ 253) (hf : f < 2 ^ 23) : (F32.normal k f).msb = false :=
  F32.msb_pack _ (F32.normal_lt_infMag hk hf).le

theorem F32.finite_normal {k f : Nat} (hk : k ≤ 253) (hf : f < 2 ^ 23) : F32.isFinite (F32.normal k f) = true := by
  rw [F32.finite_iff, F32.mag_normal hk hf]
  exact F32.normal_lt_infMag hk hf

theorem F32.units_normal {k f : Nat} (hk : k ≤ 253) (hf : f < 2 ^ 23) :
    F32.units (F32.normal k f) = (2 ^ 23 + f) * 2 ^ k := by
  rw [F32.units, F32.mag_normal hk hf, F32.unitsOf_normal hf]

theorem F32.value_normal {k f : Nat} (hk : k ≤ 253) (hf : f < 2 ^ 23) :
    F32.value (F32.normal k f) = ((2 ^ 23 + f) * 2 ^ k : Nat) := by
  rw [F32.value, F32.msb_normal hk hf, F32.units_normal hk hf]
  rfl

/-- Twice a normal word below the largest exponent: one more in the exponent field, with no rounding. -/
theorem F32.two_mul_normal {k f : Nat} (hk : k < 253) (hf : f < 2 ^ 23) :
    F32.mul (F32.ofInt 2) (F32.normal k f) = F32.normal (k + 1) f := by
  obtain ⟨hfin, hval⟩ := F32.ofInt_nat (n := 2) (by norm_num) (by norm_num)
  have hunits : F32.units (F32.ofInt 2) = 2 * F32.one := by
    rw [F32.units, ← F32.natAbs_value, show (2 : Int) = ((2 : Nat) : Int) from rfl, hval, Int.natAbs_natCast]
  have hmsb : (F32.ofInt 2).msb = false := by decide
  have hdouble : F32.units (F32.ofInt 2) * F32.units (F32.normal k f)
      = F32.unitsOf ((k + 1) * 2 ^ 23 + (2 ^ 23 + f)) * F32.one := by
    rw [hunits, F32.units_normal hk.le hf, F32.unitsOf_normal hf, pow_succ]
    ring
  rw [Nat.cast_ofNat] at hfin
  rw [F32.mul_of_finite hfin (F32.finite_normal hk.le hf), hmsb, F32.msb_normal hk.le hf, hdouble,
    F32.roundUnits_exact F32.one_pos (F32.normal_lt_infMag hk hf).le]
  rfl

/-- No other magnitude lies within one spacing of a normal one that is not at the edge of its exponent. -/
theorem F32.unitsOf_gap {k f m : Nat} (hk : k ≤ 253) (h0 : 0 < f) (hf : f + 1 < 2 ^ 23) (hm : m ≤ F32.infMag) :
    F32.unitsOf m = (2 ^ 23 + f) * 2 ^ k ∨ F32.unitsOf m + 2 ^ k ≤ (2 ^ 23 + f) * 2 ^ k ∨
      (2 ^ 23 + f) * 2 ^ k + 2 ^ k ≤ F32.unitsOf m := by
  have hinf := F32.normal_lt_infMag hk (show f < 2 ^ 23 by omega)
  rcases lt_trichotomy m (k * 2 ^ 23 + (2 ^ 23 + f)) with hlt | rfl | hgt
  · obtain ⟨g, rfl⟩ := Nat.exists_eq_add_of_le' h0
    have hbelow := (F32.unitsOf_le_iff (m' := k * 2 ^ 23 + (2 ^ 23 + g)) hm (by omega)).2 (by omega)
    rw [F32.unitsOf_normal (by omega)] at hbelow
    exact .inr (.inl ((Nat.add_le_add_right hbelow _).trans_eq (by ring)))
  · exact .inl (F32.unitsOf_normal (by omega))
  · have habove := (F32.unitsOf_le_iff (m := k * 2 ^ 23 + (2 ^ 23 + (f + 1))) (by omega) hm).2 (by omega)
    rw [F32.unitsOf_normal hf] at habove
    exact .inr (.inr (Nat.le_trans (by rw [← add_assoc, Nat.succ_mul]) habove))

/-- No other finite value lies within one spacing of such a word, one of the other sign least of all. -/
theorem F32.value_gap {k f : Nat} (hk : k ≤ 253) (h0 : 0 < f) (hf : f + 1 < 2 ^ 23) {x : Word}
    (hx : F32.isFinite x = true) :
    F32.value x = F32.value (F32.normal k f) ∨ (2 ^ k : Int) ≤ |F32.value x - F32.value (F32.normal k f)| := by
  have hone : 2 ^ k ≤ (2 ^ 23 + f) * 2 ^ k := Nat.le_mul_of_pos_left _ (by omega)
  have hgap := F32.unitsOf_gap hk h0 hf ((F32.finite_iff x).1 hx).le
  rw [F32.value_normal hk (by omega), show (2 ^ k : Int) = ((2 ^ k : Nat) : Int) by push_cast; rfl, F32.value, F32.units]
  generalize (2 ^ 23 + f) * 2 ^ k = here at *
  generalize 2 ^ k = spacing at *
  split_ifs
  · rw [abs_of_nonpos (by omega)]
    omega
  · rcases hgap with heq | hbelow | habove
    · exact .inl (by rw [heq])
    · rw [abs_of_nonpos (by omega)]
      omega
    · rw [abs_of_nonneg (by omega)]
      omega

/-- A point within half the gap around `y` has no other point nearer to it. -/
theorem abs_sub_le_of_gap {x y t d : ℝ} (hy : |y - t| ≤ d) (hgap : x = y ∨ 2 * d ≤ |x - y|) : |y - t| ≤ |x - t| := by
  rcases hgap with rfl | hfar
  · exact le_rfl
  · have htri := abs_sub_le x t y
    rw [abs_sub_comm t y] at htri
    linarith

/-- A normal word within half a spacing of a real number is nearest to it. -/
theorem f32Value_nearest {k f : Nat} (hk : k ≤ 253) (h0 : 0 < f) (hf : f + 1 < 2 ^ 23) {t : ℝ}
    (ht : |f32Value (.f32 (F32.normal k f)) - t| ≤ 2 ^ k / F32.one / 2) {x : NumWord} (hx : F32.isFinite x.bits = true) :
    |f32Value (.f32 (F32.normal k f)) - t| ≤ |f32Value x - t| := by
  refine abs_sub_le_of_gap ht ?_
  have hone : (0 : ℝ) < (F32.one : ℝ) := by exact_mod_cast F32.one_pos
  unfold f32Value
  rcases F32.value_gap hk h0 hf hx with heq | hfar
  · exact .inl (by rw [heq, NumWord.bits_f32])
  · refine .inr ?_
    have hreal : (2 : ℝ) ^ k ≤ |(F32.value x.bits : ℝ) - (F32.value (F32.normal k f) : ℝ)| := by exact_mod_cast hfar
    rw [mul_div_cancel₀ _ (two_ne_zero), ← sub_div, abs_div, abs_of_pos hone]
    exact div_le_div_of_nonneg_right hreal hone.le

/-! ### The tempered pitches -/

/-- The tempered pitch of a note: twelve to the octave, 440 at note 69 (R222). -/
noncomputable def temperedPitch (n : Nat) : ℝ := 440 * (2 : ℝ) ^ (((n : ℝ) - 69) / 12)

theorem numReal_midi (note : BitVec 7) : numReal.midi note = temperedPitch note.toNat := rfl

theorem temperedPitch_add_octaves (m o : Nat) : temperedPitch (m + 12 * o) = 2 ^ o * temperedPitch m := by
  have hexp : ((m + 12 * o : Nat) - 69 : ℝ) / 12 = ((m : ℝ) - 69) / 12 + o := by
    push_cast
    ring
  rw [temperedPitch, hexp, Real.rpow_add_natCast two_ne_zero, temperedPitch]
  ring

/-- The twelfth power of a tempered pitch is rational. -/
theorem temperedPitch_pow (m : Nat) : temperedPitch m ^ 12 * 2 ^ 69 = 440 ^ 12 * 2 ^ m := by
  have hroot : ((2 : ℝ) ^ (((m : ℝ) - 69) / 12)) ^ 12 * 2 ^ 69 = 2 ^ m := by
    rw [← Real.rpow_mul_natCast two_pos.le, ← Real.rpow_add_natCast two_ne_zero, ← Real.rpow_natCast]
    congr 1
    push_cast
    ring
  rw [temperedPitch, mul_pow, mul_assoc, hroot]

theorem temperedPitch_pos (m : Nat) : 0 < temperedPitch m := by
  unfold temperedPitch
  positivity

/-- A rational is below a tempered pitch, or above it, as the twelfth powers are. -/
theorem le_temperedPitch {a m : Nat} (h : a ^ 12 * 2 ^ 69 ≤ 440 ^ 12 * 2 ^ m * (2 ^ 21) ^ 12) :
    (a : ℝ) / 2 ^ 21 ≤ temperedPitch m := by
  rw [← pow_le_pow_iff_left₀ (by positivity) (temperedPitch_pos m).le (by norm_num : 12 ≠ 0), div_pow,
    div_le_iff₀ (by positivity), ← mul_le_mul_iff_left₀ (show (0 : ℝ) < 2 ^ 69 by positivity), mul_right_comm,
    temperedPitch_pow]
  exact_mod_cast h

theorem temperedPitch_le {a m : Nat} (h : 440 ^ 12 * 2 ^ m * (2 ^ 21) ^ 12 ≤ a ^ 12 * 2 ^ 69) :
    temperedPitch m ≤ (a : ℝ) / 2 ^ 21 := by
  rw [← pow_le_pow_iff_left₀ (temperedPitch_pos m).le (by positivity) (by norm_num : 12 ≠ 0), div_pow,
    le_div_iff₀ (by positivity), ← mul_le_mul_iff_left₀ (show (0 : ℝ) < 2 ^ 69 by positivity), mul_right_comm,
    temperedPitch_pow]
  exact_mod_cast h

/-! ### The table -/

/-- The fraction bits of `MIDI_FREQ[m]` for the notes 0 to 11, which lie between 8 and 16. -/
def midiFraction (m : Nat) : Nat := midiOctave.getD m 0 % 2 ^ 23

/-- The twelve fractions are inside their exponent, and within half a unit of the tempered pitch, in twelfth powers. -/
theorem midiFraction_spec : ∀ m < 12,
    midiOctave.getD m 0 = 130 * 2 ^ 23 + midiFraction m ∧ 0 < midiFraction m ∧ midiFraction m + 1 < 2 ^ 23 ∧
      (2 * (2 ^ 23 + midiFraction m) - 1) ^ 12 * 2 ^ 69 ≤ 440 ^ 12 * 2 ^ m * (2 ^ 21) ^ 12 ∧
      440 ^ 12 * 2 ^ m * (2 ^ 21) ^ 12 ≤ (2 * (2 ^ 23 + midiFraction m) + 1) ^ 12 * 2 ^ 69 := by
  decide

/-- Each entry of `MIDI_FREQ` is a normal word: the fraction of its note in the octave, the exponent of its octave. -/
theorem midiFreq_eq_normal (note : BitVec 7) :
    midiFreq note = F32.normal (129 + note.toNat / 12) (midiFraction (note.toNat % 12)) := by
  obtain ⟨hword, -⟩ := midiFraction_spec (note.toNat % 12) (Nat.mod_lt _ (by norm_num))
  unfold midiFreq F32.normal F32.pack
  rw [hword, if_neg Bool.false_ne_true]
  exact congrArg _ (by ring)

/-- Each entry lies within half a spacing of its tempered pitch (R222). -/
theorem midiFreq_near (o m : Nat) (hm : m < 12) (ho : o ≤ 10) :
    |f32Value (.f32 (F32.normal (129 + o) (midiFraction m))) - temperedPitch (m + 12 * o)|
      ≤ 2 ^ (129 + o) / F32.one / 2 := by
  obtain ⟨-, -, hf, hlo, hhi⟩ := midiFraction_spec m hm
  have hone : (F32.one : ℝ) = 2 ^ 149 := by norm_num [F32.one]
  have hval : f32Value (.f32 (F32.normal (129 + o) (midiFraction m)))
      = 2 ^ o * ((2 * (2 ^ 23 + midiFraction m : Nat) : ℝ) / 2 ^ 21) := by
    rw [f32Value, NumWord.bits_f32, F32.value_normal (by omega) (by omega), hone]
    push_cast
    ring
  have hhalf : (2 : ℝ) ^ (129 + o) / F32.one / 2 = 2 ^ o * (1 / 2 ^ 21) := by
    rw [hone]
    ring
  rw [hval, hhalf, temperedPitch_add_octaves, ← mul_sub, abs_mul, abs_of_pos (by positivity)]
  refine mul_le_mul_of_nonneg_left ?_ (by positivity)
  have hle := le_temperedPitch hlo
  have hge := temperedPitch_le hhi
  rw [Nat.cast_sub (by omega)] at hle
  push_cast at hle hge ⊢
  rw [abs_le]
  constructor <;> linarith

/-- Settles O51: 440 at note 69 is a law of every other format and a computation for `NUM_F32`, whose entries are normal
words within half a spacing of the pitch, an octave being one exponent. -/
theorem midiFreqIsNearestTheTemperedPitch : Obligations.MidiFreqIsNearestTheTemperedPitch := by
  refine ⟨fun p => ?_, fun n => ?_, fun n hn => ?_⟩
  · by_cases hp : p.num = .f32
    · rw [fmt_f32 hp]
      decide
    · obtain ⟨_, hlawful⟩ := fmt_lawful hp
      exact hlawful.midi_a4
  · have hm : n.toNat % 12 < 12 := Nat.mod_lt _ (by norm_num)
    have ho : n.toNat / 12 ≤ 10 := by
      have := n.isLt
      omega
    obtain ⟨-, h0, hf, -⟩ := midiFraction_spec _ hm
    have hnear := midiFreq_near (n.toNat / 12) (n.toNat % 12) hm ho
    rw [Nat.mod_add_div] at hnear
    rw [numF32_midi, midiFreq_eq_normal, numReal_midi]
    exact ⟨F32.finite_normal (by omega) (by omega), fun x hx => f32Value_nearest (by omega) h0 hf hnear hx⟩
  · have hsum : (n + 12#7).toNat = n.toNat + 12 := by
      rw [BitVec.toNat_add, BitVec.toNat_ofNat]
      omega
    obtain ⟨-, -, hf, -⟩ := midiFraction_spec (n.toNat % 12) (Nat.mod_lt _ (by norm_num))
    simp only [numF32_midi, numF32_mul, numF32_ofInt, NumWord.bits_f32, midiFreq_eq_normal]
    rw [F32.two_mul_normal (by omega) (by omega), hsum, Nat.add_div_right _ (by norm_num), Nat.add_mod_right]
    rfl

end Sys2Proof.Machine
end

/-! The mixer and the sample buffer (45_voice_mixer_sample_buf.md): clearing and accumulating frames (R251, R253), when a
RENDER runs to its end and what it leaves alike (R252, R255), and two successive renders against one (R343). -/

section
namespace Sys2Proof.Machine

/-! ### Clearing and accumulating -/

/-- A word outside the frames cleared reads as before (R251). -/
theorem bufRead_cleared_outside {s : State} {count lo : Nat} {b b' : Mem} (h : clearFrames s.par count lo b = .ok b')
    {c a : Nat} (ha : a < s.par.bufLen) (hout : ¬ (lo ≤ a ∧ a < lo + count)) : bufRead s b' c a = bufRead s b c a :=
  ((clearFrames_ok h).2 c a ha).trans (if_neg fun ⟨hlo, hhi, _⟩ => hout ⟨hlo, hhi⟩)

/-- A word of the frames cleared reads zero in every channel (R251). -/
theorem bufRead_cleared_inside {s : State} {count lo : Nat} {b b' : Mem} (h : clearFrames s.par count lo b = .ok b')
    {c a : Nat} (hc : c < s.par.channels) (hlo : lo ≤ a) (hhi : a < lo + count) : bufRead s b' c a = s.par.fmt.ofInt 0 := by
  obtain ⟨hfits, hread⟩ := clearFrames_ok h
  exact (hread c a (by omega)).trans (if_pos ⟨hlo, hhi, hc⟩)

/-- Two clearings that both take in a frame, or both leave it out, leave its words alike where they were alike (R251). -/
theorem bufRead_cleared_alike {s : State} {count lo count' lo' : Nat} {b d b' d' : Mem}
    (h : clearFrames s.par count lo b = .ok d) (h' : clearFrames s.par count' lo' b' = .ok d') {c f : Nat}
    (hf : f < s.par.bufLen) (hsame : lo ≤ f ∧ f < lo + count ↔ lo' ≤ f ∧ f < lo' + count')
    (hb : bufRead s b c f = bufRead s b' c f) : bufRead s d c f = bufRead s d' c f := by
  rw [(clearFrames_ok h).2 c f hf, (clearFrames_ok h').2 c f hf, hb]
  simp only [← and_assoc, hsame]

/-- Settles O48: the region lies in the buffer, so the clearing completes. -/
theorem bufClearZeroesItsRegion : Obligations.BufClearZeroesItsRegion := by
  intro s start num hfits
  obtain ⟨b, hclear⟩ := clearFrames_completes s.buf hfits
  refine ⟨{ s with buf := b }, ?_, rfl, fun c a _ ha hout => bufRead_cleared_outside hclear ha hout,
    fun c a hc hlo hhi => bufRead_cleared_inside hclear hc hlo hhi⟩
  simp only [exec, execBufClear, bufClear, zext16_eq, hclear, finish_ok]

/-- Settles O49: the frame exists, so the accumulate completes. -/
theorem mixAccAddsToEveryChannel : Obligations.MixAccAddsToEveryChannel := by
  intro s a y ha
  obtain ⟨b, hmix⟩ := mixAcc_completes ha s.buf (numword s.par y)
  obtain ⟨-, hread⟩ := mixAcc_ok hmix
  refine ⟨{ s with buf := b }, ?_, rfl, fun c f _ hf hout => ?_, fun c hc => ?_⟩
  · simp only [exec, execMixAcc, hmix, ok_bind, finish_ok]
  · exact (hread c f hf).trans (if_neg fun ⟨hfa, _⟩ => hout (by omega))
  · exact (hread c a ha).trans (if_pos ⟨rfl, hc⟩)

/-! ### RENDER -/

/-- RENDER goes on exactly when its contract holds, its region clears and its voices render, and it then writes the
voices and the buffer (R252). -/
theorem exec_render_eq_next {s t : State} {start num : BitVec 16} :
    exec (.render start num) s = .next t ↔
      s.prepared = true ∧ start.toNat + num.toNat ≤ s.par.bufLen ∧ num.toNat ≤ s.cfg.maxblk.toNat ∧
        ∃ b ys b', clearFrames s.par num.toNat start.toNat s.buf = .ok b ∧
          renderVoices s start.toNat num.toNat s.voices b = .ok (ys, b') ∧
          t = { s with voices := ys, buf := b' } :=
  (finish_eq_next _ _).trans renderBlock_eq_ok

/-- A fault of the voices' render, whatever the buffer holds, is RENDER's own (R252). -/
theorem exec_render_fault {s : State} {start num : BitVec 16} {f : Fault} (hprep : s.prepared = true)
    (hfits : start.toNat + num.toNat ≤ s.par.bufLen) (hblk : num.toNat ≤ s.cfg.maxblk.toNat)
    (h : ∀ b, renderVoices s start.toNat num.toNat s.voices b = .error f) :
    exec (.render start num) s = .fault f := by
  obtain ⟨b, hclear⟩ := clearFrames_completes s.buf hfits
  have hrange : ¬ (s.par.bufLen < start.toNat + num.toNat ∨ s.cfg.maxblk.toNat < num.toNat) := by omega
  simp only [exec, execRender, renderBlock, hprep, Bool.not_true, Bool.false_eq_true, if_false, zext16_eq, hrange, hclear,
    ok_bind, h b, error_bind, finish_error]

/-- Rendering no frames of the voices changes nothing. -/
theorem renderVoices_noFrames (s : State) (a : Nat) (xs : List Voice) (b : Mem) :
    renderVoices s a 0 xs b = .ok (xs, b) := by
  induction xs with
  | nil => rfl
  | cons x rest ih => simp only [renderVoices, renderVoice, renderLoop_zero, ite_self, ok_bind, ih]

/-- Settles O25: idle voices render nothing, and neither do any voices over no frames, so the clearing alone is left. -/
theorem renderOfSilenceClearsTheRegion : Obligations.RenderOfSilenceClearsTheRegion := by
  refine ⟨fun s start num hprep hfits hblk hidle => ?_, fun s start hprep hstart => ?_⟩
  · obtain ⟨b, hclear⟩ := clearFrames_completes s.buf hfits
    exact ⟨{ s with buf := b },
      exec_render_eq_next.2 ⟨hprep, hfits, hblk, b, s.voices, b, hclear, renderVoices_idle hidle, rfl⟩, rfl,
      fun c a _ ha hout => bufRead_cleared_outside hclear ha hout,
      fun c a hc hlo hhi => bufRead_cleared_inside hclear hc hlo hhi⟩
  · exact exec_render_eq_next.2
      ⟨hprep, hstart, Nat.zero_le _, s.buf, s.voices, s.buf, rfl, renderVoices_noFrames .., rfl⟩

/-- A render of the voices leaves all channels alike where they were alike (R255). -/
theorem renderVoices_channels {s : State} {count a lo hi : Nat} {xs ys : List Voice} {b b' : Mem}
    (hb : ∀ c f, c < s.par.channels → f < s.par.bufLen → lo ≤ f → f < hi → bufRead s b c f = bufRead s b 0 f)
    (h : renderVoices s a count xs b = .ok (ys, b')) :
    ∀ c f, c < s.par.channels → f < s.par.bufLen → lo ≤ f → f < hi → bufRead s b' c f = bufRead s b' 0 f := by
  induction xs generalizing ys b with
  | nil => cases h; exact hb
  | cons x rest ih =>
    simp only [renderVoices, bind_eq_ok] at h
    obtain ⟨⟨x', b₁⟩, hvoice, ⟨ys', b₂⟩, hrest, ht⟩ := h
    cases ht
    refine ih ?_ hrest
    unfold renderVoice at hvoice
    split_ifs at hvoice
    · exact renderLoop_channels hb hvoice
    · cases hvoice
      exact hb

/-- Settles O26: the clearing makes the channels of the region alike, and the voices keep them so. -/
theorem renderLeavesAllChannelsIdentical : Obligations.RenderLeavesAllChannelsIdentical := by
  intro s t start num h c a hc hlo hhi
  obtain ⟨-, hfits, -, b, ys, b', hclear, hrender, rfl⟩ := exec_render_eq_next.1 h
  have hcleared : ∀ c f, c < s.par.channels → f < s.par.bufLen → start.toNat ≤ f → f < start.toNat + num.toNat →
      bufRead s b c f = bufRead s b 0 f := fun c f hc _ hlo hhi => by
    rw [bufRead_cleared_inside hclear hc hlo hhi, bufRead_cleared_inside hclear (by omega) hlo hhi]
  exact renderVoices_channels hcleared hrender c a hc (by omega) hlo hhi

/-! ### When a render runs to its end -/

/-- Rendering a voice over these frames runs to its end, whatever the buffer holds. -/
def RendersOver (s : State) (a count : Nat) (x : Voice) : Prop :=
  ∀ b, ∃ x' b', renderVoice s a count x b = .ok (x', b')

theorem rendersOver_idle {s : State} {a count : Nat} {x : Voice} (h : x.busy = false) : RendersOver s a count x :=
  fun b => ⟨x, b, renderVoice_idle h⟩

/-- Under `NUM_F32` a voice renders over frames that exist when it is idle or its phases and increments are in range. -/
theorem rendersOver_renderable {s : State} (hn : s.par.num = .f32) (h0 : 0 < s.par.tableSize)
    (h : s.par.tableSize ≤ 2 ^ 24) {a count : Nat} (ha : a + count ≤ s.par.bufLen) {x : Voice}
    (hx : x.busy = true → VoiceRenderable s.par.tableSize x) : RendersOver s a count x := by
  cases hbusy : x.busy with
  | false => exact rendersOver_idle hbusy
  | true =>
    intro b
    obtain ⟨x', b', hloop⟩ := renderLoop_completes hn h0 h ha (hx hbusy) b
    exact ⟨x', b', (if_pos hbusy).trans hloop⟩

/-- The voices render when each of them does (R252). -/
theorem renderVoices_completes {s : State} {a count : Nat} {xs : List Voice} (h : ∀ x ∈ xs, RendersOver s a count x)
    (b : Mem) : ∃ ys b', renderVoices s a count xs b = .ok (ys, b') := by
  induction xs generalizing b with
  | nil => exact ⟨[], b, rfl⟩
  | cons x rest ih =>
    obtain ⟨hx, hrest⟩ := List.forall_mem_cons.1 h
    obtain ⟨x', b₁, hvoice⟩ := hx b
    obtain ⟨ys, b₂, hvoices⟩ := ih hrest b₁
    exact ⟨x' :: ys, b₂, by simp only [renderVoices, hvoice, hvoices, ok_bind]⟩

/-- The first voice that stops, stops the render of the voices (R252, R304). -/
theorem renderVoices_fault {s : State} {a count : Nat} {xs : List Voice} {v : Nat} {x : Voice} {f : Fault}
    (hx : xs[v]? = some x) (hstops : ∀ b, renderVoice s a count x b = .error f)
    (hbefore : ∀ u y, u < v → xs[u]? = some y → RendersOver s a count y) (b : Mem) :
    renderVoices s a count xs b = .error f := by
  induction xs generalizing v b with
  | nil => simp at hx
  | cons z rest ih =>
    cases v with
    | zero =>
      obtain rfl : z = x := Option.some.inj hx
      simp only [renderVoices, hstops b, error_bind]
    | succ v =>
      obtain ⟨z', b₁, hvoice⟩ := hbefore 0 z v.succ_pos rfl b
      have hrest := ih hx (fun u y hu hy => hbefore (u + 1) y (by omega) hy) b₁
      simp only [renderVoices, hvoice, hrest, ok_bind, error_bind]

/-- RENDER stops with the `CV5` of a busy voice whose first read is outside the table, when the voices before it render
(R181, R252, R302). -/
theorem exec_render_outside {s : State} {start num : BitVec 16} (hprep : s.prepared = true)
    (hfits : start.toNat + num.toNat ≤ s.par.bufLen) (hblk : num.toNat ≤ s.cfg.maxblk.toNat) (hnum : 0 < num.toNat)
    {v : Nat} {x : Voice} {phase : NumWord} (hx : s.voices[v]? = some x) (hbusy : x.busy = true)
    (ho : FirstPhaseOutside s x phase)
    (hbefore : ∀ u y, u < v → s.voices[u]? = some y → RendersOver s start.toNat num.toNat y) :
    exec (.render start num) s = .fault (.phaseRange x.kind phase) :=
  exec_render_fault hprep hfits hblk (renderVoices_fault hx (renderVoice_outside hbusy ho hnum _) hbefore)

/-- Settles O24: a render stops only where one of its voices does, and a voice only at a read outside the table. -/
theorem renderRunsToItsEnd : Obligations.RenderRunsToItsEnd := by
  refine fun s start num hprep hfits hblk => ⟨fun hn h0 h hxs => ?_, fun hn h0 h hnum v x phase hx hbusy ho hbefore => ?_,
    fun hnum v x phase hx hbusy ho hbefore => ?_⟩
  · obtain ⟨b, hclear⟩ := clearFrames_completes s.buf hfits
    obtain ⟨ys, b', hrender⟩ :=
      renderVoices_completes (fun x hx => rendersOver_renderable hn h0 h hfits (hxs x hx)) b
    obtain ⟨hlen, hsetup, hframe⟩ := renderVoices_frame hrender
    refine ⟨_, exec_render_eq_next.2 ⟨hprep, hfits, hblk, b, ys, b', hclear, hrender, rfl⟩, rfl, fun c a _ ha hout => ?_,
      hlen, fun v x y hx hy => ?_⟩
    · exact (hframe c a ha hout).trans (bufRead_cleared_outside hclear ha hout)
    · obtain ⟨⟨hnote, hgain, hkind, hinc, hincs⟩, hbusy, hidle⟩ := hsetup v x y hx hy
      exact ⟨hnote, hgain, hkind, hinc, hincs, hidle, hbusy⟩
  · exact exec_render_outside hprep hfits hblk hnum hx hbusy ho fun u y hu hy =>
      rendersOver_renderable hn h0 h hfits (hbefore u y hu hy)
  · exact exec_render_outside hprep hfits hblk hnum hx hbusy ho fun u y hu hy => rendersOver_idle (hbefore u y hu hy)

/-! ### What a render reads of the state -/

section SameState
variable {s t : State} (ht : SameButVoicesAndBuf s t)
include ht

theorem SameButVoicesAndBuf.par_eq : t.par = s.par := by rw [ht]

theorem SameButVoicesAndBuf.era_eq : t.era = s.era := by rw [ht]

theorem nextSample_congr (o : Osc) (k : Kind) : nextSample t o k = nextSample s o k := by
  rw [ht]
  rfl

theorem sumSlots_congr (k : Kind) (i : Nat) (acc : NumWord) (subs : List Slot) :
    sumSlots t k i acc subs = sumSlots s k i acc subs := by
  induction subs generalizing i acc with
  | nil => rfl
  | cons sl rest ih => simp only [sumSlots, nextSample_congr ht, ht.par_eq, ih]

theorem voiceSample_congr (x : Voice) : voiceSample t x = voiceSample s x := by
  have henv : envStep t x.env = envStep s x.env := by
    rw [ht]
    rfl
  simp only [voiceSample, nextSample_congr ht, sumSlots_congr ht, ht.par_eq, henv]

theorem renderLoop_congr (count a : Nat) (x : Voice) (b : Mem) : renderLoop t count a x b = renderLoop s count a x b := by
  induction count generalizing a x b with
  | zero => rfl
  | succ count ih => simp only [renderLoop, voiceSample_congr ht, mixAcc_congr ht.par_eq ht.era_eq, ih]

/-- A render of given voices on a given buffer reads neither the state's own voices nor its own buffer. -/
theorem renderVoices_congr (a count : Nat) (xs : List Voice) (b : Mem) :
    renderVoices t a count xs b = renderVoices s a count xs b := by
  induction xs generalizing b with
  | nil => rfl
  | cons x rest ih => simp only [renderVoices, renderVoice, renderLoop_congr ht, ih]

end SameState

/-! ### One render after another -/

/-- If the first two buffers read alike at a frame in a channel, so do the last two. -/
def KeepsAgreement (s : State) (f : Nat) (b₁ b₂ b₁' b₂' : Mem) : Prop :=
  ∀ c, bufRead s b₁ c f = bufRead s b₂ c f → bufRead s b₁' c f = bufRead s b₂' c f

theorem KeepsAgreement.trans {s : State} {f : Nat} {b₁ b₂ c₁ c₂ d₁ d₂ : Mem} (h : KeepsAgreement s f b₁ b₂ c₁ c₂)
    (g : KeepsAgreement s f c₁ c₂ d₁ d₂) : KeepsAgreement s f b₁ b₂ d₁ d₂ := fun c hb => g c (h c hb)

/-- Whether an accumulate completes does not depend on the buffer, and each word on that word alone. -/
theorem mixAcc_otherBuffer {s : State} {a : Nat} {y : NumWord} {b₁ b₁' : Mem} (h : mixAcc s b₁ a y = .ok b₁') (b₂ : Mem) :
    ∃ b₂', mixAcc s b₂ a y = .ok b₂' ∧ ∀ f < s.par.bufLen, KeepsAgreement s f b₁ b₂ b₁' b₂' := by
  obtain ⟨ha, hread₁⟩ := mixAcc_ok h
  obtain ⟨b₂', hmix⟩ := mixAcc_completes ha b₂ y
  refine ⟨b₂', hmix, fun f hf c hb => ?_⟩
  rw [hread₁ c f hf, (mixAcc_ok hmix).2 c f hf, hb]

/-- One frame of the render loop: after the sample and its accumulate it goes on or frees the voice (R225). -/
theorem renderLoop_step {s : State} {a : Nat} {x x₁ : Voice} {y : NumWord} {b b₁ : Mem}
    (hsample : voiceSample s x = .ok (y, x₁)) (hmix : mixAcc s b a y = .ok b₁) (count : Nat) :
    renderLoop s (count + 1) a x b
      = if envActive x₁.env then renderLoop s count (a + 1) x₁ b₁ else .ok (freeVoice x₁, b₁) := by
  simp only [renderLoop, hsample, hmix, ok_bind]

/-- What a voice's render does to the voice does not depend on the buffer, and each word on that word alone. -/
theorem renderLoop_otherBuffer {s : State} {count a : Nat} {x x' : Voice} {b₁ b₁' : Mem}
    (h : renderLoop s count a x b₁ = .ok (x', b₁')) (b₂ : Mem) :
    ∃ b₂', renderLoop s count a x b₂ = .ok (x', b₂') ∧ ∀ f < s.par.bufLen, KeepsAgreement s f b₁ b₂ b₁' b₂' := by
  induction count generalizing a x b₁ b₂ with
  | zero =>
    cases h
    exact ⟨b₂, rfl, fun _ _ _ hb => hb⟩
  | succ count ih =>
    obtain ⟨y, x₁, c₁, hsample, hmix₁, hrest⟩ := renderLoop_succ h
    obtain ⟨c₂, hmix₂, hkeeps⟩ := mixAcc_otherBuffer hmix₁ b₂
    rw [renderLoop_step hsample hmix₂]
    obtain ⟨hactive, hloop⟩ | ⟨hdone, rfl, rfl⟩ := hrest
    · obtain ⟨b₂', hloop₂, hkeeps'⟩ := ih hloop c₂
      exact ⟨b₂', (if_pos hactive).trans hloop₂, fun f hf => (hkeeps f hf).trans (hkeeps' f hf)⟩
    · exact ⟨c₂, if_neg (by simp [hdone]), hkeeps⟩

theorem renderVoice_otherBuffer {s : State} {count a : Nat} {x x' : Voice} {b₁ b₁' : Mem}
    (h : renderVoice s a count x b₁ = .ok (x', b₁')) (b₂ : Mem) :
    ∃ b₂', renderVoice s a count x b₂ = .ok (x', b₂') ∧ ∀ f < s.par.bufLen, KeepsAgreement s f b₁ b₂ b₁' b₂' := by
  unfold renderVoice at h ⊢
  split_ifs at h ⊢
  · exact renderLoop_otherBuffer h b₂
  · cases h
    exact ⟨b₂, rfl, fun _ _ _ hb => hb⟩

/-- The render loop over `m + n` frames goes on after `m` of them as a render of the voice it holds then, which has
nothing left to do if it was freed (R225, R343). -/
theorem renderLoop_add {s : State} {m a : Nat} {x x₁ : Voice} {b b₁ : Mem} (hbusy : x.busy = true)
    (h : renderLoop s m a x b = .ok (x₁, b₁)) (n : Nat) :
    renderLoop s (m + n) a x b = renderVoice s (a + m) n x₁ b₁ := by
  induction m generalizing a x b with
  | zero =>
    cases h
    rw [Nat.zero_add, Nat.add_zero, renderVoice, if_pos hbusy]
  | succ m ih =>
    obtain ⟨y, x₂, b₂, hsample, hmix, hrest⟩ := renderLoop_succ h
    rw [Nat.succ_add, renderLoop_step hsample hmix]
    obtain ⟨hactive, hloop⟩ | ⟨hdone, rfl, rfl⟩ := hrest
    · rw [if_pos hactive, ih ((voiceSample_setup hsample).2.trans hbusy) hloop, Nat.add_right_comm, Nat.add_assoc]
    · rw [if_neg (by simp [hdone]), renderVoice_idle rfl]

theorem renderVoice_add {s : State} {m a : Nat} {x x₁ : Voice} {b b₁ : Mem}
    (h : renderVoice s a m x b = .ok (x₁, b₁)) (n : Nat) :
    renderVoice s a (m + n) x b = renderVoice s (a + m) n x₁ b₁ := by
  cases hbusy : x.busy with
  | false =>
    rw [renderVoice_idle hbusy] at h
    cases h
    rw [renderVoice_idle hbusy, renderVoice_idle hbusy]
  | true =>
    rw [renderVoice, if_pos hbusy] at h ⊢
    exact renderLoop_add hbusy h n

/-- What the voices hold after two successive renders, one render over both regions leaves them; it treats the frames
of the first region as the first render does, and the others as the second (R252, R343). -/
theorem renderVoices_add {s : State} {m n a : Nat} {xs ys zs : List Voice} {b₁ b₁' b₂ b₂' : Mem}
    (hfirst : renderVoices s a m xs b₁ = .ok (ys, b₁')) (hsecond : renderVoices s (a + m) n ys b₂ = .ok (zs, b₂'))
    (b : Mem) :
    ∃ b', renderVoices s a (m + n) xs b = .ok (zs, b') ∧ ∀ f < s.par.bufLen,
      (f < a + m → KeepsAgreement s f b₁ b b₁' b') ∧ (a + m ≤ f → KeepsAgreement s f b₂ b b₂' b') := by
  induction xs generalizing ys zs b₁ b₂ b with
  | nil =>
    cases hfirst
    cases hsecond
    exact ⟨b, rfl, fun _ _ => ⟨fun _ _ hb => hb, fun _ _ hb => hb⟩⟩
  | cons x rest ih =>
    simp only [renderVoices, bind_eq_ok] at hfirst
    obtain ⟨⟨y, c₁⟩, hvoice₁, ⟨ys', _⟩, hrest₁, hys⟩ := hfirst
    cases hys
    simp only [renderVoices, bind_eq_ok] at hsecond
    obtain ⟨⟨z, c₂⟩, hvoice₂, ⟨zs', _⟩, hrest₂, hzs⟩ := hsecond
    cases hzs
    obtain ⟨d₁, hone₁, hkeeps₁⟩ := renderVoice_otherBuffer hvoice₁ b
    obtain ⟨d₂, hone₂, hkeeps₂⟩ := renderVoice_otherBuffer hvoice₂ d₁
    obtain ⟨b', hrest, hkeeps⟩ := ih hrest₁ hrest₂ d₂
    obtain ⟨-, -, -, hframe₁⟩ := renderVoice_frame hone₁
    obtain ⟨-, -, -, hframe₂⟩ := renderVoice_frame hone₂
    refine ⟨b', by simp only [renderVoices, renderVoice_add hone₁, hone₂, hrest, ok_bind], fun f hf =>
      ⟨fun hlt => ?_, fun hge => ?_⟩⟩
    · have hstill : KeepsAgreement s f c₁ d₁ c₁ d₂ := fun c hb => hb.trans (hframe₂ c f hf (by omega)).symm
      exact ((hkeeps₁ f hf).trans hstill).trans ((hkeeps f hf).1 hlt)
    · have hstill : KeepsAgreement s f b₂ b b₂ d₁ := fun c hb => hb.trans (hframe₁ c f hf (by omega)).symm
      exact (hstill.trans (hkeeps₂ f hf)).trans ((hkeeps f hf).2 hge)

/-- What a RENDER does after the voices and the buffer have been replaced (R252). -/
theorem exec_render_replaced {s u : State} {xs : List Voice} {b : Mem} {start num : BitVec 16}
    (h : exec (.render start num) { s with voices := xs, buf := b } = .next u) :
    start.toNat + num.toNat ≤ s.par.bufLen ∧ ∃ c ys c', clearFrames s.par num.toNat start.toNat b = .ok c ∧
      renderVoices s start.toNat num.toNat xs c = .ok (ys, c') ∧ u = { s with voices := ys, buf := c' } := by
  obtain ⟨-, hfits, -, c, ys, c', hclear, hrender, hu⟩ := exec_render_eq_next.1 h
  have hsame : SameButVoicesAndBuf s { s with voices := xs, buf := b } := rfl
  exact ⟨hfits, c, ys, c', hclear, (renderVoices_congr hsame ..).symm.trans hrender, hu⟩

/-- Settles O27: each voice renders on from where it was left, whatever the buffer holds, and each frame belongs to one
of the two regions, at whose start both ways hold the same word. -/
theorem splitRenderEqualsOneRender : Obligations.SplitRenderEqualsOneRender := by
  intro s t u start m n hsum hblk hfirst hsecond
  obtain ⟨hprep, -, -, b₁, ys, b₁', hclear₁, hrender₁, rfl⟩ := exec_render_eq_next.1 hfirst
  obtain ⟨hfits, b₂, zs, b₂', hclear₂, hrender₂, rfl⟩ := exec_render_replaced hsecond
  have hstart : (start + m).toNat = start.toNat + m.toNat := BitVec.toNat_add_of_lt (by omega)
  have hcount : (m + n).toNat = m.toNat + n.toNat := BitVec.toNat_add_of_lt (by omega)
  rw [hstart] at hfits hclear₂ hrender₂
  have hwhole : start.toNat + (m + n).toNat ≤ s.par.bufLen := by
    rw [hcount, ← Nat.add_assoc]
    exact hfits
  obtain ⟨b, hclear⟩ := clearFrames_completes s.buf hwhole
  obtain ⟨b', hrender, hkeeps⟩ := renderVoices_add hrender₁ hrender₂ b
  rw [← hcount] at hrender
  refine ⟨_, exec_render_eq_next.2 ⟨hprep, hwhole, by omega, b, zs, b', hclear, hrender, rfl⟩, rfl, fun c f _ hf => ?_,
    rfl⟩
  obtain ⟨-, -, hframe₁⟩ := renderVoices_frame hrender₁
  obtain ⟨-, -, hframe₂⟩ := renderVoices_frame hrender₂
  change bufRead s b' c f = bufRead s b₂' c f
  obtain hlt | hge := Nat.lt_or_ge f (start.toNat + m.toNat)
  · have hcleared : bufRead s b₁ c f = bufRead s b c f := bufRead_cleared_alike hclear₁ hclear hf (by omega) rfl
    calc bufRead s b' c f = bufRead s b₁' c f := ((hkeeps f hf).1 hlt c hcleared).symm
      _ = bufRead s b₂ c f := (bufRead_cleared_outside hclear₂ hf (by omega)).symm
      _ = bufRead s b₂' c f := (hframe₂ c f hf (by omega)).symm
  · have huntouched : bufRead s b₁' c f = bufRead s s.buf c f :=
      (hframe₁ c f hf (by omega)).trans (bufRead_cleared_outside hclear₁ hf (by omega))
    have hcleared : bufRead s b₂ c f = bufRead s b c f := bufRead_cleared_alike hclear₂ hclear hf (by omega) huntouched
    exact ((hkeeps f hf).2 hge c hcleared).symm

end Sys2Proof.Machine
end

/-! The host commands (46_engine_commands.md R270 to R281; R252 for RENDER's contract): what each writes, what it leaves,
where it has no effect and where it stops. -/

section
namespace Sys2Proof.Machine

/-! ### Parameter commands -/

theorem clampInt_eq {lo hi : Int} (h : lo ≤ hi) (x : Int) : clampInt x lo hi = max lo (min hi x) := by
  unfold clampInt
  split_ifs <;> omega

/-- SET_HARM's five bits hold the clamped count (R273). -/
theorem toNat_clampHarm (n : BitVec 16) : ((clampHarm n).toNat : Int) = max 1 (min 16 n.toInt) := by
  rw [clampHarm, clampInt_eq (by decide), sext16, BitVec.toNat_ofInt]
  omega

/-- SET_SUB's four bits hold the clamped count (R274). -/
theorem toNat_clampSub (n : BitVec 16) : ((clampSub n).toNat : Int) = max 0 (min 8 n.toInt) := by
  rw [clampSub, clampInt_eq (by decide), sext16, BitVec.toNat_ofInt]
  omega

/-- Settles O10: the arm of SET_WAVE is this one write. -/
theorem setWaveStoresTheKind : Obligations.SetWaveStoresTheKind := fun _ _ => rfl

/-- Settles O11: four bits are enough for the clamped count. -/
theorem setSubStoresTheClampedCount : Obligations.SetSubStoresTheClampedCount := fun _ n =>
  ⟨_, rfl, toNat_clampSub n, rfl⟩

/-- Settles O12: while not prepared SET_HARM is its one write. -/
theorem setHarmUnpreparedStoresTheClampedCount : Obligations.SetHarmUnpreparedStoresTheClampedCount := fun _ n hprep =>
  ⟨_, (finish_eq_next _ _).2 (setHarmonics_eq_ok.2 (.inr ⟨hprep, rfl⟩)), toNat_clampHarm n, rfl⟩

/-- On operands of entry U4's range `rebuild_all` completes, and leaves all but the tables (R140). -/
theorem rebuildTables_completes {s : State} (hnum : s.par.num = .f32) (hharm : s.cfg.harm.toNat ≤ 16)
    (hrange : BuildInRange s.par.tableSize s.par.fBuild s.cfg.fs) :
    ∃ tbl tblAttr, rebuildTables s = .ok { s with tbl := tbl, tblAttr := tblAttr } ∧
      ∀ k, ∃ words,
        buildWords numF32 s.par.tableSize k s.cfg.harm.toNat s.par.fBuild s.cfg.fs = .ok words ∧
          tbl.get k = Mem.fromWords 0 words ∧ tblAttr.get k = { h := s.cfg.harm, fs := s.cfg.fs } := by
  obtain ⟨t, hexec, hbuilt, ht⟩ := buildReplacesOneWholeTable.2 s hnum hharm hrange
  exact ⟨t.tbl, t.tblAttr, ht ▸ (finish_eq_next _ _).1 hexec, hbuilt⟩

/-- Settles O13: while prepared SET_HARM is `rebuild_all` with the clamped count, which is at most 16. -/
theorem setHarmPreparedRebuildsTheTables : Obligations.SetHarmPreparedRebuildsTheTables := by
  intro s n hnum hprep hrange
  obtain ⟨tbl, tblAttr, hrebuild, hbuilt⟩ := rebuildTables_completes
    (s := { s with cfg := { s.cfg with harm := clampHarm n } }) hnum (clampHarm_bounds n).2 hrange
  exact ⟨_, (finish_eq_next _ _).2 (setHarmonics_eq_ok.2 (.inl ⟨hprep, hrebuild⟩)), toNat_clampHarm n, hbuilt, rfl⟩

/-- Settles O14: SET_ADSR writes the four clamped numbers, then `env_rates` runs exactly while prepared. -/
theorem setAdsrClampsAndRecomputesTheRates : Obligations.SetAdsrClampsAndRecomputesTheRates := by
  rintro s wa wd wu wr _ _ _ _ _ rfl rfl rfl rfl rfl ha hd hu hr
  refine ⟨_, (finish_eq_next _ _).2 (setEnvelope_eq_ok.2 ⟨⟨ha, hd, hu, hr⟩, _, rfl, rfl⟩), ?_⟩
  by_cases hprep : s.prepared = true
  · rw [if_pos hprep]
    exact ⟨rfl, rfl, rfl, rfl, fun _ => ⟨rfl, rfl⟩, fun hunprep => absurd hprep (by simp [hunprep]), rfl⟩
  · rw [if_neg hprep]
    exact ⟨rfl, rfl, rfl, rfl, fun h => absurd h hprep, fun _ => ⟨rfl, rfl⟩, rfl⟩

/-! ### Lifecycle commands -/

theorem voiceAtRest_of_mem_reset {F : NumFmt NumWord} {xs : List Voice} {x : Voice} (h : x ∈ xs.map (resetVoice F)) :
    VoiceAtRest F x := by
  obtain ⟨y, -, rfl⟩ := List.mem_map.1 h
  exact voiceAtRest_resetVoice F y

theorem clearLive_of_dead {subs : List Slot} (h : ∀ sl ∈ subs, sl.live = false) : clearLive subs = subs :=
  (List.map_congr_left fun sl hsl => by rw [← h sl hsl, id_eq]).trans (List.map_id subs)

/-- The decay step of a ramp under `NUM_F32` (R191). -/
theorem decayRate_numF32 (d sus fs : NumWord) :
    decayRate numF32 d sus fs
      = .f32 (if F32.eq (F32.sub (F32.ofInt 1) sus.bits) 0x00000000#32 then F32.sub (F32.ofInt 1) sus.bits
          else F32.div (F32.sub (F32.ofInt 1) sus.bits) (F32.mul d.bits fs.bits)) := by
  rw [apply_ite NumWord.f32]
  simp [decayRate, rampStep]

/-- Settles O15: with legal operands PREPARE is `rebuild_all` at the new rate, then `voice_reset` of every voice and
`env_rates`. -/
theorem prepareBuildsAndResets : Obligations.PrepareBuildsAndResets := by
  intro s mb fs hnum hpos hmb hmb' hharm hrange
  obtain ⟨tbl, tblAttr, hrebuild, hbuilt⟩ := rebuildTables_completes
    (s := { s with cfg := { s.cfg with fs := .f32 fs, maxblk := mb } }) hnum hharm hrange
  obtain ⟨-, -, hfin, -, -⟩ := hrange
  have hprepare := (prepareBlock_eq_ok (s := s) (mb := mb) (fs := .f32 fs)).2
    ⟨by rwa [fmt_f32 hnum], by rwa [fmt_f32 hnum, numF32_gt, numF32_ofInt, ofInt_zero], hmb, hmb', _, hrebuild, rfl⟩
  refine ⟨_, (finish_eq_next _ _).2 (by rwa [numword_f32 hnum]), rfl, hbuilt, List.length_map _, fun x hx => ?_, ?_, ?_,
    rfl⟩
  · rw [← fmt_f32 hnum]
    exact voiceAtRest_of_mem_reset hx
  · exact congrArg (attackRate · s.cfg.a (.f32 fs)) (fmt_f32 hnum)
  · exact (congrArg (decayRate · s.cfg.d s.cfg.s (.f32 fs)) (fmt_f32 hnum)).trans (decayRate_numF32 ..)

theorem prepareBlock_illegal {s : State} {mb : BitVec 16} {fs : NumWord} (hfin : s.par.fmt.isFinite fs = true)
    (h : s.par.fmt.gt fs (s.par.fmt.ofInt 0) = false ∨ mb.toNat = 0 ∨ s.par.bufLen < mb.toNat) :
    prepareBlock s mb fs = .error (.badPrepare fs mb) := by
  unfold prepareBlock
  rw [hfin, zext16_eq]
  cases hgt : s.par.fmt.gt fs (s.par.fmt.ofInt 0) with
  | false => rfl
  | true => exact if_pos (h.resolve_left (by simp [hgt]))

/-- Settles O16: the two tests that follow the finiteness test both stop with the operands. -/
theorem prepareWithIllegalOperandsIsCV3 : Obligations.PrepareWithIllegalOperandsIsCV3 := fun _ _ _ hfin h =>
  congrArg finish (prepareBlock_illegal hfin h)

/-- Settles O17: RELEASE resets every voice and forgets the memories; the settings are not among what it forgets. -/
theorem releaseEndsThePreparedState : Obligations.ReleaseEndsThePreparedState := by
  intro s hprep
  have hexec : exec .release s = .next { forgetPrepared (resetVoices s) with prepared := false } :=
    congrArg _ (if_pos hprep)
  refine ⟨_, hexec, rfl, List.length_map _, fun x hx => voiceAtRest_of_mem_reset hx, rfl, rfl, rfl, rfl, rfl, rfl, rfl,
    fun k i => ?_, fun a => rfl, rfl, rfl, rfl, rfl, rfl, rfl, rfl, rfl⟩
  rw [forgetPrepared_tbl, PerKind.get_all]
  rfl

/-- A reset of a voice at rest changes nothing (R227). -/
theorem resetVoice_of_rest {F : NumFmt NumWord} {x : Voice} (h : VoiceAtRest F x) : resetVoice F x = x := by
  obtain ⟨hbusy, hstage, hlevel, hlive⟩ := h
  rw [resetVoice, clearLive_of_dead hlive, envReset, ← hbusy, ← hstage, ← hlevel]

/-- Settles O18: while not prepared RELEASE resets the voices alone, and they are at rest. -/
theorem releaseUnpreparedHasNoEffect : Obligations.ReleaseUnpreparedHasNoEffect := by
  intro s hprep hrest
  have hvoices : s.voices.map (resetVoice s.par.fmt) = s.voices :=
    (List.map_congr_left fun x hx => resetVoice_of_rest (hrest x hx)).trans (List.map_id s.voices)
  calc exec .release s = .next (resetVoices s) := congrArg _ (if_neg (by simp [hprep]))
    _ = .next s := by rw [resetVoices, hvoices]

/-! ### Note commands -/

/-- What the start of a voice does to each of its slots (R223). -/
theorem startVoice_slot (s : State) {x : Voice} {i : Nat} {sl : Slot} (h : x.subs[i]? = some sl) (note : BitVec 7)
    (vel : NumWord) (k : Kind) (sc : Int) :
    ∃ sl', (startVoice s x note vel k sc).1.subs[i]? = some sl' ∧
      (sl'.live = true ↔ i < slotCount sc ∧
        s.par.fmt.lt (s.par.fmt.div (s.par.fmt.midi note) (s.par.fmt.ofInt ((i : Int) + 2)))
          (s.par.fmt.div s.cfg.fs (s.par.fmt.ofInt 2)) = true) ∧
      (sl'.live = true →
        sl'.osc.inc = s.par.fmt.mul (s.par.fmt.div (s.par.fmt.midi note) (s.par.fmt.ofInt ((i : Int) + 2)))
          (s.par.fmt.div (s.par.fmt.ofInt s.par.tableSize) s.cfg.fs)) ∧
      (sl'.live = false → sl'.osc = sl.osc) := by
  have hslot := startSlots_get (F := s.par.fmt) (n := s.par.tableSize) (count := slotCount sc)
    (f := s.par.fmt.midi note) (fs := s.cfg.fs) (i := 0) (r := (s.rnd.draw s.par.fmt s.par.tableSize).2) h
  rwa [zero_add] at hslot

/-- A count that is not negative reaches as many of a voice's eight slots as its clamp to 8 does (R223). -/
theorem slot_lt_slotCount_iff (i : BitVec 3) (sc : Nat) : i.toNat < slotCount sc ↔ i.toNat < sc := by
  have hi := i.isLt
  rw [lt_slotCount_iff]
  omega

/-- Settles O20: the voice that passes NOTE_ON's test first is started, with SUB's count, and `startVoice_slot` says
what becomes of each of its slots. -/
theorem noteOnStartsTheFirstIdleVoice : Obligations.NoteOnStartsTheFirstIdleVoice := by
  rintro s note w v x _ _ rfl rfl hfin hprep hx hidle h8 hbusy
  have hfirst : firstVoice (fun y => !y.busy) s.voices = some v :=
    firstVoice_eq_some.2 ⟨⟨x, hx, by simp [hidle]⟩, fun u y hu hy => by simp [hbusy u y hu hy]⟩
  have hstart := (noteOn_eq_ok (note := note)).2 ⟨hfin, hprep, .inr ⟨v, hfirst, voiceNoteOn_eq_ok.2 ⟨x, hx, rfl⟩⟩⟩
  refine ⟨_, _, (finish_eq_next _ _).2 hstart, rfl, rfl, rfl, rfl, rfl, rfl, rfl, rfl, rfl,
    (startSlots_length ..).trans h8, startVoice_taken .., fun i => ?_⟩
  have hi : i.toNat < x.subs.length := by have := i.isLt; omega
  have hsl := List.getElem?_eq_getElem hi
  obtain ⟨sl', hsl', hlive, hinc, hdead⟩ := startVoice_slot s hsl note
    (clampUnit s.par.fmt (numword s.par w)) s.cfg.wave (s.cfg.sub.toNat : Int)
  rw [slot_lt_slotCount_iff] at hlive
  simp only [Voice.osc, List.getD_eq_getElem?_getD, hsl', hsl, Option.getD_some]
  exact ⟨by rw [Bool.eq_iff_iff, hlive, Bool.and_eq_true, decide_eq_true_iff], hinc, hdead⟩

theorem noteOn_unprepared {s : State} {vel : NumWord} (hfin : s.par.fmt.isFinite vel = true) (hprep : s.prepared = false)
    (note : BitVec 7) : noteOn s note vel = .error (.notPrepared .noteOn) := by
  rw [noteOn, hfin, hprep]
  rfl

theorem renderBlock_unprepared {s : State} (hprep : s.prepared = false) (start num : BitVec 16) :
    renderBlock s start num = .error (.notPrepared .render) := by
  rw [renderBlock, hprep]
  rfl

theorem renderBlock_outside {s : State} {start num : BitVec 16} (hprep : s.prepared = true)
    (h : s.par.bufLen < start.toNat + num.toNat ∨ s.cfg.maxblk.toNat < num.toNat) :
    renderBlock s start num = .error (.renderRange start num) := by
  rw [renderBlock, hprep]
  exact if_pos h

/-- Settles O21: PREPARED is tested before the region, and the region before anything is cleared. -/
theorem commandsOutsideTheContractStop : Obligations.CommandsOutsideTheContractStop := fun _ =>
  ⟨fun hprep => ⟨fun note _ hfin => congrArg finish (noteOn_unprepared hfin hprep note),
    fun start num => congrArg finish (renderBlock_unprepared hprep start num)⟩,
    fun hprep _ _ h => congrArg finish (renderBlock_outside hprep h)⟩

/-- Settles O22: the voice that passes NOTE_OFF's test first has its envelope released, and a release that does nothing
writes the voice's own registers back. -/
theorem noteOffReleasesTheFirstHolder : Obligations.NoteOffReleasesTheFirstHolder := by
  rintro s t note vel v x _ rfl hfin hx hbusy hnote hbefore
  have hfirst : firstVoice (fun y => y.busy && y.note == note) s.voices = some v :=
    firstVoice_eq_some.2 ⟨⟨x, hx, by simp [hbusy, hnote]⟩, fun u y hu hy => by simpa using hbefore u y hu hy⟩
  have hexec := (finish_eq_next _ _).2 ((noteOff_eq_ok (tail := t)).2 ⟨hfin, .inr ⟨v, x, hfirst, hx, rfl⟩⟩)
  refine ⟨fun hheld => ?_, fun hrest => ?_⟩
  · rw [envRelease_of_held _ _ _ hheld] at hexec
    exact hexec
  · rw [envRelease_of_idle_or_release _ _ _ hrest.symm, setVoice_self hx] at hexec
    exact hexec

/-- Settles O23: no voice passes the command's test. -/
theorem notesWithNoVoiceToTakeChangeNothing : Obligations.NotesWithNoVoiceToTakeChangeNothing := by
  refine fun s note vel hfin => ⟨fun hprep hbusy => ?_, fun t hnone => ?_⟩
  · have hfirst : firstVoice (fun y => !y.busy) s.voices = none :=
      firstVoice_eq_none.2 fun x hx => by simp [hbusy x hx]
    exact (finish_eq_next _ _).2 (noteOn_eq_ok.2 ⟨hfin, hprep, .inl ⟨hfirst, rfl⟩⟩)
  · have hfirst : firstVoice (fun y => y.busy && y.note == note) s.voices = none :=
      firstVoice_eq_none.2 fun x hx => by simpa using hnone x hx
    exact (finish_eq_next _ _).2 (noteOff_eq_ok.2 ⟨hfin, .inl ⟨hfirst, rfl⟩⟩)

end Sys2Proof.Machine
end
